-- ==== Sys2Proof/Word.lean ====
section
/-! DEFINITION. The two word widths of the block: 8-bit bytes (R6, R50) and 32-bit words (R6). -/

namespace Sys2Proof

/-- A byte of a stream, of a chunk type or of a payload, and a command word (R6, R50; log 7). -/
abbrev Byte := BitVec 8

/-- The argument word, RES, INFO, CRCACC, a length field, a CRC field (R6). -/
abbrev Word := BitVec 32

end Sys2Proof
end

