-- ==== Sys2Proof/Config.lean ====
section
/-! DEFINITION. The parameters the spec leaves to an implementation: the two capacities (R7), the UTF-8
predicate (R8) and the host's PRINT_SPLIT (R9). -/

namespace Sys2Proof

/-- Which instantiation of the open parameter UTF8_VALID (R8, D24) the block was built with: the table GK3 that
the spec recommends, or any other predicate that meets R8's constraints, one for each number (log 2). -/
inductive Utf8Param where
  | recommended
  | other (k : Nat)
deriving DecidableEq, Repr

/-- The parameters fixed when the block is built (R7, R8, R33).  A capacity is a 32-bit word because R7 gives it
the range 0 to 2^32 - 1. -/
structure Params where
  maxPayload : Word
  maxChunks : Word
  utf8 : Utf8Param
deriving DecidableEq, Repr

/-- R7's default capacities, the document's own bounds, and R8's recommended predicate (logs 1 and 2). -/
def Params.default : Params :=
  ⟨0xFFFFFFFF#32, 0xFFFFFFFF#32, .recommended⟩

/-- FREE VALUE (log 2): what the predicate number `k` other than GK3 says of a payload that is not all seven-bit.
R8 allows anything there. -/
opaque Config.utf8Other : Nat → List Byte → Bool

/-- FREE VALUE (log 18): the host's PRINT_SPLIT (R9, D25), what PRINT lists of the packed types of a container whose
number of IEND chunks is not one.  No operation of the block uses it. -/
opaque Config.printSplit : List Word → List Word

end Sys2Proof
end

