-- ==== Sys2Proof/Syntax.lean ====
section
/-! DEFINITION. The operation set: chunk types as operands (F-TYPE, R90), what the host issues (R14) and the 28
operations (R82), one constructor for each row of spec/opcode_table.json with the operands it takes. -/

namespace Sys2Proof

/-- Four type bytes, `b0` first on the stream (R12, R21, R90).  Whether they are letters is checked by `typeValid`. -/
structure ChunkType where
  b0 : Byte
  b1 : Byte
  b2 : Byte
  b3 : Byte
deriving DecidableEq, Repr

/-- One operation as the host issues it: command word, argument word and the complete input sequence (R14). -/
structure Request where
  cmd : Byte
  arg : Word
  input : List Byte
deriving DecidableEq, Repr

/-- The 28 operations of R82 with their operands (R84 for the argument word, R51 for the input stream).
Every operand is a fixed-width field or a byte sequence of any finite length, and the spec shuts out no value of
either, so every term is a well-formed instruction; what can be ill-formed is a `Request` (WellFormed.lean). -/
inductive Instr where
  | tyLdb (t : ChunkType)          -- TY.LDB, format A-TYPE
  | tyLdt (text : List Byte)       -- TY.LDT
  | tyRdb                          -- TY.RDB
  | tyRdt                          -- TY.RDT
  | tyCrit                         -- TY.CRIT
  | tyPub                          -- TY.PUB
  | tyRsv                          -- TY.RSV
  | tySafe                         -- TY.SAFE
  | tyWrt                          -- TY.WRT
  | crcInit                        -- CRC.INIT
  | crcUpd (b : Byte)              -- CRC.UPD, format A-BYTE
  | crcRd                          -- CRC.RD
  | chNew (payload : List Byte)    -- CH.NEW
  | chParse (frame : List Byte)    -- CH.PARSE
  | chSer                          -- CH.SER
  | chLen                          -- CH.LEN
  | chType                         -- CH.TYPE
  | chData                         -- CH.DATA
  | chCrc                          -- CH.CRC
  | chText                         -- CH.TEXT
  | ctParse (file : List Byte)     -- CT.PARSE
  | ctSer                          -- CT.SER
  | ctAppend                       -- CT.APPEND
  | ctRemove                       -- CT.REMOVE
  | ctFind                         -- CT.FIND
  | ctCount                        -- CT.COUNT
  | ctGet (index : Word)           -- CT.GET, format A-INDEX
  | sysReset                       -- SYS.RESET
deriving DecidableEq, Repr

end Sys2Proof
end

