-- ==== Sys2Proof/Machine/State.lean ====
section
/-! DEFINITION. The state of the block as plain data: the architectural registers of R20, the Level S engine registers
of R31, the parameters (R33) and what the host has lined up for the block (R231). -/

namespace Sys2Proof.Machine

/-- One chunk: the four fields of `CH` (R22) and of a store entry (R23). -/
structure Chunk where
  type : ChunkType
  len : Word
  data : List Byte
  crc : Word
deriving DecidableEq, Repr

/-- The response codes that occur (R290): 0 to 6 and 15. -/
inductive Code where
  | ok
  | invalidChunkType
  | unexpectedEof
  | crcMismatch
  | badSignature
  | chunkNotFound
  | invalidUtf8
  | protocol
deriving DecidableEq, Repr

/-- The sub-reasons of `Protocol` (R292). -/
inductive SubReason where
  | illegal
  | empty
  | cap
  | range
deriving DecidableEq, Repr

/-- The phases of register `PH` but for IDLE (R31); IDLE is the absence of an engine in `State.eng` (log 8). -/
inductive Phase where
  | sig
  | len
  | type
  | data
  | crcf
  | drain
deriving DecidableEq, Repr

/-- The one-bit engine register `mode` (R251). -/
inductive Mode where
  | chunk
  | cont
deriving DecidableEq, Repr

/-- Register `PEND`: the decided response, 4 + 32 bits (R31). -/
structure Pend where
  code : Code
  info : Word
deriving DecidableEq, Repr

/-- The engine registers of CH.PARSE and CT.PARSE (R31, R251).  `acc` is absent until a type field completes (R251,
R254; log 9).  `kept` is the chunk kept beside `pend` = (OK, 0) in CHUNK mode (R256). -/
structure ParseRegs where
  mode : Mode
  ph : Phase
  bc : Word
  lenr : Word
  tyr : Word
  crcr : Word
  acc : Option Word
  idx : Word
  ovf : Bool
  pend : Option Pend
  kept : Option Chunk
  sd : List Byte
  sh : List Chunk
deriving DecidableEq, Repr

/-- The engine registers of CH.NEW (R258); the others hold no value while it runs.  What these hold where R258 writes
none of them is the model's choice (log 23). -/
structure BuildRegs where
  ph : Phase
  bc : Word
  acc : Word
  ovf : Bool
  pend : Option Pend
  sd : List Byte
deriving DecidableEq, Repr

/-- The engine registers of TY.LDT (R261; log 19): `bc` counts the items and saturates at 5, `tyr` keeps the first four. -/
structure TextRegs where
  bc : Word
  tyr : Word
deriving DecidableEq, Repr

/-- Which operation's output is being emitted (R259). -/
inductive EmitJob where
  | chSer
  | ctSer
  | tyRdt
  | chData
  | chText
deriving DecidableEq, Repr

/-- The engine registers of an emitting operation (R259).  `pend` is the response it will complete with, decided at its
start step; `staged` holds the bytes emitted so far, released to the host with the response (D32; log 15).  `ph` and
`idx` where R259 names none are the model's choice (log 24). -/
structure EmitRegs where
  job : EmitJob
  ph : Phase
  bc : Word
  idx : Word
  pend : Pend
  staged : List Byte
deriving DecidableEq, Repr

/-- The engine while an operation is in progress (R31), with the registers that operation uses; a register it does not
use holds no value and is absent (93_implementation_defined.md U11; log 8). -/
inductive Engine where
  | parse (r : ParseRegs)
  | build (r : BuildRegs)
  | text (r : TextRegs)
  | emit (r : EmitRegs)
deriving DecidableEq, Repr

/-- What the host does next (R231; log 3).  `op` issues one whole operation, which the block serves at Level T (R14).
`start`, `byte` and `eos` are the items of one operation at Level S (R250).  `reset` is the hardware reset (R320). -/
inductive HostEvent where
  | op (r : Request)
  | start (cmd : Byte) (arg : Word)
  | byte (b : Byte)
  | eos
  | reset
deriving DecidableEq, Repr

/-- The state.  `ty` and `ch` are absent while their valid bits are 0 (R34, R321); `cs` is the container store, its
length the count `CS.n` (R23; log 17); `code`, `info`, `res`, `out` are the last response (R14, R25 to R27; logs 4 and
21); `eng` is the Level S engine, absent while idle (R31); `cfg` holds the parameters and no step changes it (R33;
log 1); `host` is what the host has lined up (log 3). -/
structure State where
  ty : Option ChunkType
  ch : Option Chunk
  cs : List Chunk
  crcacc : Word
  code : Code
  info : Word
  res : Word
  out : List Byte
  eng : Option Engine
  cfg : Params
  host : List HostEvent
deriving DecidableEq, Repr

/-- The state right after reset (R34): no type, no chunk, the empty container, `CRCACC` at its initial remainder,
STATUS, INFO and RES zero, the engine idle; the parameters at their defaults (log 1), no output (log 4) and nothing
lined up by the host (log 3). -/
def State.reset : State where
  ty := none
  ch := none
  cs := []
  crcacc := 0xFFFFFFFF#32
  code := .ok
  info := 0
  res := 0
  out := []
  eng := none
  cfg := .default
  host := []

/-- Why the block stops.  No operation of the table stops it: an error is a response (R296).  -/
inductive Fault where
  /-- Raised by `step` when the host issues an operation while one is still taking its input: R324 gives this no
  meaning (U7, "stuck").  Safe: nothing is claimed of such a host. -/
  | overlappingOperation
  /-- Raised by `step` when an operation waits for an item and the host has none lined up: R324 gives an input without
  its EOS no meaning (U7, "stuck").  Safe: nothing is claimed of such a host. -/
  | inputStalled
  /-- Raised by a Level S step that would read a register or byte that holds no value (log 14); no run reaches such an
  engine state.  Safe: the block stops instead of going on with an invented value. -/
  | engineReadsNothing
deriving DecidableEq, Repr

/-- Why an instruction has no meaning. -/
inductive Refusal where
  /-- Raised by `exec` for an instruction without a meaning yet; no arm does.  Safe. -/
  | notModelled (mnemonic : String)
deriving DecidableEq, Repr

/-- What a step or a meaning answers. -/
abbrev Result := Host.Outcome State Fault Refusal

end Sys2Proof.Machine
end

