-- ==== Sys2Proof/Machine/Crc.lean ====
section
/-! DEFINITION. The CRC-32 of U-CRC (R150 to R152).  The four parameters stand here as named constants in one place
(D7); their numbers are the spec's, from general knowledge (log 6). -/

namespace Sys2Proof.Machine

/-- The generator polynomial in bit-reversed form (R150). -/
def crcPoly : Word := 0xEDB88320#32

/-- The initial register value (R150). -/
def crcInitial : Word := 0xFFFFFFFF#32

/-- The final XOR value (R150). -/
def crcFinal : Word := 0xFFFFFFFF#32

/-- One of the eight equal iterations of R151; the test reads bit 0 before the shift. -/
def crcShift (acc : Word) : Word :=
  if acc.getLsbD 0 then (acc >>> 1) ^^^ crcPoly else acc >>> 1

/-- `n` iterations. -/
def crcShifts : Nat → Word → Word
  | 0, acc => acc
  | n + 1, acc => crcShifts n (crcShift acc)

/-- `crc_upd(acc, b)` (R151): the byte enters the low 8 bits, least significant bit first (R56). -/
def crcUpd (acc : Word) (b : Byte) : Word := crcShifts 8 (acc ^^^ b.setWidth 32)

/-- The accumulator after the bytes of `s` in order (R152, R153 a). -/
def crcRun (acc : Word) (s : List Byte) : Word := s.foldl crcUpd acc

/-- The finalised checksum of an accumulator (R152, R156). -/
def crcFinish (acc : Word) : Word := acc ^^^ crcFinal

/-- `crc32(s)` (R152). -/
def crc32 (s : List Byte) : Word := crcFinish (crcRun crcInitial s)

end Sys2Proof.Machine
end

