-- ==== Sys2Proof/WellFormed.lean ====
section
/-! DEFINITION. What a well-formed request is.  The block answers every request (R14), so these checks do not decide
what it does; they say which requests a host that keeps to the spec sends, and they are the image of the encoder:
the code is assigned (R83), ignored argument bits are zero (a normal form: R84 gives them no effect), and a stream
comes only with an operation that takes one (R51, R231); log 22. -/

namespace Sys2Proof

/-- The 28 assigned command codes (R82). -/
def assignedCodes : List Byte :=
  [0x00, 0x01, 0x02, 0x03, 0x04, 0x05, 0x06, 0x07, 0x08, 0x10, 0x11, 0x12, 0x20, 0x21, 0x22, 0x23, 0x24, 0x25, 0x26,
   0x27, 0x30, 0x31, 0x32, 0x33, 0x34, 0x35, 0x36, 0x70]

/-- The operations that take an input stream: TY.LDT, CH.NEW, CH.PARSE, CT.PARSE (R50, R231). -/
def inputCodes : List Byte := [0x01, 0x20, 0x21, 0x30]

/-- The argument bits an operation looks at (R84): all for A-TYPE and A-INDEX, the low byte for A-BYTE, else none. -/
def argMask (cmd : Byte) : Word :=
  if cmd = 0x00 ∨ cmd = 0x36 then 0xFFFFFFFF else if cmd = 0x11 then 0xFF else 0

/-- The command code is assigned (R83). -/
def Request.assigned (r : Request) : Bool := assignedCodes.contains r.cmd

/-- No ignored argument bit is set (R84). -/
def Request.argPlain (r : Request) : Bool := r.arg &&& argMask r.cmd == r.arg

/-- No stream comes with an operation that takes none (R51). -/
def Request.inputExpected (r : Request) : Bool := r.input.isEmpty || inputCodes.contains r.cmd

/-- The three checks together. -/
def Request.wf (r : Request) : Bool := r.assigned && r.argPlain && r.inputExpected

end Sys2Proof
end

