-- ==== Sys2Proof/Decode.lean ====
section
/-! DEFINITION. From what the host issues to an instruction and back: the big-endian assembly of 32-bit words (R89),
the argument formats (R84), the command map (R80, R82, R83), and the encoder written from the same table. -/

namespace Sys2Proof

/-- `be32(b0, b1, b2, b3)` (R89): `b0` is the byte at the lowest offset and goes to bits 31:24. -/
def be32 (b0 b1 b2 b3 : Byte) : Word :=
  (b0.setWidth 32 <<< 24) ||| (b1.setWidth 32 <<< 16) ||| (b2.setWidth 32 <<< 8) ||| b3.setWidth 32

/-- Byte `i` of a word counted from the top, 0 for bits 31:24 to 3 for bits 7:0 (R89). -/
def wordByte (v : Word) (i : Nat) : Byte := v.extractLsb' (24 - 8 * i) 8

/-- `be32_bytes(v)` (R89), in the order emitted. -/
def be32Bytes (v : Word) : List Byte := [wordByte v 0, wordByte v 1, wordByte v 2, wordByte v 3]

/-- The four type bytes in stream order (R55). -/
def ChunkType.bytes (t : ChunkType) : List Byte := [t.b0, t.b1, t.b2, t.b3]

/-- Format A-TYPE and register TYR (R84, R55): first byte from bits 31:24. -/
def ChunkType.ofWord (v : Word) : ChunkType := ⟨wordByte v 0, wordByte v 1, wordByte v 2, wordByte v 3⟩

/-- Format R-TYPE (R85), the inverse of A-TYPE. -/
def ChunkType.toWord (t : ChunkType) : Word := be32 t.b0 t.b1 t.b2 t.b3

/-- Field UNIT of a command word (R80). -/
def unitField (cmd : Byte) : BitVec 4 := cmd.extractLsb' 4 4

/-- Field FUNC of a command word (R80). -/
def funcField (cmd : Byte) : BitVec 4 := cmd.extractLsb' 0 4

/-- Why a request is no instruction. -/
inductive DecodeError where
  /-- The command code is one of the 228 reserved ones (R83). -/
  | reservedCode (cmd : Byte)
deriving DecidableEq, Repr

/-- The decoder (R82, R83, R84), total on every request.  It reads only the argument bits and the stream the operation
takes; the rest has no effect (R84, R51). -/
def decode (r : Request) : Except DecodeError Instr :=
  match r.cmd with
  | 0x00#8 => .ok (.tyLdb (.ofWord r.arg))
  | 0x01#8 => .ok (.tyLdt r.input)
  | 0x02#8 => .ok .tyRdb
  | 0x03#8 => .ok .tyRdt
  | 0x04#8 => .ok .tyCrit
  | 0x05#8 => .ok .tyPub
  | 0x06#8 => .ok .tyRsv
  | 0x07#8 => .ok .tySafe
  | 0x08#8 => .ok .tyWrt
  | 0x10#8 => .ok .crcInit
  | 0x11#8 => .ok (.crcUpd (wordByte r.arg 3))
  | 0x12#8 => .ok .crcRd
  | 0x20#8 => .ok (.chNew r.input)
  | 0x21#8 => .ok (.chParse r.input)
  | 0x22#8 => .ok .chSer
  | 0x23#8 => .ok .chLen
  | 0x24#8 => .ok .chType
  | 0x25#8 => .ok .chData
  | 0x26#8 => .ok .chCrc
  | 0x27#8 => .ok .chText
  | 0x30#8 => .ok (.ctParse r.input)
  | 0x31#8 => .ok .ctSer
  | 0x32#8 => .ok .ctAppend
  | 0x33#8 => .ok .ctRemove
  | 0x34#8 => .ok .ctFind
  | 0x35#8 => .ok .ctCount
  | 0x36#8 => .ok (.ctGet r.arg)
  | 0x70#8 => .ok .sysReset
  | _ => .error (.reservedCode r.cmd)

/-- The command code of an operation (R82). -/
def Instr.cmd : Instr → Byte
  | .tyLdb _ => 0x00
  | .tyLdt _ => 0x01
  | .tyRdb => 0x02
  | .tyRdt => 0x03
  | .tyCrit => 0x04
  | .tyPub => 0x05
  | .tyRsv => 0x06
  | .tySafe => 0x07
  | .tyWrt => 0x08
  | .crcInit => 0x10
  | .crcUpd _ => 0x11
  | .crcRd => 0x12
  | .chNew _ => 0x20
  | .chParse _ => 0x21
  | .chSer => 0x22
  | .chLen => 0x23
  | .chType => 0x24
  | .chData => 0x25
  | .chCrc => 0x26
  | .chText => 0x27
  | .ctParse _ => 0x30
  | .ctSer => 0x31
  | .ctAppend => 0x32
  | .ctRemove => 0x33
  | .ctFind => 0x34
  | .ctCount => 0x35
  | .ctGet _ => 0x36
  | .sysReset => 0x70

/-- The argument word of an operation (R84); zero where it is ignored. -/
def Instr.arg : Instr → Word
  | .tyLdb t => t.toWord
  | .crcUpd b => b.setWidth 32
  | .ctGet index => index
  | .tyLdt _ | .tyRdb | .tyRdt | .tyCrit | .tyPub | .tyRsv | .tySafe | .tyWrt | .crcInit | .crcRd | .chNew _
  | .chParse _ | .chSer | .chLen | .chType | .chData | .chCrc | .chText | .ctParse _ | .ctSer | .ctAppend | .ctRemove
  | .ctFind | .ctCount | .sysReset => 0

/-- The input sequence of an operation (R82, column `in`); empty where it takes none. -/
def Instr.input : Instr → List Byte
  | .tyLdt text => text
  | .chNew payload => payload
  | .chParse frame => frame
  | .ctParse file => file
  | .tyLdb _ | .tyRdb | .tyRdt | .tyCrit | .tyPub | .tyRsv | .tySafe | .tyWrt | .crcInit | .crcUpd _ | .crcRd | .chSer
  | .chLen | .chType | .chData | .chCrc | .chText | .ctSer | .ctAppend | .ctRemove | .ctFind | .ctCount | .ctGet _
  | .sysReset => []

/-- The encoder: the request that names the operation and carries its operands. -/
def encode (i : Instr) : Request := ⟨i.cmd, i.arg, i.input⟩

/-- The request a numbered bit pattern stands for (log 16): the command word in bits 7:0, the argument word counted on
from bit 8, bits at `nbits` and above zero, no input stream. -/
def tableRequest (nbits w : Nat) : Request :=
  ⟨BitVec.ofNat 8 (w % 2 ^ nbits), BitVec.ofNat 32 (w % 2 ^ nbits / 256), []⟩

/-- The instruction the decoder reads from an instruction numbered as spec/opcode_table.json numbers it. -/
def decodeTableWord (nbits w : Nat) : Option Instr :=
  match decode (tableRequest nbits w) with
  | .ok i => some i
  | .error _ => none

end Sys2Proof
end

