-- ==== Sys2Proof/Machine/Flags.lean ====
section
/-! DEFINITION. The combinational logic of U-TYPE (R120 to R126, R138), the numbers of the response codes (R290, R292)
and the read-only views STATUS and COUNT (R25, R28).  The block stores no flag (R30). -/

namespace Sys2Proof.Machine

/-- `is_letter(b)` (R120; log 7). -/
def isLetter (b : Byte) : Bool :=
  (0x41#8 ≤ b && b ≤ 0x5A#8) || (0x61#8 ≤ b && b ≤ 0x7A#8)

/-- `type_valid(t)` (R121): the whole validity rule. -/
def typeValid (t : ChunkType) : Bool :=
  isLetter t.b0 && isLetter t.b1 && isLetter t.b2 && isLetter t.b3

/-- `critical(t)` (R122): bit 5 of the first byte is 0. -/
def critical (t : ChunkType) : Bool := !t.b0.getLsbD 5

/-- `public(t)` (R123): bit 5 of the second byte is 0. -/
def isPublic (t : ChunkType) : Bool := !t.b1.getLsbD 5

/-- `reserved_bit_valid(t)` (R124): bit 5 of the third byte is 0. -/
def reservedBitValid (t : ChunkType) : Bool := !t.b2.getLsbD 5

/-- `safe_to_copy(t)` (R125): bit 5 of the fourth byte is 1. -/
def safeToCopy (t : ChunkType) : Bool := t.b3.getLsbD 5

/-- `safe_to_write(t)` (R126): not critical; advisory, no operation of the block acts on it. -/
def safeToWrite (t : ChunkType) : Bool := !critical t

/-- Format R-BOOL (R85): 1 for true, 0 for false. -/
def boolWord (b : Bool) : Word := if b then 1 else 0

/-- The response code numbers (R290). -/
def Code.number : Code → BitVec 4
  | .ok => 0
  | .invalidChunkType => 1
  | .unexpectedEof => 2
  | .crcMismatch => 3
  | .badSignature => 4
  | .chunkNotFound => 5
  | .invalidUtf8 => 6
  | .protocol => 15

/-- The sub-reasons of `Protocol` as INFO carries them (R292). -/
def SubReason.word : SubReason → Word
  | .illegal => 1
  | .empty => 2
  | .cap => 3
  | .range => 4

/-- The register STATUS (R25): CODE in bits 3:0, the live copies TYV in bit 4 and CHV in bit 5, bits 31:6 zero. -/
def State.status (s : State) : Word :=
  s.code.number.setWidth 32 ||| (boolWord s.ty.isSome <<< 4) ||| (boolWord s.ch.isSome <<< 5)

/-- The register COUNT (R28), always `CS.n`. -/
def State.count (s : State) : Word := BitVec.ofNat 32 s.cs.length

end Sys2Proof.Machine
end

