-- ==== Sys2Proof/Machine/Format.lean ====
section
/-! DEFINITION. The functions on frames (R170 to R172) and containers (R200, R201) that the operations of U-CHUNK and
U-CONT are written with. -/

namespace Sys2Proof.Machine

/-- The signature F-SIG (R87). -/
def signature : List Byte := [0x89, 0x50, 0x4E, 0x47, 0x0D, 0x0A, 0x1A, 0x0A]

/-- The checksum of a chunk (R159): the four type bytes, then the payload; neither the length nor the CRC field. -/
def chunkCrc (t : ChunkType) (data : List Byte) : Word := crc32 (t.bytes ++ data)

/-- `mk_chunk(t, d)` (R170). -/
def mkChunk (t : ChunkType) (data : List Byte) : Chunk :=
  ⟨t, BitVec.ofNat 32 data.length, data, chunkCrc t data⟩

/-- `ser_chunk(c)` (R171), in format F-CHUNK (R88): the stored length and CRC are emitted.  With
`parseChunk` it obeys the laws of R173. -/
def serChunk (c : Chunk) : List Byte :=
  be32Bytes c.len ++ c.type.bytes ++ c.data ++ be32Bytes c.crc

/-- Why a frame does not parse (R172). -/
inductive FrameError where
  | unexpectedEof
  | invalidChunkType
  | crcMismatch
  | cap
deriving DecidableEq, Repr

/-- The first four bytes of a sequence as a big-endian word; none if there are fewer. -/
def word4 : List Byte → Option Word
  | b0 :: b1 :: b2 :: b3 :: _ => some (be32 b0 b1 b2 b3)
  | _ => none

/-- `parse_chunk(B)` (R172), its ten lines in order: the chunk and the number of bytes it occupied, or the error.
`12 + L` is formed in natural numbers and never wraps (R94).  Its laws are R173; that every `B` has exactly one of the
five outcomes (R173 f, h) is its type. -/
def parseChunk (cfg : Params) (B : List Byte) : Except FrameError (Chunk × Nat) :=
  match word4 B, word4 (B.drop 4) with
  | some len, some tyr =>
    if !typeValid (.ofWord tyr) then .error .invalidChunkType
    else if B.length < 12 + len.toNat then .error .unexpectedEof
    else
      let data := (B.drop 8).take len.toNat
      match word4 (B.drop (8 + len.toNat)) with
      | none => .error .unexpectedEof
      | some crc =>
        if chunkCrc (.ofWord tyr) data ≠ crc then .error .crcMismatch
        else if cfg.maxPayload.toNat < len.toNat then .error .cap
        else .ok (⟨.ofWord tyr, len, data, crc⟩, 12 + len.toNat)
  | _, _ => .error .unexpectedEof

/-- `ser_container(cs)` (R200), format F-CONT (R93).  With `parseContainer` it obeys the laws of R202. -/
def serContainer (cs : List Chunk) : List Byte := signature ++ cs.flatMap serChunk

/-- Why a container does not parse (R201): a chunk error carries the zero-based index of its frame (R205). -/
inductive ContError where
  | badSignature
  | frame (e : FrameError) (index : Nat)
deriving DecidableEq, Repr

/-- The loop of `parse_container` (R201, lines 3 to 11) over the bytes that remain, with the frames accepted so far.
Each frame takes at least 12 bytes, so `fuel` above the number of bytes is never used up. -/
def parseFrames (cfg : Params) : Nat → List Chunk → List Byte → Except ContError (List Chunk)
  | _, done, [] => .ok done
  | 0, done, _ :: _ => .error (.frame .unexpectedEof done.length)
  | fuel + 1, done, b :: rest =>
    match parseChunk cfg (b :: rest) with
    | .error e => .error (.frame e done.length)
    | .ok (c, k) =>
      if cfg.maxChunks.toNat ≤ done.length then .error (.frame .cap done.length)
      else parseFrames cfg fuel (done ++ [c]) ((b :: rest).drop k)

/-- `parse_container(B)` (R201): the signature, all eight bytes compared, then frames until the bytes are used
up.  Its laws are R202. -/
def parseContainer (cfg : Params) (B : List Byte) : Except ContError (List Chunk) :=
  if B.take 8 ≠ signature then .error .badSignature
  else parseFrames cfg B.length [] (B.drop 8)

end Sys2Proof.Machine
end

