-- ==== Sys2Proof/Machine/Utf8.lean ====
section
/-! DEFINITION. UTF8_VALID (R8) and its recommended instantiation, the table GK3 of 93_implementation_defined.md
(log 2). -/

namespace Sys2Proof.Machine

/-- A row of GK3: the range of the first byte and the ranges of the bytes that follow. -/
structure Utf8Row where
  lo : Byte
  hi : Byte
  tail : List (Byte × Byte)

/-- The table GK3, row by row. -/
def utf8Rows : List Utf8Row :=
  [⟨0x00, 0x7F, []⟩,
   ⟨0xC2, 0xDF, [(0x80, 0xBF)]⟩,
   ⟨0xE0, 0xE0, [(0xA0, 0xBF), (0x80, 0xBF)]⟩,
   ⟨0xE1, 0xEC, [(0x80, 0xBF), (0x80, 0xBF)]⟩,
   ⟨0xED, 0xED, [(0x80, 0x9F), (0x80, 0xBF)]⟩,
   ⟨0xEE, 0xEF, [(0x80, 0xBF), (0x80, 0xBF)]⟩,
   ⟨0xF0, 0xF0, [(0x90, 0xBF), (0x80, 0xBF), (0x80, 0xBF)]⟩,
   ⟨0xF1, 0xF3, [(0x80, 0xBF), (0x80, 0xBF), (0x80, 0xBF)]⟩,
   ⟨0xF4, 0xF4, [(0x80, 0x8F), (0x80, 0xBF), (0x80, 0xBF)]⟩]

/-- The ranges GK3 wants after the first byte `b`; none where no pattern starts with it. -/
def utf8Tail (b : Byte) : Option (List (Byte × Byte)) :=
  (utf8Rows.find? fun row => row.lo ≤ b && b ≤ row.hi).map (·.tail)

/-- Well-formed by GK3, where the ranges `due` are still wanted of the pattern begun. -/
def utf8From : List (Byte × Byte) → List Byte → Bool
  | [], [] => true
  | _ :: _, [] => false
  | (lo, hi) :: due, b :: rest => lo ≤ b && b ≤ hi && utf8From due rest
  | [], b :: rest =>
    match utf8Tail b with
    | some due => utf8From due rest
    | none => false

/-- GK3: a concatenation of zero or more of the table's patterns. -/
def utf8Gk3 (s : List Byte) : Bool := utf8From [] s

/-- Every byte is in 0x00..0x7F: the payloads every instantiation accepts (R8). -/
def sevenBit (s : List Byte) : Bool := s.all fun b => b ≤ 0x7F#8

/-- `UTF8_VALID` (R8) of the block's build: total, a function of the bytes alone, true on the empty sequence and on
every seven-bit one; beyond that GK3 or anything. -/
def utf8Valid (p : Utf8Param) (s : List Byte) : Bool :=
  match p with
  | .recommended => utf8Gk3 s
  | .other k => sevenBit s || Config.utf8Other k s

end Sys2Proof.Machine
end

