-- ==== Sys2Proof/Machine/Ops.lean ====
section
/-! DEFINITION. The operations every meaning shares: completing with a response (R14, R27), taking an error, which is
this block's exception entry (R296), and reset (R34, R320).  There is no return from an error (R298): the next
operation simply runs. -/

namespace Sys2Proof.Machine

/-- The four parts of the response are latched together (R14, R25 to R27, R52). -/
def State.answer (s : State) (code : Code) (info res : Word) (out : List Byte) : State :=
  { s with code := code, info := info, res := res, out := out }

/-- An operation ends with `OK`: INFO is 0 (R26). -/
def succeed (res : Word) (out : List Byte) (s : State) : Result :=
  .next (s.answer .ok 0 res out)

/-- Taking an error (R296): `STATUS.CODE`, INFO and RES = 0 are written, `out` is empty, nothing else changes. -/
def raise (code : Code) (info : Word) (s : State) : Result :=
  .next (s.answer code info 0 [])

/-- Taking a `Protocol` error with its sub-reason in INFO (R292; log 5). -/
def raiseProtocol (why : SubReason) (s : State) : Result := raise .protocol why.word s

/-- Reset, by the hardware input or by SYS.RESET (R320, R230): every register at its reset value (R34).  The
parameters are fixed when the block is built (R33), and what the host has lined up is not the block's (logs 1, 13). -/
def State.resetRegs (s : State) : State :=
  { State.reset with cfg := s.cfg, host := s.host }

/-- The response code a document error of a frame has (R290); a capacity refusal is `Protocol` (R67). -/
def FrameError.code : FrameError → Code
  | .unexpectedEof => .unexpectedEof
  | .invalidChunkType => .invalidChunkType
  | .crcMismatch => .crcMismatch
  | .cap => .protocol

/-- INFO for a frame that failed at index `index` (R205); `P_CAP` for a capacity refusal. -/
def FrameError.info (e : FrameError) (index : Word) : Word :=
  match e with
  | .unexpectedEof => index
  | .invalidChunkType => index
  | .crcMismatch => index
  | .cap => SubReason.cap.word

/-- A frame fails at index `index`. -/
def raiseFrame (e : FrameError) (index : Word) (s : State) : Result := raise e.code (e.info index) s

end Sys2Proof.Machine
end

