-- ==== Sys2Proof/Machine/Operands.lean ====
section
/-! DEFINITION. The operand registers.  An operation that reads `TY` or `CH` while its valid bit is 0 gets
`Protocol`/`P_EMPTY` before any input is looked at (R292, R295). -/

namespace Sys2Proof.Machine

/-- Read `TY`, or `P_EMPTY` (R292). -/
def withType (s : State) (run : ChunkType → Result) : Result :=
  match s.ty with
  | some t => run t
  | none => raiseProtocol .empty s

/-- Read `CH`, or `P_EMPTY` (R292). -/
def withChunk (s : State) (run : Chunk → Result) : Result :=
  match s.ch with
  | some c => run c
  | none => raiseProtocol .empty s

/-- The first store entry whose type equals `t` in all four bytes (R206, R207, R37). -/
def findChunk (cs : List Chunk) (t : ChunkType) : Option Chunk := cs.find? fun c => c.type == t

/-- The store without that entry; the others keep their order (R206). -/
def removeChunk (cs : List Chunk) (t : ChunkType) : List Chunk := cs.eraseP fun c => c.type == t

/-- Load `TY` if the four bytes are letters, else `InvalidChunkType` with `TY` unchanged (R127, R128). -/
def loadType (t : ChunkType) (s : State) : Result :=
  if typeValid t then succeed 0 [] { s with ty := some t } else raise .invalidChunkType 0 s

/-- A text of exactly four bytes as a type (R98, R128). -/
def textType : List Byte → Option ChunkType
  | [b0, b1, b2, b3] => some ⟨b0, b1, b2, b3⟩
  | _ => none

/-- Deliver a chunk into `CH` (R206, R207, R209). -/
def deliverChunk (c : Chunk) (s : State) : Result := succeed 0 [] { s with ch := some c }

/-- A property of the loaded type as a boolean result (R131 to R135, R85). -/
def readProperty (p : ChunkType → Bool) (s : State) : Result :=
  withType s fun t => succeed (boolWord (p t)) [] s

end Sys2Proof.Machine
end

