-- ==== Sys2Proof/Machine/ChunkUnit.lean ====
section
/-! DEFINITION. The operations of U-CHUNK (42_chunk.md). -/

namespace Sys2Proof.Machine

/-- CH.NEW (R180): `P_EMPTY` before `P_CAP` (R295). -/
def execChNew (payload : List Byte) (s : State) : Result :=
  withType s fun t =>
    if s.cfg.maxPayload.toNat < payload.length then raiseProtocol .cap s
    else deliverChunk (mkChunk t payload) s

/-- CH.PARSE (R181): one frame from the front; trailing bytes are ignored; INFO is 0 for the three chunk errors. -/
def execChParse (frame : List Byte) (s : State) : Result :=
  match parseChunk s.cfg frame with
  | .error e => raiseFrame e 0 s
  | .ok (c, _) => deliverChunk c s

/-- CH.SER (R182). -/
def execChSer (s : State) : Result := withChunk s fun c => succeed 0 (serChunk c) s

/-- CH.LEN (R183). -/
def execChLen (s : State) : Result := withChunk s fun c => succeed c.len [] s

/-- CH.TYPE (R184). -/
def execChType (s : State) : Result := withChunk s fun c => succeed 0 [] { s with ty := some c.type }

/-- CH.DATA (R185). -/
def execChData (s : State) : Result := withChunk s fun c => succeed 0 c.data s

/-- CH.CRC (R186). -/
def execChCrc (s : State) : Result := withChunk s fun c => succeed c.crc [] s

/-- CH.TEXT (R187): the payload unchanged if UTF8_VALID accepts it, else `InvalidUtf8` with no output. -/
def execChText (s : State) : Result :=
  withChunk s fun c => if utf8Valid s.cfg.utf8 c.data then succeed 0 c.data s else raise .invalidUtf8 0 s

end Sys2Proof.Machine
end

