-- ==== Sys2Proof/Machine/ContUnit.lean ====
section
/-! DEFINITION. The operations of U-CONT (43_container.md). -/

namespace Sys2Proof.Machine

/-- CT.PARSE (R203): the whole store is replaced on success only. -/
def execCtParse (file : List Byte) (s : State) : Result :=
  match parseContainer s.cfg file with
  | .error .badSignature => raise .badSignature 0 s
  | .error (.frame e index) => raiseFrame e (BitVec.ofNat 32 index) s
  | .ok cs => succeed 0 [] { s with cs := cs }

/-- CT.SER (R204): never fails. -/
def execCtSer (s : State) : Result := succeed 0 (serContainer s.cs) s

/-- CT.APPEND (R208): a copy of `CH` at the end; `CH` stays. -/
def execCtAppend (s : State) : Result :=
  withChunk s fun c =>
    if s.cfg.maxChunks.toNat ≤ s.cs.length then raiseProtocol .cap s
    else succeed 0 [] { s with cs := s.cs ++ [c] }

/-- CT.REMOVE (R206): the first entry of type `TY` leaves the store and is delivered into `CH`. -/
def execCtRemove (s : State) : Result :=
  withType s fun t =>
    match findChunk s.cs t with
    | some c => deliverChunk c { s with cs := removeChunk s.cs t }
    | none => raise .chunkNotFound 0 s

/-- CT.FIND (R207): the same entry, copied into `CH`. -/
def execCtFind (s : State) : Result :=
  withType s fun t =>
    match findChunk s.cs t with
    | some c => deliverChunk c s
    | none => raise .chunkNotFound 0 s

/-- CT.COUNT (R210). -/
def execCtCount (s : State) : Result := succeed s.count [] s

/-- CT.GET (R209): unsigned comparison with the count, then a copy of that entry. -/
def execCtGet (index : Word) (s : State) : Result :=
  match s.cs[index.toNat]? with
  | some c => deliverChunk c s
  | none => raiseProtocol .range s

end Sys2Proof.Machine
end

