-- ==== Sys2Proof/Machine/CrcUnit.lean ====
section
/-! DEFINITION. The operations of U-CRC (41_crc32.md).  No other operation but reset touches `CRCACC` (R24). -/

namespace Sys2Proof.Machine

/-- CRC.INIT (R154). -/
def execCrcInit (s : State) : Result := succeed 0 [] { s with crcacc := crcInitial }

/-- CRC.UPD (R155). -/
def execCrcUpd (b : Byte) (s : State) : Result := succeed 0 [] { s with crcacc := crcUpd s.crcacc b }

/-- CRC.RD (R156): the running value stays un-inverted in `CRCACC`. -/
def execCrcRd (s : State) : Result := succeed (crcFinish s.crcacc) [] s

end Sys2Proof.Machine
end

