-- ==== Sys2Proof/Machine/SysUnit.lean ====
section
/-! DEFINITION. The system operation (44_system_and_host.md). -/

namespace Sys2Proof.Machine

/-- SYS.RESET (R230): identical to hardware reset; the response is `OK`. -/
def execSysReset (s : State) : Result := succeed 0 [] s.resetRegs

end Sys2Proof.Machine
end

