-- ==== Sys2Proof/Machine/TypeUnit.lean ====
section
/-! DEFINITION. The operations of U-TYPE (40_chunk_type.md). -/

namespace Sys2Proof.Machine

/-- TY.LDB (R127). -/
def execTyLdb (t : ChunkType) (s : State) : Result := loadType t s

/-- TY.LDT (R128): exactly four bytes, each a letter. -/
def execTyLdt (text : List Byte) (s : State) : Result :=
  match textType text with
  | some t => loadType t s
  | none => raise .invalidChunkType 0 s

/-- TY.RDB (R129), format R-TYPE. -/
def execTyRdb (s : State) : Result := withType s fun t => succeed t.toWord [] s

/-- TY.RDT (R130). -/
def execTyRdt (s : State) : Result := withType s fun t => succeed 0 t.bytes s

/-- TY.CRIT (R131). -/
def execTyCrit (s : State) : Result := readProperty critical s

/-- TY.PUB (R132). -/
def execTyPub (s : State) : Result := readProperty isPublic s

/-- TY.RSV (R133). -/
def execTyRsv (s : State) : Result := readProperty reservedBitValid s

/-- TY.SAFE (R134). -/
def execTySafe (s : State) : Result := readProperty safeToCopy s

/-- TY.WRT (R135). -/
def execTyWrt (s : State) : Result := readProperty safeToWrite s

end Sys2Proof.Machine
end

