-- ==== Sys2Proof/Machine/Dispatch.lean ====
section
/-! DEFINITION. Level T: one operation as one atomic function of the state (R14, R15), one arm for each operation. -/

namespace Sys2Proof.Machine

def exec (i : Instr) (s : State) : Host.Outcome State Fault Refusal :=
  match i with
  | .tyLdb t => Sys2Proof.Machine.execTyLdb t s
  | .tyLdt text => Sys2Proof.Machine.execTyLdt text s
  | .tyRdb => Sys2Proof.Machine.execTyRdb s
  | .tyRdt => Sys2Proof.Machine.execTyRdt s
  | .tyCrit => Sys2Proof.Machine.execTyCrit s
  | .tyPub => Sys2Proof.Machine.execTyPub s
  | .tyRsv => Sys2Proof.Machine.execTyRsv s
  | .tySafe => Sys2Proof.Machine.execTySafe s
  | .tyWrt => Sys2Proof.Machine.execTyWrt s
  | .crcInit => Sys2Proof.Machine.execCrcInit s
  | .crcUpd b => Sys2Proof.Machine.execCrcUpd b s
  | .crcRd => Sys2Proof.Machine.execCrcRd s
  | .chNew payload => Sys2Proof.Machine.execChNew payload s
  | .chParse frame => Sys2Proof.Machine.execChParse frame s
  | .chSer => Sys2Proof.Machine.execChSer s
  | .chLen => Sys2Proof.Machine.execChLen s
  | .chType => Sys2Proof.Machine.execChType s
  | .chData => Sys2Proof.Machine.execChData s
  | .chCrc => Sys2Proof.Machine.execChCrc s
  | .chText => Sys2Proof.Machine.execChText s
  | .ctParse file => Sys2Proof.Machine.execCtParse file s
  | .ctSer => Sys2Proof.Machine.execCtSer s
  | .ctAppend => Sys2Proof.Machine.execCtAppend s
  | .ctRemove => Sys2Proof.Machine.execCtRemove s
  | .ctFind => Sys2Proof.Machine.execCtFind s
  | .ctCount => Sys2Proof.Machine.execCtCount s
  | .ctGet index => Sys2Proof.Machine.execCtGet index s
  | .sysReset => Sys2Proof.Machine.execSysReset s

end Sys2Proof.Machine
end

