-- ==== Sys2Proof/Machine/Engine.lean ====
section
/-! DEFINITION. Level S, the byte-serial engine (45_byte_serial_engine.md): the start of each streaming operation, what
one input item or one emit step does, and completion.  A step that would read a register holding no value answers
`engineReadsNothing` (log 14). -/

namespace Sys2Proof.Machine

/-- At completion `PH` goes to IDLE and every engine register is dropped (R257). -/
def State.idle (s : State) : State := { s with eng := none }

/-! ### The parsers -/

/-- The start step of CH.PARSE and CT.PARSE (R251); `ACC` has no value yet. -/
def startParse (mode : Mode) : ParseRegs where
  mode := mode
  ph := match mode with
    | .chunk => .len
    | .cont => .sig
  bc := 0
  lenr := 0
  tyr := 0
  crcr := 0
  acc := none
  idx := 0
  ovf := false
  pend := none
  kept := none
  sd := []
  sh := []

/-- INFO of the three chunk errors: the frame's index in CONT mode, 0 in CHUNK mode. -/
def ParseRegs.frameInfo (r : ParseRegs) : Word :=
  match r.mode with
  | .chunk => 0
  | .cont => r.idx

/-- `fail(e)` while a byte is the current item: the response is decided and the rest of the input drains. -/
def ParseRegs.fail (r : ParseRegs) (code : Code) (info : Word) : ParseRegs :=
  { r with pend := some ⟨code, info⟩, ph := .drain }

/-- Shift a byte into a field register (R253, R254, R256): the top byte drops out. -/
def shiftIn (v : Word) (b : Byte) : Word := (v <<< 8) ||| b.setWidth 32

/-- Phase SIG on a byte (R252). -/
def takeSig (r : ParseRegs) (b : Byte) : Option ParseRegs :=
  match signature[r.bc.toNat]? with
  | none => none
  | some want =>
    if b ≠ want then some (r.fail .badSignature 0)
    else if r.bc + 1 = 8 then some { r with ph := .len, bc := 0, lenr := 0 }
    else some { r with bc := r.bc + 1 }

/-- Phase LEN on a byte (R253). -/
def takeLen (r : ParseRegs) (b : Byte) : ParseRegs :=
  if r.bc + 1 = 4 then { r with lenr := shiftIn r.lenr b, ph := .type, bc := 0, tyr := 0 }
  else { r with lenr := shiftIn r.lenr b, bc := r.bc + 1 }

/-- Phase TYPE on a byte (R254): validity is judged once, when all four bytes are in; then the CRC starts. -/
def takeType (cfg : Params) (r : ParseRegs) (b : Byte) : ParseRegs :=
  let tyr := shiftIn r.tyr b
  if r.bc + 1 = 4 then
    if !typeValid (.ofWord tyr) then { r with tyr := tyr, bc := r.bc + 1 }.fail .invalidChunkType r.frameInfo
    else
      { r with
        tyr := tyr
        acc := some (crcRun crcInitial (be32Bytes tyr))
        sd := []
        ovf := decide (cfg.maxPayload < r.lenr)
        bc := 0
        crcr := 0
        ph := if r.lenr = 0 then .crcf else .data }
  else { r with tyr := tyr, bc := r.bc + 1 }

/-- Phase DATA on a byte (R255): a byte past the capacity is counted and fed to the CRC, not stored. -/
def takeData (r : ParseRegs) (b : Byte) : ParseRegs :=
  let fed := { r with sd := if r.ovf then r.sd else r.sd ++ [b], acc := r.acc.map fun a => crcUpd a b }
  if r.bc + 1 = r.lenr then { fed with ph := .crcf, bc := 0, crcr := 0 } else { fed with bc := r.bc + 1 }

/-- A frame is complete and right (R256): staged and on to the next one in CONT mode, kept in CHUNK mode. -/
def acceptFrame (r : ParseRegs) : ParseRegs :=
  let c : Chunk := ⟨.ofWord r.tyr, r.lenr, r.sd, r.crcr⟩
  match r.mode with
  | .cont => { r with sh := r.sh ++ [c], idx := r.idx + 1, ph := .len, bc := 0, lenr := 0 }
  | .chunk => { r with pend := some ⟨.ok, 0⟩, kept := some c, ph := .drain }

/-- Phase CRCF on a byte (R256): compare, then the two capacity tests, then accept. -/
def takeCrcf (cfg : Params) (r : ParseRegs) (b : Byte) : Option ParseRegs :=
  let r' := { r with crcr := shiftIn r.crcr b, bc := r.bc + 1 }
  if r.bc + 1 = 4 then
    match r.acc with
    | none => none
    | some acc =>
      if r'.crcr ≠ crcFinish acc then some (r'.fail .crcMismatch r.frameInfo)
      else if r.ovf then some (r'.fail .protocol SubReason.cap.word)
      else if r.mode = .cont ∧ cfg.maxChunks.toNat ≤ r.sh.length then some (r'.fail .protocol SubReason.cap.word)
      else some (acceptFrame r')
  else some r'

/-- A parser takes one byte (R252 to R257); DRAIN discards it. -/
def ParseRegs.takeByte (cfg : Params) (r : ParseRegs) (b : Byte) : Option ParseRegs :=
  match r.ph with
  | .sig => takeSig r b
  | .len => some (takeLen r b)
  | .type => some (takeType cfg r b)
  | .data => some (takeData r b)
  | .crcf => takeCrcf cfg r b
  | .drain => some r

/-- The response a parser completes with when the item is EOS (R252 to R257). -/
def ParseRegs.takeEos (r : ParseRegs) : Option Pend :=
  match r.ph with
  | .sig => some ⟨.badSignature, 0⟩
  | .len => if r.mode = .cont ∧ r.bc = 0 then some ⟨.ok, 0⟩ else some ⟨.unexpectedEof, r.frameInfo⟩
  | .type => some ⟨.unexpectedEof, r.frameInfo⟩
  | .data => some ⟨.unexpectedEof, r.frameInfo⟩
  | .crcf => some ⟨.unexpectedEof, r.frameInfo⟩
  | .drain => r.pend

/-- Completion of a parser (R257): on `OK` the shadow store, or the kept chunk, becomes architectural. -/
def ParseRegs.complete (r : ParseRegs) (p : Pend) (s : State) : Result :=
  if p.code ≠ .ok then raise p.code p.info s.idle
  else
    match r.mode, r.kept with
    | .cont, _ => succeed 0 [] { s.idle with cs := r.sh }
    | .chunk, some c => succeed 0 [] { s.idle with ch := some c }
    | .chunk, none => .fault .engineReadsNothing

/-! ### CH.NEW -/

/-- The start step of CH.NEW (R258).  Without a type R258 writes `PEND` and `PH` alone, and with one it does not name
`PEND`: that `BC`, `ACC`, `OVF` and `SD` are then 0, 0, clear and empty, and `PEND` then none, is a DESIGN CHOICE of
the model (log 23); none of them is read there. -/
def startBuild (s : State) : BuildRegs :=
  match s.ty with
  | none => ⟨.drain, 0, 0, false, some ⟨.protocol, SubReason.empty.word⟩, []⟩
  | some t => ⟨.data, 0, crcRun crcInitial t.bytes, false, none, []⟩

/-- CH.NEW takes one byte (R258): one that does not fit only sets `OVF`. -/
def BuildRegs.takeByte (cfg : Params) (r : BuildRegs) (b : Byte) : BuildRegs :=
  match r.ph with
  | .data =>
    if cfg.maxPayload ≤ r.bc then { r with ovf := true }
    else { r with sd := r.sd ++ [b], acc := crcUpd r.acc b, bc := r.bc + 1 }
  | .sig | .len | .type | .crcf | .drain => r

/-- CH.NEW completes (R258): the length is the count at EOS. -/
def BuildRegs.complete (r : BuildRegs) (s : State) : Result :=
  match r.ph with
  | .data =>
    if r.ovf then raiseProtocol .cap s.idle
    else
      match s.ty with
      | none => .fault .engineReadsNothing
      | some t => succeed 0 [] { s.idle with ch := some ⟨t, r.bc, r.sd, crcFinish r.acc⟩ }
  | .sig | .len | .type | .crcf | .drain =>
    match r.pend with
    | none => .fault .engineReadsNothing
    | some p => raise p.code p.info s.idle

/-! ### TY.LDT -/

/-- TY.LDT takes one byte (R261; log 19): the first four are kept, the count saturates at 5. -/
def TextRegs.takeByte (r : TextRegs) (b : Byte) : TextRegs :=
  if r.bc < 4 then ⟨r.bc + 1, shiftIn r.tyr b⟩ else { r with bc := 5 }

/-- TY.LDT completes (R261). -/
def TextRegs.complete (r : TextRegs) (s : State) : Result :=
  if r.bc = 4 then loadType (.ofWord r.tyr) s.idle else raise .invalidChunkType 0 s.idle

/-! ### The serializers -/

/-- The first phase of an emitting operation (R259; logs 19 and 24). -/
def EmitJob.firstPhase : EmitJob → Phase
  | .ctSer => .sig
  | .chSer => .len
  | .tyRdt => .type
  | .chData => .data
  | .chText => .data

/-- The response an emitting operation will complete with, decided at its start step (R259): `P_EMPTY` without its
operand, and CH.TEXT evaluates UTF8_VALID here. -/
def EmitJob.verdict (s : State) : EmitJob → Pend
  | .ctSer => ⟨.ok, 0⟩
  | .tyRdt => if s.ty.isSome then ⟨.ok, 0⟩ else ⟨.protocol, SubReason.empty.word⟩
  | .chSer | .chData => if s.ch.isSome then ⟨.ok, 0⟩ else ⟨.protocol, SubReason.empty.word⟩
  | .chText =>
    match s.ch with
    | none => ⟨.protocol, SubReason.empty.word⟩
    | some c => if utf8Valid s.cfg.utf8 c.data then ⟨.ok, 0⟩ else ⟨.invalidUtf8, 0⟩

/-- The start step of an emitting operation (R259).  `IDX` = 0 for all five, the first phase where nothing will be
emitted, and `PEND` from here on are a DESIGN CHOICE of the model (log 24): R259 names none of them. -/
def startEmit (job : EmitJob) (s : State) : EmitRegs :=
  ⟨job, job.firstPhase, 0, 0, job.verdict s, []⟩

/-- Frame `IDX` of what is being serialized: the one of `CH`, or that of `CS.c[IDX]` (R259). -/
def EmitRegs.frame (r : EmitRegs) (s : State) : Option Chunk :=
  match r.job with
  | .ctSer => s.cs[r.idx.toNat]?
  | .chSer | .tyRdt | .chData | .chText => if r.idx = 0 then s.ch else none

/-- What the output stream carries next. -/
inductive OutItem where
  | byte (b : Byte) (r : EmitRegs)
  | eos
  | absent

/-- Emit byte `BC` of a field; after its last byte go to `next`, else count on. -/
def emitField (r : EmitRegs) (field : List Byte) (last : Word) (next : EmitRegs) : OutItem :=
  match field[r.bc.toNat]? with
  | none => .absent
  | some b => .byte b (if r.bc = last then next else { r with bc := r.bc + 1 })

/-- The next item of a serialized frame (R259): four fields in order, DATA skipped when the length is 0; EOS where a
frame would begin and there is none.  That `PH` is LEN and `IDX` the number of frames between the last CRC byte and
EOS is a DESIGN CHOICE of the model (log 24). -/
def emitFrame (r : EmitRegs) (s : State) : OutItem :=
  match r.ph, r.frame s with
  | .sig, _ => emitField r signature 7 { r with ph := .len, bc := 0 }
  | .len, none => if r.bc = 0 then .eos else .absent
  | .len, some c => emitField r (be32Bytes c.len) 3 { r with ph := .type, bc := 0 }
  | .type, some c => emitField r c.type.bytes 3 { r with ph := if c.len = 0 then .crcf else .data, bc := 0 }
  | .data, some c => emitField r c.data (c.len - 1) { r with ph := .crcf, bc := 0 }
  | .crcf, some c => emitField r (be32Bytes c.crc) 3 { r with ph := .len, bc := 0, idx := r.idx + 1 }
  | .type, none | .data, none | .crcf, none | .drain, _ => .absent

/-- The next item of an operation that emits `len` bytes of one field and ends (R259). -/
def emitBytes (r : EmitRegs) (field : List Byte) (len : Word) : OutItem :=
  if r.bc = len then .eos
  else
    match field[r.bc.toNat]? with
    | none => .absent
    | some b => .byte b { r with bc := r.bc + 1 }

/-- The next item of the output stream (R259). -/
def EmitRegs.next (r : EmitRegs) (s : State) : OutItem :=
  match r.job with
  | .ctSer | .chSer => emitFrame r s
  | .tyRdt =>
    match s.ty with
    | none => .absent
    | some t => emitBytes r t.bytes 4
  | .chData | .chText =>
    match s.ch with
    | none => .absent
    | some c => emitBytes r c.data c.len

/-- One emit step (R250, R259): a byte is staged; EOS is the completion and releases the staged bytes (D32). -/
def EmitRegs.emitStep (r : EmitRegs) (s : State) : Result :=
  if r.pend.code ≠ .ok then raise r.pend.code r.pend.info s.idle
  else
    match r.next s with
    | .byte b r' => .next { s with eng := some (.emit { r' with staged := r.staged ++ [b] }) }
    | .eos => succeed 0 r.staged s.idle
    | .absent => .fault .engineReadsNothing

/-! ### One item -/

/-- The engine takes a byte from the input stream (R250). -/
def Engine.takeByte (e : Engine) (b : Byte) (s : State) : Result :=
  match e with
  | .parse r =>
    match r.takeByte s.cfg b with
    | some r' => .next { s with eng := some (.parse r') }
    | none => .fault .engineReadsNothing
  | .build r => .next { s with eng := some (.build (r.takeByte s.cfg b)) }
  | .text r => .next { s with eng := some (.text (r.takeByte b)) }
  | .emit r => r.emitStep s

/-- The engine takes the EOS item, which is the completion (R250, R257, R258, R261). -/
def Engine.takeEos (e : Engine) (s : State) : Result :=
  match e with
  | .parse r =>
    match r.takeEos with
    | some p => r.complete p s
    | none => .fault .engineReadsNothing
  | .build r => r.complete s
  | .text r => r.complete s
  | .emit r => r.emitStep s

end Sys2Proof.Machine
end

