-- ==== Sys2Proof/Machine/Port.lean ====
section
/-! DEFINITION. The command and stream port: the block serves what the host has lined up, one event a step (R231,
R250; log 3). -/

namespace Sys2Proof.Machine

/-- One whole operation at Level T (R14); a reserved code answers `P_ILLEGAL` and its stream is discarded (R83). -/
def runRequest (r : Request) (s : State) : Result :=
  match decode r with
  | .ok i => exec i s
  | .error (.reservedCode _) => raiseProtocol .illegal s

/-- The start step of an operation at Level S (R250, R251, R258, R259).  Every operation that moves no stream is one
single step, its Level T rule executed at once (R261). -/
def startOp (i : Instr) (s : State) : Result :=
  match i with
  | .tyLdt _ => .next { s with eng := some (.text ⟨0, 0⟩) }
  | .chNew _ => .next { s with eng := some (.build (startBuild s)) }
  | .chParse _ => .next { s with eng := some (.parse (startParse .chunk)) }
  | .ctParse _ => .next { s with eng := some (.parse (startParse .cont)) }
  | .tyRdt => .next { s with eng := some (.emit (startEmit .tyRdt s)) }
  | .chSer => .next { s with eng := some (.emit (startEmit .chSer s)) }
  | .chData => .next { s with eng := some (.emit (startEmit .chData s)) }
  | .chText => .next { s with eng := some (.emit (startEmit .chText s)) }
  | .ctSer => .next { s with eng := some (.emit (startEmit .ctSer s)) }
  | .tyLdb t => exec (.tyLdb t) s
  | .tyRdb => exec .tyRdb s
  | .tyCrit => exec .tyCrit s
  | .tyPub => exec .tyPub s
  | .tyRsv => exec .tyRsv s
  | .tySafe => exec .tySafe s
  | .tyWrt => exec .tyWrt s
  | .crcInit => exec .crcInit s
  | .crcUpd b => exec (.crcUpd b) s
  | .crcRd => exec .crcRd s
  | .chLen => exec .chLen s
  | .chType => exec .chType s
  | .chCrc => exec .chCrc s
  | .ctAppend => exec .ctAppend s
  | .ctRemove => exec .ctRemove s
  | .ctFind => exec .ctFind s
  | .ctCount => exec .ctCount s
  | .ctGet index => exec (.ctGet index) s
  | .sysReset => exec .sysReset s

/-- The start step for a command as it arrives (R261: a reserved command is a single step). -/
def startCommand (cmd : Byte) (arg : Word) (s : State) : Result :=
  match decode ⟨cmd, arg, []⟩ with
  | .ok i => startOp i s
  | .error (.reservedCode _) => raiseProtocol .illegal s

/-- The block with no operation in progress: it waits (R302; log 12), serves an operation, or discards a stream item that
belongs to no operation (R51, R83; log 11).  A hardware reset is served in any state. -/
def serveIdle (s : State) : Result :=
  match s.host with
  | [] => .next s
  | .reset :: rest => .next { s.resetRegs with host := rest }
  | .op r :: rest => runRequest r { s with host := rest }
  | .start cmd arg :: rest => startCommand cmd arg { s with host := rest }
  | .byte _ :: rest => .next { s with host := rest }
  | .eos :: rest => .next { s with host := rest }

/-- The block while an operation takes its input: the next item, or a host that keeps to no protocol (R324; log 10). -/
def serveInput (e : Engine) (s : State) : Result :=
  match s.host with
  | [] => .fault .inputStalled
  | .reset :: rest => .next { s.resetRegs with host := rest }
  | .op _ :: _ => .fault .overlappingOperation
  | .start _ _ :: _ => .fault .overlappingOperation
  | .byte b :: rest => e.takeByte b { s with host := rest }
  | .eos :: rest => e.takeEos { s with host := rest }

/-- The block while an operation emits its output: one item a step, unless the next thing is a hardware reset
(R259, R320; log 13).  What else the host has lined up waits for the response. -/
def serveOutput (r : EmitRegs) (s : State) : Result :=
  match s.host with
  | .reset :: rest => .next { s.resetRegs with host := rest }
  | [] | .op _ :: _ | .start _ _ :: _ | .byte _ :: _ | .eos :: _ => r.emitStep s

/-- One step of the block. -/
def serve (s : State) : Result :=
  match s.eng with
  | none => serveIdle s
  | some (.emit r) => serveOutput r s
  | some (.parse r) => serveInput (.parse r) s
  | some (.build r) => serveInput (.build r) s
  | some (.text r) => serveInput (.text r) s

/-- The state with one more operation lined up as the very next thing the block serves (log 3). -/
def lineUp (r : Request) (s : State) : State := { s with eng := none, host := .op r :: s.host }

/-- An operation as the items a host sends at Level S (R250): the command, then for an operation that takes a stream
its bytes and EOS. -/
def wireForm (r : Request) : List HostEvent :=
  .start r.cmd r.arg :: (if inputCodes.contains r.cmd then r.input.map .byte ++ [.eos] else [])

end Sys2Proof.Machine
end

