-- ==== Sys2Proof/Machine/Step.lean ====
section
/-! DEFINITION. The step of the machine, and where the next instruction is placed for it. -/

namespace Sys2Proof.Machine

/-- One step (R14, R250, R320): see `serve`.  A step is an event, not a cycle (R330; log 20). -/
def step (s : State) : Host.Outcome State Fault Refusal := serve s

/-- The state whose very next step runs the instruction numbered `w` in `nbits` bits: its request stands first in what
the host has lined up, and no operation is in progress (logs 3 and 16). -/
def State.withFetchWord (s : State) (nbits w : Nat) : State := lineUp (tableRequest nbits w) s

end Sys2Proof.Machine
end

