-- ==== Sys2Proof/Machine/HostSequences.lean ====
section
/-! DEFINITION. The host's four sequences over the operations (44_system_and_host.md R234 to R237).  They are not
operations of the block (R4); they are given so that end-to-end statements can be made (log 18). -/

namespace Sys2Proof.Machine

/-- What a sequence ends with: `wrote` is the file the host writes, `text` what DECODE emits, `listed` the packed type
texts PRINT emits, `criticalRefused` ENCODE's refusal, `failed` any other stop with the response that caused it. -/
inductive HostReport where
  | wrote (file : List Byte)
  | text (bytes : List Byte)
  | listed (types : List Word)
  | criticalRefused
  | failed (code : Code) (info : Word)
deriving DecidableEq, Repr

/-- The outcome of a sequence: the block's state after it and the host's report. -/
abbrev SequenceResult := Host.Outcome (State × HostReport) Fault Refusal

/-- Issue one operation and go on if it answers `OK`; else stop and report. -/
def issue (i : Instr) (s : State) (go : State → SequenceResult) : SequenceResult :=
  match exec i s with
  | .next t => if t.code = .ok then go t else .next (t, .failed t.code t.info)
  | .fault f => .fault f
  | .refused r => .refused r

/-- ENCODE (R234); line 3, the eligibility check, is mandatory (90_conflicts.md C1). -/
def hostEncode (file typeText message : List Byte) (s : State) : SequenceResult :=
  issue (.ctParse file) s fun s1 => issue (.tyLdt typeText) s1 fun s2 => issue .tyWrt s2 fun s3 =>
    if s3.res = 0 then .next (s3, .criticalRefused)
    else issue (.chNew message) s3 fun s4 => issue .ctAppend s4 fun s5 => issue .ctSer s5 fun s6 =>
      .next (s6, .wrote s6.out)

/-- DECODE (R235). -/
def hostDecode (file typeText : List Byte) (s : State) : SequenceResult :=
  issue (.ctParse file) s fun s1 => issue (.tyLdt typeText) s1 fun s2 => issue .ctFind s2 fun s3 =>
    issue .chText s3 fun s4 => .next (s4, .text s4.out)

/-- REMOVE (R236). -/
def hostRemove (file typeText : List Byte) (s : State) : SequenceResult :=
  issue (.ctParse file) s fun s1 => issue (.tyLdt typeText) s1 fun s2 => issue .ctRemove s2 fun s3 =>
    issue .ctSer s3 fun s4 => .next (s4, .wrote s4.out)

/-- The packed type of an IEND chunk (R237). -/
def iendWord : Word := 0x49454E44#32

/-- Line 3 of PRINT (R237): the packed types of entries `i` to `i + n - 1`, in order. -/
def readTypes : Nat → Word → State → (State → List Word → SequenceResult) → SequenceResult
  | 0, _, s, go => go s []
  | n + 1, i, s, go =>
    issue (.ctGet i) s fun s1 => issue .chType s1 fun s2 => issue .tyRdb s2 fun s3 =>
      readTypes n (i + 1) s3 fun t types => go t (s3.res :: types)

/-- Line 4 of PRINT (R237): with exactly one IEND the types after it, else the open parameter PRINT_SPLIT (R9). -/
def printList (types : List Word) : List Word :=
  if types.count iendWord = 1 then (types.dropWhile (· ≠ iendWord)).tail else Config.printSplit types

/-- PRINT (R237). -/
def hostPrint (file : List Byte) (s : State) : SequenceResult :=
  issue (.ctParse file) s fun s1 => issue .ctCount s1 fun s2 =>
    readTypes s2.res.toNat 0 s2 fun t types => .next (t, .listed (printList types))

end Sys2Proof.Machine
end

