-- ==== Sys2Proof/Safety.lean ====
section
/-! DEFINITION. What a good state is: the spec's invariants I-TY (R21), I-CH (R22) and I-CS (R23), the shape of a
response (R26, R27, R52), what an engine in progress holds (R252 to R259), and what a host that keeps to the protocol
lines up (R231, R324). -/

namespace Sys2Proof.Machine

/-- A byte is an ASCII letter, by the numeric ranges of R120. -/
abbrev LetterByte (b : Byte) : Prop :=
  (0x41 ≤ b.toNat ∧ b.toNat ≤ 0x5A) ∨ (0x61 ≤ b.toNat ∧ b.toNat ≤ 0x7A)

/-- Four ASCII letters (R121). -/
abbrev AllLetters (t : ChunkType) : Prop :=
  LetterByte t.b0 ∧ LetterByte t.b1 ∧ LetterByte t.b2 ∧ LetterByte t.b3

/-- Invariant I-CH (R22). -/
abbrev Chunk.Ok (cfg : Params) (c : Chunk) : Prop :=
  typeValid c.type = true ∧ c.data.length = c.len.toNat ∧ c.len.toNat ≤ cfg.maxPayload.toNat ∧
    c.crc = crc32 (c.type.bytes ++ c.data)

/-- Invariant I-CS (R23): every entry is a chunk, and there are at most `MAX_CHUNKS`. -/
abbrev StoreOk (cfg : Params) (cs : List Chunk) : Prop :=
  (∀ c ∈ cs, c.Ok cfg) ∧ cs.length ≤ cfg.maxChunks.toNat

/-- Invariant I-TY (R21). -/
def TypeRegOk (ty : Option ChunkType) : Prop := ∀ t, ty = some t → typeValid t = true

/-- Invariant I-CH of the chunk register (R22). -/
def ChunkRegOk (cfg : Params) (ch : Option Chunk) : Prop := ∀ c, ch = some c → c.Ok cfg

/-- The last response: INFO is 0 after `OK`, RES is 0 and `out` empty after anything else (R26, R27, R52), and a
`Protocol` response carries a sub-reason 1 to 4 (R292). -/
abbrev ResponseOk (s : State) : Prop :=
  (s.code = .ok → s.info = 0) ∧ (s.code ≠ .ok → s.res = 0 ∧ s.out = []) ∧
    (s.code = .protocol → s.info = 1 ∨ s.info = 2 ∨ s.info = 3 ∨ s.info = 4)

/-- A decided error response (R290, R292). -/
abbrev Pend.IsError (p : Pend) : Prop :=
  p.code ≠ .ok ∧ (p.code = .protocol → p.info = 1 ∨ p.info = 2 ∨ p.info = 3 ∨ p.info = 4)

/-- What the parsers hold in the middle of a payload of which `n` bytes were taken (R254, R255). -/
def ParseRegs.PayloadOk (cfg : Params) (r : ParseRegs) (n : Nat) : Prop :=
  typeValid (.ofWord r.tyr) = true ∧ r.ovf = decide (cfg.maxPayload < r.lenr) ∧
    ∃ acc, r.acc = some acc ∧
      (r.ovf = false → r.sd.length = n ∧ acc = crcRun crcInitial ((ChunkType.ofWord r.tyr).bytes ++ r.sd))

/-- What each phase of a parser holds (R252 to R257). -/
def ParseRegs.PhaseOk (cfg : Params) (r : ParseRegs) : Prop :=
  match r.ph with
  | .sig => r.mode = .cont ∧ r.bc < 8
  | .len => r.bc < 4
  | .type => r.bc < 4
  | .data => r.bc < r.lenr ∧ r.PayloadOk cfg r.bc.toNat
  | .crcf => r.bc < 4 ∧ r.PayloadOk cfg r.lenr.toNat
  | .drain => ∃ p, r.pend = some p ∧
      (p.IsError ∨ p = ⟨.ok, 0⟩ ∧ r.mode = .chunk ∧ ∃ c, r.kept = some c ∧ c.Ok cfg)

/-- What a parser in progress holds: the shadow store is a legal container as long as `IDX` (R256). -/
def ParseRegs.Ok (cfg : Params) (r : ParseRegs) : Prop :=
  StoreOk cfg r.sh ∧ r.idx.toNat = r.sh.length ∧ r.PhaseOk cfg

/-- What CH.NEW in progress holds (R258). -/
def BuildRegs.Ok (cfg : Params) (ty : Option ChunkType) (r : BuildRegs) : Prop :=
  (r.ph = .data ∧ ∃ t, ty = some t ∧ r.sd.length = r.bc.toNat ∧ r.bc ≤ cfg.maxPayload ∧
      r.acc = crcRun crcInitial (t.bytes ++ r.sd)) ∨
    (r.ph = .drain ∧ ∃ p, r.pend = some p ∧ p.IsError)

/-- What a serializer holds: its counters point at a byte that is there, or, in phase LEN with
`BC` = 0, past the last frame (R259; log 24). -/
def EmitRegs.PhaseOk (s : State) (r : EmitRegs) : Prop :=
  match r.job with
  | .ctSer | .chSer =>
    match r.ph with
    | .sig => r.bc < 8
    | .len => r.bc < 4 ∧ (r.bc = 0 ∨ (r.frame s).isSome)
    | .type => r.bc < 4 ∧ (r.frame s).isSome
    | .data => ∃ c, r.frame s = some c ∧ r.bc < c.len
    | .crcf => r.bc < 4 ∧ (r.frame s).isSome
    | .drain => False
  | .tyRdt => s.ty.isSome ∧ r.bc ≤ 4
  | .chData | .chText => ∃ c, s.ch = some c ∧ r.bc ≤ c.len

/-- What an emitting operation holds: an error response, or `OK` with its counters in range (R259). -/
def EmitRegs.Ok (s : State) (r : EmitRegs) : Prop :=
  r.pend.IsError ∨ r.pend = ⟨.ok, 0⟩ ∧ r.PhaseOk s

/-- What the engine holds; nothing while idle (R31). -/
def EngineOk (s : State) : Prop :=
  match s.eng with
  | none => True
  | some (.parse r) => r.Ok s.cfg
  | some (.build r) => r.Ok s.cfg s.ty
  | some (.text r) => r.bc ≤ 5
  | some (.emit r) => r.Ok s

/-- The state invariant of the block. -/
structure State.Inv (s : State) : Prop where
  type : TypeRegOk s.ty
  chunk : ChunkRegOk s.cfg s.ch
  store : StoreOk s.cfg s.cs
  response : ResponseOk s
  engine : EngineOk s

/-- An operation is taking its input stream. -/
def State.awaiting (s : State) : Bool :=
  match s.eng with
  | some (.parse _) | some (.build _) | some (.text _) => true
  | some (.emit _) | none => false

/-- A host that keeps to R231 and R324: it issues nothing while an operation takes its input, and completes every
input it begins.  `open_` says that an input is open. -/
def hostKeepsProtocol : Bool → List HostEvent → Bool
  | open_, [] => !open_
  | _, .reset :: rest => hostKeepsProtocol false rest
  | open_, .byte _ :: rest => hostKeepsProtocol open_ rest
  | _, .eos :: rest => hostKeepsProtocol false rest
  | open_, .op _ :: rest => !open_ && hostKeepsProtocol false rest
  | open_, .start cmd _ :: rest => !open_ && hostKeepsProtocol (inputCodes.contains cmd) rest

/-- A safe state: the invariant holds and the host keeps to the protocol.  A step from one answers a next state. -/
def State.Safe (s : State) : Prop := s.Inv ∧ hostKeepsProtocol s.awaiting s.host = true

end Sys2Proof.Machine
end

