-- ==== Sys2Proof/Certificates/Slice0/Obligations.lean ====
section
/-! DEFINITION. The statements about the block, one definition each, rule by rule: encodings, the units' operations,
errors, state and reset, the byte-serial engine, the host's sequences.  `s.answer code info res out` is `s` with the
four response fields replaced and nothing else. -/

open Sys2Proof Sys2Proof.Machine

/-! ### Commands and their encodings -/

/-- R80, R82, R84: the decoder and the encoder are inverse to each other, between all 28 instructions with all their
operands and all well-formed requests.  Which requests are called well-formed (`Request.wf`) is the model's choice
(log 22): no rule calls a request with ignored argument bits set, or with a stray stream, ill-formed. -/
def Obligations.DecodeAndEncodeAreInverse : Prop :=
  (∀ i : Instr, decode (encode i) = .ok i ∧ (encode i).wf = true) ∧
    ∀ r : Request, r.wf = true → ∃ i, decode r = .ok i ∧ encode i = r

/-- R84: the three argument formats, and that no other bit of `arg` (and, R51, no stream of an operation that takes
none) decides which instruction a request is. -/
def Obligations.ArgumentWordFormats : Prop :=
  (∀ b0 b1 b2 b3 input, decode ⟨0x00, be32 b0 b1 b2 b3, input⟩ = .ok (.tyLdb ⟨b0, b1, b2, b3⟩)) ∧
    (∀ (arg : Word) input, decode ⟨0x11, arg, input⟩ = .ok (.crcUpd (arg.extractLsb' 0 8))) ∧
    (∀ arg input, decode ⟨0x36, arg, input⟩ = .ok (.ctGet arg)) ∧
    ∀ (cmd : Byte) (arg arg' : Word) (input input' : List Byte), cmd ≠ 0x00 → cmd ≠ 0x36 →
      (cmd = 0x11 → arg.extractLsb' 0 8 = arg'.extractLsb' 0 8) →
      (cmd = 0x01 ∨ cmd = 0x20 ∨ cmd = 0x21 ∨ cmd = 0x30 → input = input') →
      decode ⟨cmd, arg, input⟩ = decode ⟨cmd, arg', input'⟩

/-- R83: each of the 228 reserved codes gives `Protocol`/`P_ILLEGAL` and no other state change, issued whole or begun
at Level S. -/
def Obligations.ReservedCodesAnswerIllegal : Prop :=
  ∀ (cmd : Byte) (arg : Word) (input : List Byte) (rest : List HostEvent) (s : State),
    (0x09 ≤ cmd.toNat ∧ cmd.toNat ≤ 0x0F ∨ 0x13 ≤ cmd.toNat ∧ cmd.toNat ≤ 0x1F ∨ 0x28 ≤ cmd.toNat ∧ cmd.toNat ≤ 0x2F ∨
      0x37 ≤ cmd.toNat ∧ cmd.toNat ≤ 0x6F ∨ 0x71 ≤ cmd.toNat) → s.eng = none →
    (s.host = .op ⟨cmd, arg, input⟩ :: rest ∨ s.host = .start cmd arg :: rest) →
    step s = .next ({ s with host := rest }.answer .protocol 1 0 [])

/-- R14, R62: a step with an operation at the head of what the host has lined up is `exec` of the instruction decoded,
on the state without that event. -/
def Obligations.StepRunsTheDecodedInstruction : Prop :=
  ∀ (s : State) (r : Request) (rest : List HostEvent) (i : Instr),
    s.eng = none → s.host = .op r :: rest → decode r = .ok i → step s = exec i { s with host := rest }

/-- R82: one word of each unit, written out in bits from its fields UNIT and FUNC. -/
def Obligations.CommandWordsDecode : Prop :=
  decode ⟨0b00000000#8, 0x52755374#32, []⟩ = .ok (.tyLdb ⟨0x52, 0x75, 0x53, 0x74⟩) ∧
    decode ⟨0b00010001#8, 0x12345649#32, []⟩ = .ok (.crcUpd 0x49) ∧
    decode ⟨0b00100001#8, 0, [0x00]⟩ = .ok (.chParse [0x00]) ∧
    decode ⟨0b00110110#8, 3, []⟩ = .ok (.ctGet 3) ∧
    decode ⟨0b01110000#8, 0, []⟩ = .ok .sysReset ∧
    decode ⟨0b00001001#8, 0, []⟩ = .error (.reservedCode 0x09)

/-! ### U-TYPE -/

/-- R127: TY.LDB loads the four bytes of `arg` iff all are letters, and otherwise leaves `TY` as it was. -/
def Obligations.LoadTypeFromBytes : Prop :=
  (∀ (arg : Word) (input : List Byte), decode ⟨0x00, arg, input⟩ = .ok (.tyLdb
      ⟨arg.extractLsb' 24 8, arg.extractLsb' 16 8, arg.extractLsb' 8 8, arg.extractLsb' 0 8⟩)) ∧
    ∀ (t : ChunkType) (s : State),
      (AllLetters t → exec (.tyLdb t) s = .next ({ s with ty := some t }.answer .ok 0 0 [])) ∧
      (¬ AllLetters t → exec (.tyLdb t) s = .next (s.answer .invalidChunkType 0 0 []))

/-- R128: TY.LDT loads a text iff it is exactly four letter bytes, with the result TY.LDB has. -/
def Obligations.LoadTypeFromText : Prop :=
  (∀ (arg : Word) (input : List Byte), decode ⟨0x01, arg, input⟩ = .ok (.tyLdt input)) ∧
    ∀ s : State,
      (∀ t : ChunkType, AllLetters t →
        exec (.tyLdt t.bytes) s = .next ({ s with ty := some t }.answer .ok 0 0 [])) ∧
      (∀ text : List Byte, (¬ ∃ t : ChunkType, text = t.bytes ∧ AllLetters t) →
        exec (.tyLdt text) s = .next (s.answer .invalidChunkType 0 0 [])) ∧
      ∀ t : ChunkType, exec (.tyLdt t.bytes) s = exec (.tyLdb t) s

/-- R129, R130: the loaded type is read back as a packed word and as four characters; without one, `P_EMPTY`. -/
def Obligations.ReadTypeBack : Prop :=
  (∀ arg input, decode ⟨0x02, arg, input⟩ = .ok .tyRdb ∧ decode ⟨0x03, arg, input⟩ = .ok .tyRdt) ∧
    ∀ s : State,
      (∀ t, s.ty = some t →
        exec .tyRdb s = .next (s.answer .ok 0 (be32 t.b0 t.b1 t.b2 t.b3) []) ∧
          exec .tyRdt s = .next (s.answer .ok 0 0 [t.b0, t.b1, t.b2, t.b3])) ∧
      (s.ty = none → exec .tyRdb s = .next (s.answer .protocol 2 0 []) ∧
        exec .tyRdt s = .next (s.answer .protocol 2 0 []))

/-- R131 to R135: each property read returns its bit 5 as 1 or 0 and changes nothing; without a type, `P_EMPTY`. -/
def Obligations.PropertyReadsAreCaseBits : Prop :=
  (∀ arg input, decode ⟨0x04, arg, input⟩ = .ok .tyCrit ∧ decode ⟨0x05, arg, input⟩ = .ok .tyPub ∧
      decode ⟨0x06, arg, input⟩ = .ok .tyRsv ∧ decode ⟨0x07, arg, input⟩ = .ok .tySafe ∧
      decode ⟨0x08, arg, input⟩ = .ok .tyWrt) ∧
    ∀ s : State,
      (∀ t, s.ty = some t →
        exec .tyCrit s = .next (s.answer .ok 0 (if t.b0.getLsbD 5 = false then 1 else 0) []) ∧
        exec .tyPub s = .next (s.answer .ok 0 (if t.b1.getLsbD 5 = false then 1 else 0) []) ∧
        exec .tyRsv s = .next (s.answer .ok 0 (if t.b2.getLsbD 5 = false then 1 else 0) []) ∧
        exec .tySafe s = .next (s.answer .ok 0 (if t.b3.getLsbD 5 = true then 1 else 0) []) ∧
        exec .tyWrt s = .next (s.answer .ok 0 (if t.b0.getLsbD 5 = true then 1 else 0) [])) ∧
      (s.ty = none → ∀ i, i = .tyCrit ∨ i = .tyPub ∨ i = .tyRsv ∨ i = .tySafe ∨ i = .tyWrt →
        exec i s = .next (s.answer .protocol 2 0 []))

/-- R136 (c), R130: whatever type is loaded by an operation, the text read back loads again and changes nothing but the
response; the premise is invariant I-TY. -/
def Obligations.TypeTextRoundTrip : Prop :=
  ∀ s t : State, TypeRegOk s.ty → s.ty ≠ none → exec .tyRdt s = .next t →
    exec (.tyLdt t.out) t = .next (s.answer .ok 0 0 [])

/-! ### U-CRC -/

/-- R154, R155, R156: the three CRC operations, and that a reader leaves the running value un-inverted. -/
def Obligations.CrcOperations : Prop :=
  (∀ arg input, decode ⟨0x10, arg, input⟩ = .ok .crcInit ∧ decode ⟨0x12, arg, input⟩ = .ok .crcRd) ∧
    (∀ (arg : Word) (input : List Byte), decode ⟨0x11, arg, input⟩ = .ok (.crcUpd (arg.extractLsb' 0 8))) ∧
    ∀ s : State,
      exec .crcInit s = .next ({ s with crcacc := 0xFFFFFFFF }.answer .ok 0 0 []) ∧
      (∀ b, exec (.crcUpd b) s = .next ({ s with crcacc := crcUpd s.crcacc b }.answer .ok 0 0 [])) ∧
      exec .crcRd s = .next (s.answer .ok 0 (s.crcacc ^^^ 0xFFFFFFFF) [])

/-- R151: the table form of the update, for every accumulator and byte, and the six table entries of the rule. -/
def Obligations.CrcUpdateTableForm : Prop :=
  (∀ (acc : Word) (b : Byte),
      crcUpd acc b = crcUpd 0 ((acc ^^^ b.setWidth 32).setWidth 8) ^^^ (acc >>> 8)) ∧
    crcUpd 0 0x00 = 0x00000000 ∧ crcUpd 0 0x01 = 0x77073096 ∧ crcUpd 0 0x02 = 0xEE0E612C ∧
    crcUpd 0 0x03 = 0x990951BA ∧ crcUpd 0 0x80 = 0xEDB88320 ∧ crcUpd 0 0xFF = 0x2D02EF8D

/-- R153: (a) incremental, (b) the update is linear in (accumulator, byte) and a bijection of the accumulator,
(c) affine, (d) a single flipped bit changes the checksum. -/
def Obligations.CrcArithmeticLaws : Prop :=
  (∀ acc s1 s2, crcRun acc (s1 ++ s2) = crcRun (crcRun acc s1) s2) ∧
    (∀ b, Function.Bijective fun acc => crcUpd acc b) ∧
    (∀ a a' b b', crcUpd (a ^^^ a') (b ^^^ b') = crcUpd a b ^^^ crcUpd a' b') ∧
    (∀ x y z : List Byte, x.length = y.length → y.length = z.length →
      crc32 x ^^^ crc32 y ^^^ crc32 z = crc32 (List.zipWith (· ^^^ ·) (List.zipWith (· ^^^ ·) x y) z)) ∧
    ∀ (p q : List Byte) (b : Byte) (j : Nat), j < 8 →
      crc32 (p ++ (b ^^^ (1#8 <<< j)) :: q) ≠ crc32 (p ++ b :: q)

/-- R156: after CRC.INIT and one CRC.UPD for each byte of `bytes`, as many steps as bytes and two more, CRC.RD answers
`crc32(bytes)`. -/
def Obligations.CrcOperationsComputeCrc32 : Prop :=
  ∀ (s : State) (bytes : List Byte) (rest : List HostEvent), s.eng = none →
    s.host = .op (encode .crcInit) :: (bytes.map fun b => .op (encode (.crcUpd b))) ++ .op (encode .crcRd) :: rest →
    Host.Core.run core (bytes.length + 2) s =
      .next ({ s with crcacc := crcRun 0xFFFFFFFF bytes, host := rest }.answer .ok 0 (crc32 bytes) [])

/-- R24: no operation of another unit but reset reads or writes `CRCACC`: with another value in it the operation does
the same and leaves that value. -/
def Obligations.OtherUnitsIgnoreCrcAcc : Prop :=
  ∀ (i : Instr) (s t : State) (acc : Word), (∀ b, i ≠ .crcUpd b) → i ≠ .crcInit → i ≠ .crcRd → i ≠ .sysReset →
    exec i s = .next t →
    t.crcacc = s.crcacc ∧ exec i { s with crcacc := acc } = .next { t with crcacc := acc }

/-! ### U-CHUNK -/

/-- R180: CH.NEW builds the chunk with the derived length and CRC; `P_EMPTY` comes before `P_CAP`. -/
def Obligations.NewChunkDerivesLengthAndCrc : Prop :=
  (∀ arg input, decode ⟨0x20, arg, input⟩ = .ok (.chNew input)) ∧
    ∀ (s : State) (d : List Byte),
      (s.ty = none → exec (.chNew d) s = .next (s.answer .protocol 2 0 [])) ∧
      ∀ t, s.ty = some t →
        (d.length ≤ s.cfg.maxPayload.toNat → exec (.chNew d) s =
          .next ({ s with ch := some ⟨t, BitVec.ofNat 32 d.length, d, crc32 ([t.b0, t.b1, t.b2, t.b3] ++ d)⟩ }.answer
            .ok 0 0 [])) ∧
        (s.cfg.maxPayload.toNat < d.length → exec (.chNew d) s = .next (s.answer .protocol 3 0 []))

/-- R181, R172: every outcome of CH.PARSE by what the bytes are, in the order of the checks: no header, a type that is
not letters, too few bytes for the declared length, a wrong CRC, over capacity, accepted (trailing bytes `rest`
ignored). -/
def Obligations.ParseFrameOutcomes : Prop :=
  (∀ arg input, decode ⟨0x21, arg, input⟩ = .ok (.chParse input)) ∧
    ∀ s : State,
      (∀ B : List Byte, B.length < 8 → exec (.chParse B) s = .next (s.answer .unexpectedEof 0 0 [])) ∧
      ∀ (len : Word) (t : ChunkType),
        (∀ rest, ¬ AllLetters t →
          exec (.chParse (be32Bytes len ++ t.bytes ++ rest)) s = .next (s.answer .invalidChunkType 0 0 [])) ∧
        (∀ rest : List Byte, AllLetters t → rest.length < len.toNat + 4 →
          exec (.chParse (be32Bytes len ++ t.bytes ++ rest)) s = .next (s.answer .unexpectedEof 0 0 [])) ∧
        ∀ (d rest : List Byte) (crc : Word), AllLetters t → d.length = len.toNat →
          (crc ≠ crc32 (t.bytes ++ d) →
            exec (.chParse (be32Bytes len ++ t.bytes ++ d ++ be32Bytes crc ++ rest)) s =
              .next (s.answer .crcMismatch 0 0 [])) ∧
          (crc = crc32 (t.bytes ++ d) → s.cfg.maxPayload.toNat < len.toNat →
            exec (.chParse (be32Bytes len ++ t.bytes ++ d ++ be32Bytes crc ++ rest)) s =
              .next (s.answer .protocol 3 0 [])) ∧
          (crc = crc32 (t.bytes ++ d) → len.toNat ≤ s.cfg.maxPayload.toNat →
            exec (.chParse (be32Bytes len ++ t.bytes ++ d ++ be32Bytes crc ++ rest)) s =
              .next ({ s with ch := some ⟨t, len, d, crc⟩ }.answer .ok 0 0 []))

/-- R94: `12 + L` does not wrap: with the length field `FF FF FF F4` and a valid type every buffer shorter than 2^32
bytes is `UnexpectedEof`. -/
def Obligations.FrameLengthDoesNotWrap : Prop :=
  ∀ (s : State) (t : ChunkType) (rest : List Byte), AllLetters t → 8 + rest.length < 2 ^ 32 →
    exec (.chParse ([0xFF, 0xFF, 0xFF, 0xF4] ++ t.bytes ++ rest)) s = .next (s.answer .unexpectedEof 0 0 [])

/-- R182: CH.SER emits length, type, payload and CRC, the 32-bit fields most significant byte first, `12 + CH.len` bytes
under invariant I-CH; without a chunk, `P_EMPTY`. -/
def Obligations.SerializeChunkFieldOrder : Prop :=
  (∀ arg input, decode ⟨0x22, arg, input⟩ = .ok .chSer) ∧
    ∀ s : State,
      (∀ c, s.ch = some c → exec .chSer s = .next (s.answer .ok 0 0
        ([c.len.extractLsb' 24 8, c.len.extractLsb' 16 8, c.len.extractLsb' 8 8, c.len.extractLsb' 0 8] ++
          [c.type.b0, c.type.b1, c.type.b2, c.type.b3] ++ c.data ++
          [c.crc.extractLsb' 24 8, c.crc.extractLsb' 16 8, c.crc.extractLsb' 8 8, c.crc.extractLsb' 0 8]))) ∧
      (∀ c t, s.ch = some c → c.Ok s.cfg → exec .chSer s = .next t → t.out.length = 12 + c.len.toNat) ∧
      (s.ch = none → exec .chSer s = .next (s.answer .protocol 2 0 []))

/-- R183 to R186: the accessors return the chunk's own fields (CH.TYPE into `TY`) and change nothing else; under
invariant I-CH the length is the payload byte count, the CRC the checksum of type and payload, and the type delivered
is valid; without a chunk, `P_EMPTY`. -/
def Obligations.ChunkAccessors : Prop :=
  (∀ arg input, decode ⟨0x23, arg, input⟩ = .ok .chLen ∧ decode ⟨0x24, arg, input⟩ = .ok .chType ∧
      decode ⟨0x25, arg, input⟩ = .ok .chData ∧ decode ⟨0x26, arg, input⟩ = .ok .chCrc) ∧
    ∀ s : State,
      (∀ c, s.ch = some c →
        exec .chLen s = .next (s.answer .ok 0 c.len []) ∧
        exec .chType s = .next ({ s with ty := some c.type }.answer .ok 0 0 []) ∧
        exec .chData s = .next (s.answer .ok 0 0 c.data) ∧
        exec .chCrc s = .next (s.answer .ok 0 c.crc [])) ∧
      (∀ c t u v w, s.ch = some c → c.Ok s.cfg → exec .chLen s = .next t → exec .chType s = .next u →
        exec .chData s = .next v → exec .chCrc s = .next w →
        t.res.toNat = c.data.length ∧ TypeRegOk u.ty ∧ v.out.length = c.len.toNat ∧
          w.res = crc32 (c.type.bytes ++ c.data)) ∧
      (s.ch = none → ∀ i, i = .chLen ∨ i = .chType ∨ i = .chData ∨ i = .chCrc →
        exec i s = .next (s.answer .protocol 2 0 []))

/-- R187: CH.TEXT emits the payload unchanged if UTF8_VALID accepts it, as it does any bytes below 0x80, and fails with
`InvalidUtf8` and no output if not; without a chunk, `P_EMPTY`. -/
def Obligations.TextIsPayloadOrInvalidUtf8 : Prop :=
  (∀ arg input, decode ⟨0x27, arg, input⟩ = .ok .chText) ∧
    ∀ s : State,
      (∀ c, s.ch = some c →
        (utf8Valid s.cfg.utf8 c.data = true → exec .chText s = .next (s.answer .ok 0 0 c.data)) ∧
        (utf8Valid s.cfg.utf8 c.data = false → exec .chText s = .next (s.answer .invalidUtf8 0 0 [])) ∧
        ((∀ b ∈ c.data, b.toNat < 0x80) → exec .chText s = .next (s.answer .ok 0 0 c.data))) ∧
      (s.ch = none → exec .chText s = .next (s.answer .protocol 2 0 []))

/-- R8: every instantiation of UTF8_VALID accepts the empty sequence and every sequence of bytes 0x00 to 0x7F.  That
GK3 is the instantiation `recommended` names is the model's choice (log 2). -/
def Obligations.SevenBitPayloadsAreText : Prop :=
  ∀ (p : Utf8Param) (d : List Byte), (∀ b ∈ d, b.toNat < 0x80) → utf8Valid p d = true

/-- R173 (a), (b): a chunk comes back from what CH.SER emits, whatever bytes follow; the premise is invariant I-CH. -/
def Obligations.SerializedChunkParsesBack : Prop :=
  ∀ (s t : State) (c : Chunk) (rest : List Byte), s.ch = some c → ChunkRegOk s.cfg s.ch →
    exec .chSer s = .next t → exec (.chParse (t.out ++ rest)) t = .next (s.answer .ok 0 0 [])

/-- R173 (c), (e): an accepted frame leaves a chunk that satisfies I-CH and serializes to the first `12 + len` of the
bytes parsed, and there were so many. -/
def Obligations.ParsedFrameSerializesBack : Prop :=
  ∀ (s t : State) (B : List Byte), exec (.chParse B) s = .next t → t.code = .ok →
    ∃ c, t.ch = some c ∧ c.Ok s.cfg ∧ 12 + c.len.toNat ≤ B.length ∧
      exec .chSer t = .next (t.answer .ok 0 0 (B.take (12 + c.len.toNat)))

/-- R173 (d), R202 (c): CH.SER and CT.SER of two blocks emit the same bytes only for the same chunk and the same store;
frames are even read off the front of a longer sequence in one way only.  The premise is what I-CH and I-CS say of the
length field (R22, R23). -/
def Obligations.SerializersAreInjective : Prop :=
  (∀ (s t s' t' : State) (c c' : Chunk) (rest rest' : List Byte), s.ch = some c → s'.ch = some c' →
    c.data.length = c.len.toNat → c'.data.length = c'.len.toNat → exec .chSer s = .next t → exec .chSer s' = .next t' →
    t.out ++ rest = t'.out ++ rest' → c = c' ∧ rest = rest') ∧
  ∀ s t s' t' : State, (∀ c ∈ s.cs, c.data.length = c.len.toNat) → (∀ c ∈ s'.cs, c.data.length = c.len.toNat) →
    exec .ctSer s = .next t → exec .ctSer s' = .next t' → t.out = t'.out → s.cs = s'.cs

/-- R173 (g): every proper beginning of what CH.SER emits is `UnexpectedEof` to CH.PARSE, in whichever field it ends. -/
def Obligations.CutFrameIsUnexpectedEof : Prop :=
  ∀ (s t : State) (c : Chunk) (k : Nat), s.ch = some c → ChunkRegOk s.cfg s.ch → exec .chSer s = .next t →
    k < t.out.length → exec (.chParse (t.out.take k)) t = .next (s.answer .unexpectedEof 0 0 [])

/-- R157: in the frame of a chunk, one flipped bit of the payload or of the CRC field is `CrcMismatch`, and so is one
of a type byte that stays a letter. -/
def Obligations.SingleBitFlipIsCrcMismatch : Prop :=
  ∀ (s : State) (c : Chunk), c.Ok s.cfg →
    (∀ (p q : List Byte) (b : Byte) (j : Nat), c.data = p ++ b :: q → j < 8 →
      exec (.chParse (be32Bytes c.len ++ c.type.bytes ++ (p ++ (b ^^^ (1#8 <<< j)) :: q) ++ be32Bytes c.crc)) s =
        .next (s.answer .crcMismatch 0 0 [])) ∧
    (∀ j : Nat, j < 32 →
      exec (.chParse (be32Bytes c.len ++ c.type.bytes ++ c.data ++ be32Bytes (c.crc ^^^ (1#32 <<< j)))) s =
        .next (s.answer .crcMismatch 0 0 [])) ∧
    ∀ (t : ChunkType) (p q : List Byte) (b : Byte) (j : Nat), c.type.bytes = p ++ b :: q → j < 8 →
      t.bytes = p ++ (b ^^^ (1#8 <<< j)) :: q → AllLetters t →
      exec (.chParse (be32Bytes c.len ++ t.bytes ++ c.data ++ be32Bytes c.crc)) s = .next (s.answer .crcMismatch 0 0 [])

/-! ### U-CONT -/

/-- R204, R210: CT.SER emits the signature and the frames in order, `8 + Σ (12 + len)` bytes under invariant I-CS,
CT.COUNT returns the count; both always succeed. -/
def Obligations.SerializeAndCountContainer : Prop :=
  (∀ arg input, decode ⟨0x31, arg, input⟩ = .ok .ctSer ∧ decode ⟨0x35, arg, input⟩ = .ok .ctCount) ∧
    ∀ s : State,
      exec .ctSer s = .next (s.answer .ok 0 0 ([0x89, 0x50, 0x4E, 0x47, 0x0D, 0x0A, 0x1A, 0x0A] ++
        (s.cs.map fun c => be32Bytes c.len ++ c.type.bytes ++ c.data ++ be32Bytes c.crc).flatten)) ∧
      (∀ t, StoreOk s.cfg s.cs → exec .ctSer s = .next t →
        t.out.length = 8 + (s.cs.map fun c => 12 + c.len.toNat).sum) ∧
      exec .ctCount s = .next (s.answer .ok 0 (BitVec.ofNat 32 s.cs.length) [])

/-- R60: the signature at offset 0, frame `k` with its four fields at `off_k`, and the total size, of what CT.SER emits;
the premise is invariant I-CS. -/
def Obligations.ContainerLayout : Prop :=
  ∀ s t : State, StoreOk s.cfg s.cs → exec .ctSer s = .next t →
    t.out.length = 8 + (s.cs.map fun c => 12 + c.len.toNat).sum ∧
    t.out.take 8 = [0x89, 0x50, 0x4E, 0x47, 0x0D, 0x0A, 0x1A, 0x0A] ∧
    ∀ (pre post : List Chunk) (c : Chunk), s.cs = pre ++ c :: post →
      (t.out.drop (8 + (pre.map fun x => 12 + x.len.toNat).sum)).take (12 + c.len.toNat) =
        be32Bytes c.len ++ c.type.bytes ++ c.data ++ be32Bytes c.crc

/-- R208: CT.APPEND copies `CH` to the end of the store and keeps it; `P_EMPTY`, then `P_CAP`. -/
def Obligations.AppendAddsAtTheEnd : Prop :=
  (∀ arg input, decode ⟨0x32, arg, input⟩ = .ok .ctAppend) ∧
    ∀ s : State,
      (s.ch = none → exec .ctAppend s = .next (s.answer .protocol 2 0 [])) ∧
      ∀ c, s.ch = some c →
        (s.cs.length < s.cfg.maxChunks.toNat →
          exec .ctAppend s = .next ({ s with cs := s.cs ++ [c] }.answer .ok 0 0 [])) ∧
        (s.cfg.maxChunks.toNat ≤ s.cs.length → exec .ctAppend s = .next (s.answer .protocol 3 0 []))

/-- R206, R207: CT.REMOVE takes the first entry of the type out of the store and into `CH`, CT.FIND copies the same
entry; without one both are `ChunkNotFound` with nothing changed, without a type `P_EMPTY`. -/
def Obligations.RemoveAndFindTakeTheFirstMatch : Prop :=
  (∀ arg input, decode ⟨0x33, arg, input⟩ = .ok .ctRemove ∧ decode ⟨0x34, arg, input⟩ = .ok .ctFind) ∧
    ∀ s : State,
      (∀ (pre post : List Chunk) (c : Chunk), s.cs = pre ++ c :: post → s.ty = some c.type →
        (∀ x ∈ pre, x.type ≠ c.type) →
        exec .ctRemove s = .next ({ s with cs := pre ++ post, ch := some c }.answer .ok 0 0 []) ∧
        exec .ctFind s = .next ({ s with ch := some c }.answer .ok 0 0 [])) ∧
      (∀ t, s.ty = some t → (∀ x ∈ s.cs, x.type ≠ t) →
        exec .ctRemove s = .next (s.answer .chunkNotFound 0 0 []) ∧
        exec .ctFind s = .next (s.answer .chunkNotFound 0 0 [])) ∧
      (s.ty = none → exec .ctRemove s = .next (s.answer .protocol 2 0 []) ∧
        exec .ctFind s = .next (s.answer .protocol 2 0 []))

/-- R209: CT.GET copies entry `arg` into `CH`, or is `P_RANGE` with `CH` unchanged; the comparison is unsigned. -/
def Obligations.GetEntryByIndex : Prop :=
  (∀ arg input, decode ⟨0x36, arg, input⟩ = .ok (.ctGet arg)) ∧
    ∀ (s : State) (index : Word),
      (∀ h : index.toNat < s.cs.length,
        exec (.ctGet index) s = .next ({ s with ch := some (s.cs[index.toNat]'h) }.answer .ok 0 0 [])) ∧
      (s.cs.length ≤ index.toNat → exec (.ctGet index) s = .next (s.answer .protocol 4 0 []))

/-- R203, R201, R205: CT.PARSE of anything that does not begin with the signature is `BadSignature`; after good frames
the first bad one decides, with its zero-based index in INFO (or `P_CAP`), where "bad" is what CH.PARSE says of the
bytes that remain; a sound frame too many is `P_CAP`; frames to the end replace the whole store. -/
def Obligations.ParseContainerOutcomes : Prop :=
  (∀ arg input, decode ⟨0x30, arg, input⟩ = .ok (.ctParse input)) ∧
    ∀ s : State,
      (∀ B : List Byte, B.take 8 ≠ [0x89, 0x50, 0x4E, 0x47, 0x0D, 0x0A, 0x1A, 0x0A] →
        exec (.ctParse B) s = .next (s.answer .badSignature 0 0 [])) ∧
      ∀ good : List Chunk, StoreOk s.cfg good →
        (exec (.ctParse (serContainer good)) s = .next ({ s with cs := good }.answer .ok 0 0 [])) ∧
        (∀ (bad : List Byte) (u : State), bad ≠ [] → exec (.chParse bad) s = .next u → u.code ≠ .ok →
          exec (.ctParse (serContainer good ++ bad)) s = .next (s.answer u.code
            (if u.code = .protocol then 3 else BitVec.ofNat 32 good.length) 0 [])) ∧
        ∀ (c : Chunk) (more : List Byte), c.Ok s.cfg → good.length = s.cfg.maxChunks.toNat →
          exec (.ctParse (serContainer good ++ (serChunk c ++ more))) s = .next (s.answer .protocol 3 0 [])

/-- R202 (d): what CT.SER emits always parses, and leaves the store as it was; the premise is invariant I-CS. -/
def Obligations.SerializedContainerParsesBack : Prop :=
  ∀ s t : State, StoreOk s.cfg s.cs → exec .ctSer s = .next t →
    exec (.ctParse t.out) t = .next (s.answer .ok 0 0 [])

/-- R202 (b): a container that parses is emitted byte for byte by CT.SER, and the store then satisfies I-CS. -/
def Obligations.ParsedContainerSerializesBack : Prop :=
  ∀ (s t : State) (B : List Byte), exec (.ctParse B) s = .next t → t.code = .ok →
    StoreOk s.cfg t.cs ∧ exec .ctSer t = .next (t.answer .ok 0 0 B)

/-- R211: with no entry of the chunk's type in the store and room for one, CT.APPEND then CT.REMOVE of that type
restores the store, and CT.SER emits the bytes it emitted before. -/
def Obligations.AppendThenRemoveRestores : Prop :=
  ∀ (s t u v w : State) (c : Chunk), s.ch = some c → s.ty = some c.type → (∀ x ∈ s.cs, x.type ≠ c.type) →
    s.cs.length < s.cfg.maxChunks.toNat → exec .ctAppend s = .next t → exec .ctRemove t = .next u →
    exec .ctSer s = .next v → exec .ctSer u = .next w →
    t.cs.length = s.cs.length + 1 ∧ u = s.answer .ok 0 0 [] ∧ w.out = v.out

/-! ### Errors, frames and the response -/

/-- R296: an operation that ends with a code other than `OK` writes `STATUS.CODE`, INFO and RES = 0, emits nothing, and
changes nothing else; so does any command issued, reserved ones too, its whole input consumed. -/
def Obligations.ErrorEntryChangesNothingElse : Prop :=
  (∀ (i : Instr) (s t : State), exec i s = .next t → t.code ≠ .ok → t = s.answer t.code t.info 0 []) ∧
    ∀ (r : Request) (rest : List HostEvent) (s t : State), s.eng = none → s.host = .op r :: rest → step s = .next t →
      t.code ≠ .ok → t = { s with host := rest }.answer t.code t.info 0 []

/-- R290, R26, R27: which codes each operation can end with, and INFO = 0 after `OK` and after every document error
outside CT.PARSE. -/
def Obligations.OperationsRaiseOnlyTheirErrors : Prop :=
  ∀ (i : Instr) (s t : State), exec i s = .next t →
    (t.code = .ok ∨ t.code = .protocol ∨
      t.code = .invalidChunkType ∧
        ((∃ x, i = .tyLdb x) ∨ (∃ x, i = .tyLdt x) ∨ (∃ x, i = .chParse x) ∨ ∃ x, i = .ctParse x) ∨
      t.code = .unexpectedEof ∧ ((∃ x, i = .chParse x) ∨ ∃ x, i = .ctParse x) ∨
      t.code = .crcMismatch ∧ ((∃ x, i = .chParse x) ∨ ∃ x, i = .ctParse x) ∨
      t.code = .badSignature ∧ (∃ x, i = .ctParse x) ∨
      t.code = .chunkNotFound ∧ (i = .ctRemove ∨ i = .ctFind) ∨
      t.code = .invalidUtf8 ∧ i = .chText) ∧
    (t.code = .ok → t.info = 0) ∧
    (t.code = .protocol → t.info = 2 ∨ t.info = 3 ∨ t.info = 4) ∧
    (t.code ≠ .ok → t.code ≠ .protocol → (∀ x, i ≠ .ctParse x) → t.info = 0)

/-- R14, R33: every operation answers a next state, in every state, with every operand; the parameters and what the host
has lined up are as before. -/
def Obligations.EveryOperationAnswers : Prop :=
  ∀ (i : Instr) (s : State), ∃ t, exec i s = .next t ∧ t.cfg = s.cfg ∧ t.host = s.host

/-- R323: which operations can overwrite each register; every other operation leaves it. -/
def Obligations.OnlyListedOperationsOverwrite : Prop :=
  ∀ (i : Instr) (s t : State), exec i s = .next t → i ≠ .sysReset →
    ((∀ x, i ≠ .tyLdb x) → (∀ x, i ≠ .tyLdt x) → i ≠ .chType → t.ty = s.ty) ∧
    ((∀ x, i ≠ .chNew x) → (∀ x, i ≠ .chParse x) → i ≠ .ctRemove → i ≠ .ctFind → (∀ x, i ≠ .ctGet x) → t.ch = s.ch) ∧
    ((∀ x, i ≠ .ctParse x) → i ≠ .ctAppend → i ≠ .ctRemove → t.cs = s.cs) ∧
    (i ≠ .crcInit → (∀ b, i ≠ .crcUpd b) → t.crcacc = s.crcacc) ∧ t.eng = s.eng

/-- R59: the reading operations change nothing but the response, and together with CT.FIND, CT.GET and CH.TYPE are
idempotent: run again they answer the same state. -/
def Obligations.ReadingOperationsAreIdempotent : Prop :=
  ∀ (i : Instr) (s t : State), exec i s = .next t →
    (i = .tyRdb ∨ i = .tyRdt ∨ i = .tyCrit ∨ i = .tyPub ∨ i = .tyRsv ∨ i = .tySafe ∨ i = .tyWrt ∨ i = .crcRd ∨
      i = .chSer ∨ i = .chLen ∨ i = .chData ∨ i = .chCrc ∨ i = .chText ∨ i = .ctSer ∨ i = .ctCount →
      t = s.answer t.code t.info t.res t.out ∧ exec i t = .next t) ∧
    (i = .ctFind ∨ (∃ x, i = .ctGet x) ∨ i = .chType → exec i t = .next t)

/-- R25: STATUS is CODE in bits 3:0 (numbered by R290), the live copies of the valid bits in bits 4 and 5, and zero in
bits 31:6, in every state. -/
def Obligations.StatusRegisterFields : Prop :=
  ∀ s : State,
    (s.status.extractLsb' 0 4).toNat =
        (match s.code with
          | .ok => 0
          | .invalidChunkType => 1
          | .unexpectedEof => 2
          | .crcMismatch => 3
          | .badSignature => 4
          | .chunkNotFound => 5
          | .invalidUtf8 => 6
          | .protocol => 15) ∧
      s.status.getLsbD 4 = s.ty.isSome ∧ s.status.getLsbD 5 = s.ch.isSome ∧ s.status >>> 6 = 0

/-! ### State, reset, the port -/

/-- R34: the reset state, register by register. -/
def Obligations.ResetStateValues : Prop :=
  State.reset.ty = none ∧ State.reset.ch = none ∧ State.reset.cs = [] ∧ State.reset.crcacc = 0xFFFFFFFF ∧
    State.reset.status = 0 ∧ State.reset.info = 0 ∧ State.reset.res = 0 ∧ State.reset.count = 0 ∧
    State.reset.eng = none

/-- R230: SYS.RESET puts every register at its reset value (R34), from every state, and answers `OK`; no other state is
written. -/
def Obligations.SysResetPutsEveryRegisterAtItsResetValue : Prop :=
  (∀ arg input, decode ⟨0x70, arg, input⟩ = .ok .sysReset) ∧
    ∀ s : State, exec .sysReset s = .next { s with
      ty := none, ch := none, cs := [], crcacc := 0xFFFFFFFF, code := .ok, info := 0, res := 0, out := [], eng := none }

/-- R320, R230: the hardware reset does to the registers what SYS.RESET does, from every state, also in the middle of an
operation, for which no response is posted.  That it leaves the parameters and what else the host has lined up is the
model's choice (log 13). -/
def Obligations.HardwareResetAbandonsTheOperation : Prop :=
  ∀ (s : State) (rest : List HostEvent), s.host = .reset :: rest →
    step s = exec .sysReset { s with host := rest } ∧ step s = .next { State.reset with cfg := s.cfg, host := rest }

/-- R34: the reset state meets the invariant, and it is a safe state for every build of the block and whatever a host
that keeps to the protocol has lined up (so it does not rest on the parameters or the empty host list that the model
gives State.reset, logs 1 and 3). -/
def Obligations.ResetStateIsSafe : Prop :=
  State.reset.Inv ∧ ∀ (cfg : Params) (host : List HostEvent), hostKeepsProtocol false host = true →
    { State.reset with cfg := cfg, host := host }.Safe

/-- R21, R22, R23 with R26, R27 and R252 to R259: every step keeps the invariant.  What it says of a
serializer between its last byte and EOS (phase LEN) is the model's choice (log 24). -/
def Obligations.EveryStepKeepsTheInvariant : Prop :=
  ∀ s t : State, s.Inv → step s = .next t → t.Inv

/-- R298, R324: from a safe state, whose host keeps to the protocol, a step answers a next state, and that is safe
again: no operation, no error and no data ever stop the block.  That a step with nothing lined up idles, and that a
stray item is dropped, is the model's reading (logs 11 and 12). -/
def Obligations.SafeStatesNeverStop : Prop :=
  ∀ s : State, s.Safe → ∃ t, step s = .next t ∧ t.Safe

/-- R324: while an operation takes its input, another operation and a host that has nothing more to send have no
meaning: the step stops (log 10). -/
def Obligations.OverlapAndStallHaveNoMeaning : Prop :=
  ∀ s : State, s.awaiting = true →
    (∀ r rest, s.host = .op r :: rest → step s = .fault .overlappingOperation) ∧
    (∀ cmd arg rest, s.host = .start cmd arg :: rest → step s = .fault .overlappingOperation) ∧
    (s.host = [] → step s = .fault .inputStalled)

/-- R302: with nothing lined up an idle block keeps its whole state; a stream item that belongs to no operation is
discarded (log 11). -/
def Obligations.IdleBlockKeepsItsState : Prop :=
  ∀ s : State, s.eng = none →
    (s.host = [] → step s = .next s) ∧
    (∀ b rest, s.host = .byte b :: rest → step s = .next { s with host := rest }) ∧
    ∀ rest, s.host = .eos :: rest → step s = .next { s with host := rest }

/-! ### The byte-serial engine -/

/-- R250, R59: between the start of an operation and its completion nothing the host can see changes: a step after which
the engine is still at work changes only the engine and what is lined up. -/
def Obligations.NothingIsSeenBeforeCompletion : Prop :=
  ∀ s t : State, step s = .next t → t.eng ≠ none →
    t = { s with eng := t.eng, host := t.host }

/-- R268, parsers: the items of CH.PARSE or CT.PARSE served one by one, `|input| + 2` steps, end in the state the whole
operation ends in at Level T, from every idle state and for every input and every capacity. -/
def Obligations.SerialParsersAgreeWithLevelT : Prop :=
  ∀ (s t : State) (cmd : Byte) (arg : Word) (input : List Byte) (rest : List HostEvent),
    cmd = 0x21 ∨ cmd = 0x30 → s.eng = none → step { s with host := .op ⟨cmd, arg, input⟩ :: rest } = .next t →
    Host.Core.run core (input.length + 2) { s with host := wireForm ⟨cmd, arg, input⟩ ++ rest } = .next t

/-- R268, R258, R261: the same for CH.NEW and TY.LDT. -/
def Obligations.SerialLoadsAgreeWithLevelT : Prop :=
  ∀ (s t : State) (cmd : Byte) (arg : Word) (input : List Byte) (rest : List HostEvent),
    cmd = 0x01 ∨ cmd = 0x20 → s.eng = none → step { s with host := .op ⟨cmd, arg, input⟩ :: rest } = .next t →
    Host.Core.run core (input.length + 2) { s with host := wireForm ⟨cmd, arg, input⟩ ++ rest } = .next t

/-- R268, R259: TY.RDT, CH.SER, CH.DATA, CH.TEXT and CT.SER served one output item at a time, `|out| + 2` steps, end in
the state the whole operation ends in at Level T; the premises are the invariant, and that no hardware reset comes
first. -/
def Obligations.SerialEmittersAgreeWithLevelT : Prop :=
  ∀ (s t : State) (cmd : Byte) (arg : Word) (input : List Byte) (rest : List HostEvent),
    cmd = 0x03 ∨ cmd = 0x22 ∨ cmd = 0x25 ∨ cmd = 0x27 ∨ cmd = 0x31 → s.Inv → s.eng = none →
    rest.head? ≠ some .reset → step { s with host := .op ⟨cmd, arg, input⟩ :: rest } = .next t →
    Host.Core.run core (t.out.length + 2) { s with host := wireForm ⟨cmd, arg, input⟩ ++ rest } = .next t

/-- R261: every other operation, and every reserved command, is a single step at Level S: its Level T rule at once. -/
def Obligations.OtherOperationsAreSingleSteps : Prop :=
  ∀ (s : State) (cmd : Byte) (arg : Word) (rest : List HostEvent),
    (∀ x ∈ [0x01#8, 0x03#8, 0x20#8, 0x21#8, 0x22#8, 0x25#8, 0x27#8, 0x30#8, 0x31#8], cmd ≠ x) → s.eng = none →
    step { s with host := wireForm ⟨cmd, arg, []⟩ ++ rest } = step { s with host := .op ⟨cmd, arg, []⟩ :: rest }

/-! ### The host's sequences -/

/-- R234 with R213: ENCODE of a message that fits under an ancillary type into a container with room writes the file's
own bytes followed by the new frame. -/
def Obligations.EncodeAppendsOneFrame : Prop :=
  ∀ (s : State) (cs : List Chunk) (t : ChunkType) (message : List Byte),
    StoreOk s.cfg cs → cs.length < s.cfg.maxChunks.toNat → AllLetters t → t.b0.getLsbD 5 = true →
    message.length ≤ s.cfg.maxPayload.toNat →
    ∃ u, hostEncode (serContainer cs) t.bytes message s = .next (u, .wrote (serContainer cs ++
      (be32Bytes (BitVec.ofNat 32 message.length) ++ t.bytes ++ message ++ be32Bytes (crc32 (t.bytes ++ message)))))

/-- R234, R126 (90_conflicts.md C1): ENCODE under a critical type is refused, and the store holds the file as parsed. -/
def Obligations.EncodeRefusesCriticalTypes : Prop :=
  ∀ (s : State) (cs : List Chunk) (t : ChunkType) (message : List Byte),
    StoreOk s.cfg cs → AllLetters t → t.b0.getLsbD 5 = false →
    ∃ u, hostEncode (serContainer cs) t.bytes message s = .next (u, .criticalRefused) ∧ u.cs = cs ∧ u.ch = s.ch

/-- R235, R236 after R234: what ENCODE wrote under a type the file did not hold, DECODE gives back as text if it is
text, and REMOVE takes out again, leaving the original file byte for byte. -/
def Obligations.DecodeAndRemoveUndoEncode : Prop :=
  ∀ (s s' s'' u : State) (cs : List Chunk) (t : ChunkType) (message file : List Byte),
    StoreOk s.cfg cs → (∀ x ∈ cs, x.type ≠ t) → s'.cfg = s.cfg → s''.cfg = s.cfg →
    hostEncode (serContainer cs) t.bytes message s = .next (u, .wrote file) →
    (utf8Valid s.cfg.utf8 message = true → ∃ v, hostDecode file t.bytes s' = .next (v, .text message)) ∧
    ∃ w, hostRemove file t.bytes s'' = .next (w, .wrote (serContainer cs))

/-- R237: PRINT of a file with exactly one IEND chunk lists the packed types after it, in order. -/
def Obligations.PrintListsTypesAfterTheOneIend : Prop :=
  ∀ (s : State) (pre post : List Chunk) (e : Chunk), StoreOk s.cfg (pre ++ e :: post) →
    e.type = ⟨0x49, 0x45, 0x4E, 0x44⟩ → (∀ x ∈ pre ++ post, x.type ≠ e.type) →
    ∃ u, hostPrint (serContainer (pre ++ e :: post)) s = .next (u, .listed (post.map fun c =>
      be32 c.type.b0 c.type.b1 c.type.b2 c.type.b3))
end

