-- ==== Sys2Proof/Laws/Checks.lean ====
section
/-! SUPPORT. The letter test as the numeric ranges of R120, and seven-bit bytes under GK3. -/

namespace Sys2Proof.Machine

theorem isLetter_iff (b : Byte) : isLetter b = true ↔ LetterByte b := by
  simp [isLetter, LetterByte, BitVec.le_def]

theorem typeValid_iff (t : ChunkType) : typeValid t = true ↔ AllLetters t := by
  simp [typeValid, isLetter_iff, AllLetters, and_assoc]

theorem typeValid_false_iff (t : ChunkType) : typeValid t = false ↔ ¬ AllLetters t := by
  rw [← typeValid_iff]; simp

theorem utf8Tail_ascii : ∀ b : Byte, b.toNat < 0x80 → utf8Tail b = some [] := by
  intro b hb
  have : b ≤ 0x7F#8 := by rw [BitVec.le_def]; show b.toNat ≤ 127; omega
  have h0 : 0#8 ≤ b := by rw [BitVec.le_def]; simp
  simp [utf8Tail, utf8Rows, this, h0]

end Sys2Proof.Machine
end

