-- ==== Sys2Proof/Laws/Crc.lean ====
section
/-! SUPPORT. The CRC update is linear over GF(2) and a bijection of the accumulator (R153), and the accumulator of a
longer sequence is that of its parts in turn. -/

namespace Sys2Proof.Machine

@[simp] theorem crcRun_nil (acc : Word) : crcRun acc [] = acc := rfl

@[simp] theorem crcRun_cons (acc : Word) (b : Byte) (s : List Byte) : crcRun acc (b :: s) = crcRun (crcUpd acc b) s := rfl

theorem crcRun_append (acc : Word) (s s' : List Byte) : crcRun acc (s ++ s') = crcRun (crcRun acc s) s' :=
  List.foldl_append

theorem crcShift_xor (a a' : Word) : crcShift (a ^^^ a') = crcShift a ^^^ crcShift a' := by
  unfold crcShift
  rw [BitVec.getLsbD_xor, BitVec.ushiftRight_xor_distrib]
  cases a.getLsbD 0 <;> cases a'.getLsbD 0 <;> simp <;> try ac_rfl
  rw [show a >>> 1 ^^^ crcPoly ^^^ (a' >>> 1 ^^^ crcPoly) = crcPoly ^^^ crcPoly ^^^ (a >>> 1 ^^^ a' >>> 1) by ac_rfl]
  simp

theorem crcShifts_xor (n : Nat) (a a' : Word) : crcShifts n (a ^^^ a') = crcShifts n a ^^^ crcShifts n a' := by
  induction n generalizing a a' with
  | zero => rfl
  | succ n ih => simp only [crcShifts, crcShift_xor, ih]

theorem crcUpd_xor (a a' : Word) (b b' : Byte) : crcUpd (a ^^^ a') (b ^^^ b') = crcUpd a b ^^^ crcUpd a' b' := by
  rw [crcUpd, crcUpd, crcUpd, ← crcShifts_xor, BitVec.setWidth_xor]
  congr 1; ac_rfl

/-- Bit 31 after an iteration tells bit 0 before it, since the polynomial has bit 31 set. -/
theorem crcShift_zero {a : Word} (h : crcShift a = 0) : a = 0 := by
  unfold crcShift at h
  cases hb : a.getLsbD 0 with
  | true =>
    rw [hb] at h
    have := congrArg (·.getLsbD 31) h
    simp [crcPoly] at this
  | false =>
    rw [hb] at h
    apply BitVec.eq_of_getLsbD_eq
    intro i hi
    cases i with
    | zero => simpa using hb
    | succ i =>
      have := congrArg (·.getLsbD i) h
      simpa [Nat.add_comm] using this

theorem crcShifts_zero {n : Nat} {a : Word} (h : crcShifts n a = 0) : a = 0 := by
  induction n generalizing a with
  | zero => exact h
  | succ n ih => exact crcShift_zero (ih h)

theorem crcShifts_inj {n : Nat} {a a' : Word} (h : crcShifts n a = crcShifts n a') : a = a' := by
  have := crcShifts_zero (n := n) (a := a ^^^ a') (by rw [crcShifts_xor, h, BitVec.xor_self]; rfl)
  exact BitVec.xor_eq_zero_iff.1 this

theorem crcUpd_inj {a a' : Word} {b : Byte} (h : crcUpd a b = crcUpd a' b) : a = a' := by
  have := crcShifts_inj h
  simpa using this

theorem crcRun_inj {a a' : Word} {s : List Byte} (h : crcRun a s = crcRun a' s) : a = a' := by
  induction s generalizing a a' with
  | nil => exact h
  | cons b s ih => exact crcUpd_inj (ih h)

theorem crcUpd_byte_inj {a : Word} {b b' : Byte} (h : crcUpd a b = crcUpd a b') : b = b' := by
  have h1 := crcShifts_inj h
  have h2 : b.setWidth 32 = b'.setWidth 32 := by
    have := congrArg (a ^^^ ·) h1
    simpa [← BitVec.xor_assoc] using this
  have := congrArg (BitVec.setWidth 8) h2
  simpa using this

theorem crcFinish_inj {a a' : Word} (h : crcFinish a = crcFinish a') : a = a' := by
  simpa [crcFinish] using h

/-- Sequences of equal length that differ in exactly one byte have different checksums. -/
theorem crc32_ne_of_byte_ne {p s : List Byte} {b b' : Byte} (h : b ≠ b') :
    crc32 (p ++ b :: s) ≠ crc32 (p ++ b' :: s) := by
  intro he
  have h1 := crcFinish_inj he
  rw [crcRun_append, crcRun_append] at h1
  exact h (crcUpd_byte_inj (crcRun_inj h1))

/-- While the low bits are zero the iterations only shift (R151, the table form). -/
theorem crcShifts_low_zero (n : Nat) (x : Word) (h : ∀ i < n, x.getLsbD i = false) : crcShifts n x = x >>> n := by
  induction n generalizing x with
  | zero => simp [crcShifts]
  | succ n ih =>
    have h0 := h 0 (by omega)
    simp only [crcShifts, crcShift, h0, Bool.false_eq_true, if_false]
    rw [ih _ (fun i hi => by simpa [Nat.add_comm] using h (i+1) (by omega)), ← BitVec.shiftRight_add, Nat.add_comm]

end Sys2Proof.Machine
end

