-- ==== Sys2Proof/Laws/Words.lean ====
section
/-! SUPPORT. The 32-bit assembly of R89 and the type packing of R84, R85 are inverse to each other. -/

namespace Sys2Proof

@[simp] theorem wordByte_be32_zero (b0 b1 b2 b3 : Byte) : wordByte (be32 b0 b1 b2 b3) 0 = b0 := by
  ext i hi; simp [wordByte, be32]; grind

@[simp] theorem wordByte_be32_one (b0 b1 b2 b3 : Byte) : wordByte (be32 b0 b1 b2 b3) 1 = b1 := by
  ext i hi; simp [wordByte, be32]; grind

@[simp] theorem wordByte_be32_two (b0 b1 b2 b3 : Byte) : wordByte (be32 b0 b1 b2 b3) 2 = b2 := by
  ext i hi; simp [wordByte, be32]; grind

@[simp] theorem wordByte_be32_three (b0 b1 b2 b3 : Byte) : wordByte (be32 b0 b1 b2 b3) 3 = b3 := by
  ext i hi; simp [wordByte, be32]; grind

@[simp] theorem be32_wordByte (v : Word) : be32 (wordByte v 0) (wordByte v 1) (wordByte v 2) (wordByte v 3) = v := by
  ext i hi; simp [wordByte, be32]; grind

@[simp] theorem wordByte_three_setWidth (b : Byte) : wordByte (b.setWidth 32) 3 = b := by
  ext i hi; simp [wordByte]; grind

@[simp] theorem be32Bytes_be32 (b0 b1 b2 b3 : Byte) : be32Bytes (be32 b0 b1 b2 b3) = [b0, b1, b2, b3] := by
  simp [be32Bytes]

@[simp] theorem be32Bytes_length (v : Word) : (be32Bytes v).length = 4 := rfl

theorem be32Bytes_inj {v w : Word} (h : be32Bytes v = be32Bytes w) : v = w := by
  simp only [be32Bytes, List.cons.injEq, and_true] at h
  rw [← be32_wordByte v, ← be32_wordByte w, h.1, h.2.1, h.2.2.1, h.2.2.2]

@[simp] theorem ChunkType.bytes_length (t : ChunkType) : t.bytes.length = 4 := rfl

theorem ChunkType.bytes_inj {t u : ChunkType} (h : t.bytes = u.bytes) : t = u := by
  cases t; cases u; simpa [ChunkType.bytes] using h

@[simp] theorem ChunkType.ofWord_toWord (t : ChunkType) : ChunkType.ofWord t.toWord = t := by
  simp [ChunkType.ofWord, ChunkType.toWord]

@[simp] theorem ChunkType.toWord_ofWord (v : Word) : (ChunkType.ofWord v).toWord = v := by
  simp [ChunkType.ofWord, ChunkType.toWord]

@[simp] theorem ChunkType.bytes_ofWord (v : Word) : (ChunkType.ofWord v).bytes = be32Bytes v := rfl

@[simp] theorem be32Bytes_toWord (t : ChunkType) : be32Bytes t.toWord = t.bytes := by
  rw [← ChunkType.bytes_ofWord, ChunkType.ofWord_toWord]

@[simp] theorem Instr.encode_cmd (i : Instr) : (encode i).cmd = i.cmd := rfl

@[simp] theorem Instr.encode_arg (i : Instr) : (encode i).arg = i.arg := rfl

@[simp] theorem Instr.encode_input (i : Instr) : (encode i).input = i.input := rfl

end Sys2Proof
end

