-- ==== Sys2Proof/Laws/Format.lean ====
section
/-! SUPPORT. Frames and containers: the parser and the serializer of R171, R172, R200, R201 undo each other. -/

namespace Sys2Proof.Machine

@[simp] theorem word4_be32Bytes (v : Word) (X : List Byte) : word4 (be32Bytes v ++ X) = some v := by
  simp [be32Bytes, word4]

theorem word4_none {B : List Byte} (h : B.length < 4) : word4 B = none := by
  match B, h with
  | [], _ => rfl
  | [_], _ => rfl
  | [_, _], _ => rfl
  | [_, _, _], _ => rfl
  | _ :: _ :: _ :: _ :: _, h => simp only [List.length_cons] at h; omega

theorem word4_some {B : List Byte} {v : Word} (h : word4 B = some v) : B = be32Bytes v ++ B.drop 4 := by
  match B, h with
  | b0 :: b1 :: b2 :: b3 :: rest, h =>
    obtain rfl : be32 b0 b1 b2 b3 = v := by simpa [word4] using h
    simp

theorem word4_eq_some_of_length {B : List Byte} (h : 4 ≤ B.length) : ∃ v, word4 B = some v := by
  match B, h with
  | b0 :: b1 :: b2 :: b3 :: _, _ => exact ⟨_, rfl⟩
  | [], h => simp at h
  | [_], h => simp at h
  | [_, _], h => simp at h
  | [_, _, _], h => simp at h

@[simp] theorem serChunk_length (c : Chunk) : (serChunk c).length = 12 + c.data.length := by
  simp [serChunk]; omega

/-- R172 on a frame cut out field by field: what each of its lines decides, in order. -/
theorem parseChunk_fields (cfg : Params) (len tyr : Word) (X : List Byte) :
    parseChunk cfg (be32Bytes len ++ be32Bytes tyr ++ X) =
      if !typeValid (.ofWord tyr) then .error .invalidChunkType
      else if X.length < 4 + len.toNat then .error .unexpectedEof
      else match word4 (X.drop len.toNat) with
        | none => .error .unexpectedEof
        | some crc =>
          if chunkCrc (.ofWord tyr) (X.take len.toNat) ≠ crc then .error .crcMismatch
          else if cfg.maxPayload.toNat < len.toNat then .error .cap
          else .ok (⟨.ofWord tyr, len, X.take len.toNat, crc⟩, 12 + len.toNat) := by
  have h8 : (be32Bytes len ++ be32Bytes tyr).length = 8 := rfl
  have hlen : (be32Bytes len ++ be32Bytes tyr ++ X).length < 12 + len.toNat ↔ X.length < 4 + len.toNat := by
    rw [List.length_append, h8]; omega
  have hd4 : (be32Bytes len ++ be32Bytes tyr ++ X).drop 4 = be32Bytes tyr ++ X := by simp [be32Bytes]
  have hd8 : (be32Bytes len ++ be32Bytes tyr ++ X).drop 8 = X := by simp [be32Bytes]
  have hd8n : (be32Bytes len ++ be32Bytes tyr ++ X).drop (8 + len.toNat) = X.drop len.toNat := by
    rw [← List.drop_drop, hd8]
  have hw : word4 (be32Bytes len ++ be32Bytes tyr ++ X) = some len := by rw [List.append_assoc, word4_be32Bytes]
  unfold parseChunk
  rw [hd4, hd8, hw, word4_be32Bytes]
  first | (simp only [hd8n, hlen]; done) | (simp only [hd8n, hlen]; rfl)

/-- The same with the type as four bytes. -/
theorem parseChunk_typed (cfg : Params) (len : Word) (t : ChunkType) (X : List Byte) :
    parseChunk cfg (be32Bytes len ++ t.bytes ++ X) =
      if !typeValid t then .error .invalidChunkType
      else if X.length < 4 + len.toNat then .error .unexpectedEof
      else match word4 (X.drop len.toNat) with
        | none => .error .unexpectedEof
        | some crc =>
          if chunkCrc t (X.take len.toNat) ≠ crc then .error .crcMismatch
          else if cfg.maxPayload.toNat < len.toNat then .error .cap
          else .ok (⟨t, len, X.take len.toNat, crc⟩, 12 + len.toNat) := by
  have h := parseChunk_fields cfg len t.toWord X
  rwa [be32Bytes_toWord, ChunkType.ofWord_toWord] at h

/-- Too few bytes for a header (R172, line 1). -/
theorem parseChunk_short (cfg : Params) {B : List Byte} (h : B.length < 8) :
    parseChunk cfg B = .error .unexpectedEof := by
  have h' : word4 (B.drop 4) = none := word4_none (by rw [List.length_drop]; omega)
  unfold parseChunk
  rw [h']
  cases word4 B <;> rfl

/-- Any eight bytes and more are two words and a rest. -/
theorem eq_fields_of_length {B : List Byte} (h : 8 ≤ B.length) :
    ∃ len tyr, B = be32Bytes len ++ be32Bytes tyr ++ B.drop 8 := by
  obtain ⟨len, hl⟩ := word4_eq_some_of_length (B := B) (by omega)
  obtain ⟨tyr, ht⟩ := word4_eq_some_of_length (B := B.drop 4) (by rw [List.length_drop]; omega)
  refine ⟨len, tyr, ?_⟩
  have h1 := word4_some hl
  have h2 := word4_some ht
  rw [List.drop_drop] at h2
  rw [List.append_assoc, ← h2, ← h1]

/-- R173 (a), (b): a chunk comes back from its frame, whatever follows. -/
theorem parseChunk_serChunk (cfg : Params) {c : Chunk} (h : c.Ok cfg) (X : List Byte) :
    parseChunk cfg (serChunk c ++ X) = .ok (c, 12 + c.len.toNat) := by
  obtain ⟨hv, hlen, hcap, hcrc⟩ := h
  have hser : serChunk c ++ X = be32Bytes c.len ++ be32Bytes c.type.toWord ++ (c.data ++ be32Bytes c.crc ++ X) := by
    simp [serChunk]
  have hdrop : (c.data ++ be32Bytes c.crc ++ X).drop c.len.toNat = be32Bytes c.crc ++ X := by
    rw [List.append_assoc, ← hlen, List.drop_left]
  have htake : (c.data ++ be32Bytes c.crc ++ X).take c.len.toNat = c.data := by
    rw [List.append_assoc, ← hlen, List.take_left]
  rw [hser, parseChunk_fields, hdrop, htake, word4_be32Bytes, ChunkType.ofWord_toWord]
  have h1 : ¬ (c.data ++ be32Bytes c.crc ++ X).length < 4 + c.len.toNat := by
    rw [List.length_append, List.length_append, be32Bytes_length]; omega
  have h2 : ¬ cfg.maxPayload.toNat < c.len.toNat := by omega
  rw [if_neg h1]
  simp [hv, h2, chunkCrc, ← hcrc]

/-- R173 (d): frames are read off the front of a sequence in one way only; with nothing following, `serChunk` is
injective on chunks whose length field counts their payload. -/
theorem serChunk_append_inj {c d : Chunk} (hc : c.data.length = c.len.toNat) (hd : d.data.length = d.len.toNat)
    {X Y : List Byte} (h : serChunk c ++ X = serChunk d ++ Y) : c = d ∧ X = Y := by
  obtain ⟨t, len, data, crc⟩ := c
  obtain ⟨u, len', data', crc'⟩ := d
  simp only [serChunk, List.append_assoc] at h
  obtain ⟨hl, h1⟩ := List.append_inj h rfl
  obtain ⟨ht, h2⟩ := List.append_inj h1 rfl
  obtain rfl := be32Bytes_inj hl
  obtain rfl := ChunkType.bytes_inj ht
  obtain ⟨rfl, h3⟩ := List.append_inj h2 (hc.trans hd.symm)
  obtain ⟨hcrc, rfl⟩ := List.append_inj h3 rfl
  obtain rfl := be32Bytes_inj hcrc
  exact ⟨rfl, rfl⟩

/-- R173 (g): every proper beginning of a frame is `UnexpectedEof`. -/
theorem parseChunk_take_serChunk (cfg : Params) {c : Chunk} (hv : typeValid c.type = true)
    (hlen : c.data.length = c.len.toNat) {k : Nat} (hk : k < 12 + c.len.toNat) :
    parseChunk cfg ((serChunk c).take k) = .error .unexpectedEof := by
  by_cases h8 : k < 8
  · exact parseChunk_short cfg (by rw [List.length_take]; omega)
  have hhead : (be32Bytes c.len ++ c.type.bytes).length = 8 := rfl
  have hcut : (serChunk c).take k =
      be32Bytes c.len ++ c.type.bytes ++ (c.data ++ be32Bytes c.crc).take (k - 8) := by
    rw [serChunk, List.append_assoc, List.take_append, hhead, List.take_of_length_le (by rw [hhead]; omega)]
  have hshort : ((c.data ++ be32Bytes c.crc).take (k - 8)).length < 4 + c.len.toNat := by
    rw [List.length_take, List.length_append, be32Bytes_length]; omega
  rw [hcut, parseChunk_typed, if_pos hshort, hv]
  rfl

/-- What an accepted frame is (R172, R173 c, e): the chunk is one, and its frame is the bytes it occupied. -/
theorem parseChunk_ok {cfg : Params} {B : List Byte} {c : Chunk} {k : Nat} (h : parseChunk cfg B = .ok (c, k)) :
    c.Ok cfg ∧ k = 12 + c.len.toNat ∧ k ≤ B.length ∧ B = serChunk c ++ B.drop k := by
  by_cases h8 : B.length < 8
  · rw [parseChunk_short cfg h8] at h; cases h
  obtain ⟨len, tyr, hB⟩ := eq_fields_of_length (B := B) (by omega)
  generalize B.drop 8 = X at hB
  subst hB
  rw [parseChunk_fields] at h
  split at h
  · cases h
  rename_i hv
  split at h
  · cases h
  rename_i hlen
  split at h
  · cases h
  rename_i crc hw
  split at h
  · cases h
  rename_i hcrc
  split at h
  · cases h
  rename_i hcap
  obtain ⟨rfl, rfl⟩ : _ = c ∧ _ = k := by simpa using h
  have hX := word4_some hw
  rw [List.drop_drop] at hX
  have htl : (X.take len.toNat).length = len.toNat := by rw [List.length_take]; omega
  have hdk : (be32Bytes len ++ be32Bytes tyr ++ X).drop (12 + len.toNat) = X.drop (len.toNat + 4) := by
    have h8' : (be32Bytes len ++ be32Bytes tyr ++ X).drop 8 = X := by simp [be32Bytes]
    rw [show 12 + len.toNat = 8 + (len.toNat + 4) by omega, ← List.drop_drop, h8']
  refine ⟨⟨by simpa using hv, htl, by simpa using hcap, ?_⟩, rfl, ?_, ?_⟩
  · exact (Classical.not_not.1 hcrc).symm
  · simp only [List.length_append, be32Bytes_length]; omega
  · rw [hdk]
    simp only [serChunk, ChunkType.bytes_ofWord, List.append_assoc]
    rw [← hX, List.take_append_drop]

@[simp] theorem signature_length : signature.length = 8 := rfl

theorem parseFrames_ser (cfg : Params) (fuel : Nat) (done cs : List Chunk) (hok : ∀ c ∈ cs, c.Ok cfg)
    (hn : (done ++ cs).length ≤ cfg.maxChunks.toNat) (hf : cs.length ≤ fuel) :
    parseFrames cfg fuel done (cs.flatMap serChunk) = .ok (done ++ cs) := by
  induction cs generalizing fuel done with
  | nil => cases fuel <;> simp [parseFrames]
  | cons c cs ih =>
    obtain ⟨fuel, rfl⟩ : ∃ f, fuel = f + 1 := ⟨fuel - 1, by simp at hf; omega⟩
    have hne : ∃ b rest, serChunk c ++ cs.flatMap serChunk = b :: rest := ⟨_, _, rfl⟩
    obtain ⟨b, rest, hb⟩ := hne
    have hp := parseChunk_serChunk cfg (hok c (by simp)) (cs.flatMap serChunk)
    have hd : (serChunk c ++ cs.flatMap serChunk).drop (12 + c.len.toNat) = cs.flatMap serChunk := by
      rw [← (hok c (by simp)).2.1, ← serChunk_length c, List.drop_left]
    rw [List.flatMap_cons, hb, parseFrames, ← hb, hp]
    simp only [List.length_append, List.length_cons] at hn hf
    simp only [show ¬ cfg.maxChunks.toNat ≤ done.length by omega, if_false, hd]
    rw [ih fuel (done ++ [c]) (fun x hx => hok x (by simp [hx])) (by simp; omega) (by omega)]
    simp

/-- R202 (a): a container comes back from its bytes. -/
theorem parseContainer_serContainer (cfg : Params) {cs : List Chunk} (h : StoreOk cfg cs) :
    parseContainer cfg (serContainer cs) = .ok cs := by
  have ht : (serContainer cs).take 8 = signature := List.take_left (l₁ := signature)
  have hd : (serContainer cs).drop 8 = cs.flatMap serChunk := List.drop_left (l₁ := signature)
  unfold parseContainer
  rw [ht, hd]
  simp only [ne_eq, not_true_eq_false, if_false]
  refine parseFrames_ser cfg _ [] cs h.1 (by simpa using h.2) ?_
  have : cs.length ≤ (cs.flatMap serChunk).length := by
    clear h ht hd
    induction cs with
    | nil => simp
    | cons c cs ih => simp only [List.flatMap_cons, List.length_append, serChunk_length, List.length_cons]; omega
  simp only [serContainer, List.length_append, signature_length]; omega

/-- R202 (b) for the loop: the frames accepted are the bytes consumed. -/
theorem parseFrames_ok {cfg : Params} {fuel : Nat} {done cs : List Chunk} {B : List Byte}
    (h : parseFrames cfg fuel done B = .ok cs) (hd : StoreOk cfg done) :
    StoreOk cfg cs ∧ ∃ more, cs = done ++ more ∧ B = more.flatMap serChunk := by
  induction fuel generalizing done B with
  | zero =>
    cases B with
    | nil => simp only [parseFrames, Except.ok.injEq] at h; subst h; exact ⟨hd, [], by simp⟩
    | cons b rest => simp [parseFrames] at h
  | succ fuel ih =>
    cases B with
    | nil => simp only [parseFrames, Except.ok.injEq] at h; subst h; exact ⟨hd, [], by simp⟩
    | cons b rest =>
      rw [parseFrames] at h
      split at h
      · cases h
      rename_i c k hp
      split at h
      · cases h
      rename_i hcap
      obtain ⟨hc, -, -, hB⟩ := parseChunk_ok hp
      obtain ⟨hs, more, rfl, hm⟩ := ih h ⟨by simp only [List.mem_append, List.mem_singleton]; rintro x (hx | rfl); exacts [hd.1 x hx, hc],
        by simp; omega⟩
      exact ⟨hs, c :: more, by simp, by rw [List.flatMap_cons, ← hm, ← hB]⟩

/-- R202 (b): an accepted container is the bytes it came from. -/
theorem parseContainer_ok {cfg : Params} {B : List Byte} {cs : List Chunk} (h : parseContainer cfg B = .ok cs) :
    StoreOk cfg cs ∧ serContainer cs = B := by
  unfold parseContainer at h
  split at h
  · cases h
  rename_i hsig
  obtain ⟨hs, more, hm, hB⟩ := parseFrames_ok h ⟨by simp, by simp⟩
  refine ⟨hs, ?_⟩
  rw [serContainer, hm, List.nil_append, ← hB, ← Classical.not_not.1 hsig, List.take_append_drop]

@[simp] theorem serContainer_length (cs : List Chunk) :
    (serContainer cs).length = 8 + (cs.map fun c => 12 + c.data.length).sum := by
  simp [serContainer, List.length_flatMap]

/-- R202 (c): the frames of a store are those of no other. -/
theorem flatMap_serChunk_inj {cs ds : List Chunk} (hc : ∀ c ∈ cs, c.data.length = c.len.toNat)
    (hd : ∀ d ∈ ds, d.data.length = d.len.toNat) (h : cs.flatMap serChunk = ds.flatMap serChunk) : cs = ds := by
  induction cs generalizing ds with
  | nil =>
    cases ds with
    | nil => rfl
    | cons d ds => simp [serChunk, be32Bytes] at h
  | cons c cs ih =>
    cases ds with
    | nil => simp [serChunk, be32Bytes] at h
    | cons d ds =>
      simp only [List.flatMap_cons] at h
      obtain ⟨rfl, htail⟩ := serChunk_append_inj (hc c (.head _)) (hd d (.head _)) h
      rw [ih (fun x hx => hc x (.tail _ hx)) (fun x hx => hd x (.tail _ hx)) htail]

theorem length_le_frames (cs : List Chunk) : cs.length ≤ (cs.flatMap serChunk).length := by
    induction cs with
    | nil => simp
    | cons c cs ih => simp only [List.flatMap_cons, List.length_append, serChunk_length, List.length_cons]; omega

/-- The loop over good frames followed by anything (R201). -/
theorem parseFrames_append (cfg : Params) (fuel : Nat) (done cs : List Chunk) (X : List Byte) (hok : ∀ c ∈ cs, c.Ok cfg)
    (hn : (done ++ cs).length ≤ cfg.maxChunks.toNat) :
    parseFrames cfg (fuel + cs.length) done (cs.flatMap serChunk ++ X) = parseFrames cfg fuel (done ++ cs) X := by
  induction cs generalizing done with
  | nil => simp
  | cons c cs ih =>
    have hne : ∃ b rest, serChunk c ++ (cs.flatMap serChunk ++ X) = b :: rest := ⟨_, _, rfl⟩
    obtain ⟨b, rest, hb⟩ := hne
    have hp := parseChunk_serChunk cfg (hok c (by simp)) (cs.flatMap serChunk ++ X)
    have hd : (serChunk c ++ (cs.flatMap serChunk ++ X)).drop (12 + c.len.toNat) = cs.flatMap serChunk ++ X := by
      rw [← (hok c (by simp)).2.1, ← serChunk_length c, List.drop_left]
    rw [List.flatMap_cons, List.append_assoc, hb, List.length_cons, ← Nat.add_assoc, parseFrames, ← hb, hp]
    simp only [List.length_append, List.length_cons] at hn
    simp only [show ¬ cfg.maxChunks.toNat ≤ done.length by omega, if_false, hd]
    rw [ih (done ++ [c]) (fun x hx => hok x (by simp [hx])) (by simp; omega)]
    simp

/-- A good container followed by anything (R201). -/
theorem parseContainer_append (cfg : Params) (cs : List Chunk) (X : List Byte) (h : StoreOk cfg cs) :
   ∃ fuel, X.length ≤ fuel ∧ parseContainer cfg (serContainer cs ++ X) = parseFrames cfg fuel cs X := by
  have hl := length_le_frames cs
  refine ⟨(serContainer cs ++ X).length - cs.length, ?_, ?_⟩
  · simp only [serContainer, List.length_append, signature_length]; omega
  · have ht : (serContainer cs ++ X).take 8 = signature := by rw [serContainer, List.append_assoc]; exact List.take_left (l₁ := signature)
    have hd : (serContainer cs ++ X).drop 8 = cs.flatMap serChunk ++ X := by rw [serContainer, List.append_assoc]; exact List.drop_left (l₁ := signature)
    unfold parseContainer
    rw [ht, hd]
    simp only [ne_eq, not_true_eq_false, if_false]
    have := parseFrames_append cfg ((serContainer cs ++ X).length - cs.length) [] cs X h.1 (by simpa using h.2)
    rw [Nat.sub_add_cancel (by simp only [serContainer, List.length_append, signature_length]; omega)] at this
    simpa using this

end Sys2Proof.Machine
end

