-- ==== Sys2Proof/Laws/State.lean ====
section
/-! SUPPORT. One lemma for each field of State under each named update, and the shared operations' answers. -/

namespace Sys2Proof.Machine

@[simp] theorem State.answer_ty (s : State) (code : Code) (info res : Word) (out : List Byte) :
    (s.answer code info res out).ty = s.ty := rfl

@[simp] theorem State.answer_ch (s : State) (code : Code) (info res : Word) (out : List Byte) :
    (s.answer code info res out).ch = s.ch := rfl

@[simp] theorem State.answer_cs (s : State) (code : Code) (info res : Word) (out : List Byte) :
    (s.answer code info res out).cs = s.cs := rfl

@[simp] theorem State.answer_crcacc (s : State) (code : Code) (info res : Word) (out : List Byte) :
    (s.answer code info res out).crcacc = s.crcacc := rfl

@[simp] theorem State.answer_code (s : State) (code : Code) (info res : Word) (out : List Byte) :
    (s.answer code info res out).code = code := rfl

@[simp] theorem State.answer_info (s : State) (code : Code) (info res : Word) (out : List Byte) :
    (s.answer code info res out).info = info := rfl

@[simp] theorem State.answer_res (s : State) (code : Code) (info res : Word) (out : List Byte) :
    (s.answer code info res out).res = res := rfl

@[simp] theorem State.answer_out (s : State) (code : Code) (info res : Word) (out : List Byte) :
    (s.answer code info res out).out = out := rfl

@[simp] theorem State.answer_eng (s : State) (code : Code) (info res : Word) (out : List Byte) :
    (s.answer code info res out).eng = s.eng := rfl

@[simp] theorem State.answer_cfg (s : State) (code : Code) (info res : Word) (out : List Byte) :
    (s.answer code info res out).cfg = s.cfg := rfl

@[simp] theorem State.answer_host (s : State) (code : Code) (info res : Word) (out : List Byte) :
    (s.answer code info res out).host = s.host := rfl

@[simp] theorem State.resetRegs_ty (s : State) : s.resetRegs.ty = none := rfl

@[simp] theorem State.resetRegs_ch (s : State) : s.resetRegs.ch = none := rfl

@[simp] theorem State.resetRegs_cs (s : State) : s.resetRegs.cs = [] := rfl

@[simp] theorem State.resetRegs_crcacc (s : State) : s.resetRegs.crcacc = crcInitial := rfl

@[simp] theorem State.resetRegs_code (s : State) : s.resetRegs.code = .ok := rfl

@[simp] theorem State.resetRegs_info (s : State) : s.resetRegs.info = 0 := rfl

@[simp] theorem State.resetRegs_res (s : State) : s.resetRegs.res = 0 := rfl

@[simp] theorem State.resetRegs_out (s : State) : s.resetRegs.out = [] := rfl

@[simp] theorem State.resetRegs_eng (s : State) : s.resetRegs.eng = none := rfl

@[simp] theorem State.resetRegs_cfg (s : State) : s.resetRegs.cfg = s.cfg := rfl

@[simp] theorem State.resetRegs_host (s : State) : s.resetRegs.host = s.host := rfl

@[simp] theorem State.idle_ty (s : State) : s.idle.ty = s.ty := rfl

@[simp] theorem State.idle_ch (s : State) : s.idle.ch = s.ch := rfl

@[simp] theorem State.idle_cs (s : State) : s.idle.cs = s.cs := rfl

@[simp] theorem State.idle_crcacc (s : State) : s.idle.crcacc = s.crcacc := rfl

@[simp] theorem State.idle_code (s : State) : s.idle.code = s.code := rfl

@[simp] theorem State.idle_info (s : State) : s.idle.info = s.info := rfl

@[simp] theorem State.idle_res (s : State) : s.idle.res = s.res := rfl

@[simp] theorem State.idle_out (s : State) : s.idle.out = s.out := rfl

@[simp] theorem State.idle_eng (s : State) : s.idle.eng = none := rfl

@[simp] theorem State.idle_cfg (s : State) : s.idle.cfg = s.cfg := rfl

@[simp] theorem State.idle_host (s : State) : s.idle.host = s.host := rfl

theorem State.idle_of_eng_none {s : State} (h : s.eng = none) : s.idle = s := by
  cases s; cases h; rfl

/-- A second response replaces the first whole. -/
@[simp] theorem State.answer_answer (s : State) (c c' : Code) (i i' r r' : Word) (o o' : List Byte) :
    (s.answer c i r o).answer c' i' r' o' = s.answer c' i' r' o' := rfl

end Sys2Proof.Machine
end

