-- ==== Sys2Proof/Laws/Ops.lean ====
section
/-! SUPPORT. For each shared operation, once, everything it can answer. -/

namespace Sys2Proof.Machine

@[simp] theorem succeed_next {res : Word} {out : List Byte} {s t : State} :
    succeed res out s = .next t ↔ t = s.answer .ok 0 res out := by
  simp [succeed, eq_comm]

@[simp] theorem raise_next {code : Code} {info : Word} {s t : State} :
    raise code info s = .next t ↔ t = s.answer code info 0 [] := by
  simp [raise, eq_comm]

@[simp] theorem raiseProtocol_next {why : SubReason} {s t : State} :
    raiseProtocol why s = .next t ↔ t = s.answer .protocol why.word 0 [] := raise_next

@[simp] theorem raiseFrame_next {e : FrameError} {index : Word} {s t : State} :
    raiseFrame e index s = .next t ↔ t = s.answer e.code (e.info index) 0 [] := raise_next

@[simp] theorem deliverChunk_next {c : Chunk} {s t : State} :
    deliverChunk c s = .next t ↔ t = { s with ch := some c }.answer .ok 0 0 [] := succeed_next

/-- A load succeeds iff the four bytes are letters (R127, R128). -/
theorem loadType_next {ct : ChunkType} {s t : State} :
    loadType ct s = .next t ↔
      typeValid ct = true ∧ t = { s with ty := some ct }.answer .ok 0 0 [] ∨
        typeValid ct = false ∧ t = s.answer .invalidChunkType 0 0 [] := by
  unfold loadType
  cases typeValid ct <;> simp

@[simp] theorem withType_some {s : State} {ct : ChunkType} (h : s.ty = some ct) (run : ChunkType → Result) :
    withType s run = run ct := by simp [withType, h]

@[simp] theorem withType_none {s : State} (h : s.ty = none) (run : ChunkType → Result) :
    withType s run = raiseProtocol .empty s := by simp [withType, h]

@[simp] theorem withChunk_some {s : State} {c : Chunk} (h : s.ch = some c) (run : Chunk → Result) :
    withChunk s run = run c := by simp [withChunk, h]

@[simp] theorem withChunk_none {s : State} (h : s.ch = none) (run : Chunk → Result) :
    withChunk s run = raiseProtocol .empty s := by simp [withChunk, h]

/-- An operation on `TY` answers `P_EMPTY` or what it does with the loaded type (R292). -/
theorem withType_next {s t : State} {run : ChunkType → Result} :
    withType s run = .next t ↔
      (∃ ct, s.ty = some ct ∧ run ct = .next t) ∨ s.ty = none ∧ t = s.answer .protocol 2 0 [] := by
  cases h : s.ty <;> simp [h, SubReason.word]

/-- An operation on `CH` answers `P_EMPTY` or what it does with the loaded chunk (R292). -/
theorem withChunk_next {s t : State} {run : Chunk → Result} :
    withChunk s run = .next t ↔
      (∃ c, s.ch = some c ∧ run c = .next t) ∨ s.ch = none ∧ t = s.answer .protocol 2 0 [] := by
  cases h : s.ch <;> simp [h, SubReason.word]

/-- A property read answers `P_EMPTY` or the property as 1 or 0 (R131 to R135). -/
theorem readProperty_next {p : ChunkType → Bool} {s t : State} :
    readProperty p s = .next t ↔
      (∃ ct, s.ty = some ct ∧ t = s.answer .ok 0 (boolWord (p ct)) []) ∨
        s.ty = none ∧ t = s.answer .protocol 2 0 [] := by
  simp [readProperty, withType_next]

theorem textType_eq_some {text : List Byte} {t : ChunkType} : textType text = some t ↔ text = t.bytes := by
  constructor
  · intro h
    match text, h with
    | [b0, b1, b2, b3], h => obtain rfl : ChunkType.mk b0 b1 b2 b3 = t := by simpa [textType] using h
                             rfl
  · rintro rfl; rfl

theorem textType_eq_none {text : List Byte} (h : text.length ≠ 4) : textType text = none := by
  cases ht : textType text with
  | none => rfl
  | some t => rw [textType_eq_some] at ht; subst ht; simp at h

/-- What the search finds is the first entry of the type, and the store splits around it (R206, R207). -/
theorem findChunk_eq_some {cs : List Chunk} {t : ChunkType} {c : Chunk} :
    findChunk cs t = some c ↔
      c.type = t ∧ ∃ pre post, cs = pre ++ c :: post ∧ ∀ x ∈ pre, x.type ≠ t := by
  simp [findChunk, List.find?_eq_some_iff_append]

theorem findChunk_eq_none {cs : List Chunk} {t : ChunkType} :
    findChunk cs t = none ↔ ∀ x ∈ cs, x.type ≠ t := by
  simp [findChunk]

theorem removeChunk_split {pre post : List Chunk} {c : Chunk} {t : ChunkType} (hc : c.type = t)
    (hpre : ∀ x ∈ pre, x.type ≠ t) : removeChunk (pre ++ c :: post) t = pre ++ post := by
  have h : ∀ x ∈ pre, ¬ (x.type == t) = true := by simpa using hpre
  rw [removeChunk, List.eraseP_append_right _ h, List.eraseP_cons_of_pos (by simpa using hc)]

@[simp] theorem textType_bytes (t : ChunkType) : textType t.bytes = some t := rfl

end Sys2Proof.Machine
end

