-- ==== Sys2Proof/Laws/Port.lean ====
section
/-! SUPPORT. Runs step by step, and what the port does with the head of what the host has lined up. -/

namespace Sys2Proof.Machine

/-- A run whose first step answers goes on from there. -/
theorem run_next {k} {s t : State} (h : step s = .next t) : Host.Core.run core (k+1) s = Host.Core.run core k t := by
  simp only [Host.Core.run]; rw [show core.step s = .next t from h]

theorem run_zero (s : State) : Host.Core.run core 0 s = .next s := rfl

/-- An operation begun at Level S (R250). -/
theorem step_start {s : State} {cmd arg rest i} (he : s.eng = none) (hd : decode ⟨cmd, arg, []⟩ = .ok i) :
   step { s with host := .start cmd arg :: rest } = startOp i { s with host := rest } := by
  simp only [step, serve, he, serveIdle, startCommand, hd]

/-- A whole operation (R14). -/
theorem step_op {s : State} {r : Request} {rest i} (he : s.eng = none) (hd : decode r = .ok i) :
   step { s with host := .op r :: rest } = exec i { s with host := rest } := by
  simp only [step, serve, he, serveIdle, runRequest, hd]

theorem wireForm_input (cmd arg input rest) (h : inputCodes.contains cmd = true) : wireForm ⟨cmd, arg, input⟩ ++ rest
    = HostEvent.start cmd arg :: (input.map .byte ++ .eos :: rest) := by
  simp only [wireForm, h, if_true]; simp

theorem decode_cmd {r : Request} {i : Instr} (h : decode r = .ok i) : i.cmd = r.cmd := by
  revert h; unfold decode
  split <;> rintro ⟨⟩ <;> simp_all [Instr.cmd]

theorem decode_err {r : Request} {e} (h : decode r = .error e) : inputCodes.contains r.cmd = false := by
  revert h; unfold decode
  split <;> rintro ⟨⟩
  simp [inputCodes]; simp_all

end Sys2Proof.Machine
end

