-- ==== Sys2Proof/Laws/Emit.lean ====
section
/-! SUPPORT. The serializers over a whole output: field by field, frame by frame (R259). -/

namespace Sys2Proof.Machine

/-- From `r` the serializer emits the bytes of the list and then EOS. -/
def Emits (s : State) : EmitRegs → List Byte → Prop
  | r, [] => r.next s = .eos
  | r, b :: L => ∃ r', r.next s = .byte b r' ∧ r'.pend = r.pend ∧ Emits s { r' with staged := r.staged ++ [b] } L

theorem next_congr (r : EmitRegs) (s s' : State) (h1 : s.ty = s'.ty) (h2 : s.ch = s'.ch) (h3 : s.cs = s'.cs) : r.next
    s = r.next s' := by
  have hf : r.frame s = r.frame s' := by
    unfold EmitRegs.frame; rw [h2, h3]
  unfold EmitRegs.next emitFrame; rw [h1, h2, hf]

theorem emits_congr (s s' : State) (h1 : s.ty = s'.ty) (h2 : s.ch = s'.ch) (h3 : s.cs = s'.cs) (r) (L)
    (h : Emits s r L) : Emits s' r L := by
  induction L generalizing r with
  | nil => exact (next_congr r s s' h1 h2 h3).symm.trans h
  | cons b L ih =>
    obtain ⟨r', a1, a2, a3⟩ := h
    exact ⟨r', (next_congr r s s' h1 h2 h3).symm.trans a1, a2, ih _ a3⟩

/-- Emitting as a run of the machine. -/
theorem emit_run (L : List Byte) (r : EmitRegs) (s : State) (he : s.eng = some (.emit r))
    (hr : s.host.head? ≠ some .reset) (hp : r.pend.code = .ok) (hE : Emits s r L) :
   Host.Core.run core (L.length + 1) s = .next (s.idle.answer .ok 0 0 (r.staged ++ L)) := by
  have hserve : step s = r.emitStep s := by
    simp only [step, serve, he]
    unfold serveOutput
    cases hh : s.host with
    | nil => rfl
    | cons ev rest => cases ev <;> first | rfl | (rw [hh] at hr; simp at hr)
  induction L generalizing r s with
  | nil =>
    refine run_next ?_
    rw [hserve, EmitRegs.emitStep, if_neg (by rw [hp]; simp), show r.next s = .eos from hE, List.append_nil]
    rfl
  | cons b L ih =>
    obtain ⟨r', a1, a2, a3⟩ := hE
    have : step s = .next { s with eng := some (.emit { r' with staged := r.staged ++ [b] }) } := by
      rw [hserve, EmitRegs.emitStep, if_neg (by rw [hp]; simp), a1]
    rw [List.length_cons, run_next this, ih { r' with staged := r.staged ++ [b] } { s with eng := some (.emit { r' with staged := r.staged ++ [b] }) } rfl hr (by rw [← hp, ← a2]) (emits_congr s { s with eng := some (.emit { r' with staged := r.staged ++ [b] }) } rfl rfl rfl _ _ a3)]
    · simp [State.idle]
    · simp only [step, serve]
      unfold serveOutput
      cases hh : s.host with
      | nil => rfl
      | cons ev rest => cases ev <;> first | rfl | (rw [hh] at hr; simp at hr)

/-- A single field emitted to its end. -/
theorem emits_bytes (s : State) (F : List Byte) (len : Word) (hF : F.length = len.toNat) (P : EmitRegs → Prop)
   (hn : ∀ r, P r → r.next s = emitBytes r F len) (hP : ∀ r bc st, P r → P { r with bc := bc, staged := st }) (r : EmitRegs) (hr : P r) (hb : r.bc.toNat ≤ F.length) : Emits s r (F.drop r.bc.toNat) := by
  obtain ⟨k, hk⟩ : ∃ k, F.length - r.bc.toNat = k := ⟨_, rfl⟩
  induction k generalizing r with
  | zero =>
    rw [List.drop_eq_nil_of_le (by omega)]
    show r.next s = .eos
    rw [hn r hr, emitBytes, if_pos (by bv_omega)]
  | succ k ih =>
    have hlt : r.bc.toNat < F.length := by omega
    have hlen := len.isLt
    have hbc : (r.bc + 1).toNat = r.bc.toNat + 1 := by bv_omega
    rw [List.drop_eq_getElem_cons hlt]
    refine ⟨{ r with bc := r.bc + 1 }, ?_, rfl, ?_⟩
    · rw [hn r hr, emitBytes, if_neg (by bv_omega), List.getElem?_eq_getElem hlt]
    · have := ih { r with bc := r.bc + 1, staged := r.staged ++ [F[r.bc.toNat]] } (hP _ _ _ hr) (by dsimp only; omega) (by dsimp only; omega)
      dsimp only at this
      rwa [hbc] at this


/-- One field of a frame. -/
theorem emits_field (s : State) (F : List Byte) (last : Word) (hF : F.length = last.toNat + 1) (L : List Byte)
    (P : EmitRegs → Prop) (nx : EmitRegs → EmitRegs)
   (hn : ∀ r, P r → r.next s = emitField r F last (nx r)) (hnp : ∀ r, (nx r).pend = r.pend)
       (hP : ∀ r bc st, P r → P { r with bc := bc, staged := st })
   (hL : ∀ r st, P r → Emits s { nx r with staged := st } L)
   (r : EmitRegs) (hr : P r) (hb : r.bc.toNat < F.length) : Emits s r (F.drop r.bc.toNat ++ L) := by
  obtain ⟨k, hk⟩ : ∃ k, F.length - 1 - r.bc.toNat = k := ⟨_, rfl⟩
  induction k generalizing r with
  | zero =>
    have hlt : r.bc.toNat < F.length := by omega
    rw [List.drop_eq_getElem_cons hlt, List.drop_eq_nil_of_le (by omega)]
    refine ⟨nx r, ?_, hnp r, hL r _ hr⟩
    rw [hn r hr, emitField, List.getElem?_eq_getElem hlt]
    dsimp only
    rw [if_pos (by bv_omega)]
  | succ k ih =>
    have hlt : r.bc.toNat < F.length := by omega
    have hlen := last.isLt
    have hbc : (r.bc + 1).toNat = r.bc.toNat + 1 := by bv_omega
    rw [List.drop_eq_getElem_cons hlt]
    refine ⟨{ r with bc := r.bc + 1 }, ?_, rfl, ?_⟩
    · rw [hn r hr, emitField, List.getElem?_eq_getElem hlt]
      dsimp only
      rw [if_neg (by bv_omega)]
    · have := ih { r with bc := r.bc + 1, staged := r.staged ++ [F[r.bc.toNat]] } (hP _ _ _ hr) (by dsimp only; omega) (by dsimp only; omega)
      dsimp only at this
      rwa [hbc] at this

theorem frame_ext (r : EmitRegs) (ph bc st) (s : State) : ({ r with ph := ph, bc := bc, staged := st } :
    EmitRegs).frame s = r.frame s := by
  obtain ⟨j, _, _, _, _, _⟩ := r; cases j <;> rfl


/-- One whole frame. -/
theorem emits_frame (s : State) (c : Chunk) (hc : c.data.length = c.len.toNat) (L : List Byte) (job : EmitJob)
    (hj : job = .ctSer ∨ job = .chSer) (idx : Word)
   (hfr : ∀ r : EmitRegs, r.job = job → r.idx = idx → r.frame s = some c)
   (hL : ∀ r : EmitRegs, r.job = job → r.ph = .len → r.bc = 0 → r.idx = idx + 1 → Emits s r L)
   (r : EmitRegs) (h1 : r.job = job) (h2 : r.ph = .len) (h3 : r.bc = 0) (h4 : r.idx = idx) : Emits s r (serChunk c ++ L) := by
  have hnext : ∀ r : EmitRegs, r.job = job → r.next s = emitFrame r s := by
    intro r h; unfold EmitRegs.next; rw [h]; rcases hj with rfl | rfl <;> rfl
  have hser : serChunk c ++ L = be32Bytes c.len ++ (c.type.bytes ++ (c.data ++ (be32Bytes c.crc ++ L))) := by simp [serChunk]
  rw [hser]
  have E : ∀ ph, ∀ r : EmitRegs, (r.job = job ∧ r.idx = idx ∧ r.ph = ph) → r.next s = emitFrame r s ∧ r.frame s =
      some c := fun ph r h => ⟨hnext r h.1, hfr r h.1 h.2.1⟩
  have hcrc : ∀ r : EmitRegs, (r.job = job ∧ r.idx = idx ∧ r.ph = .crcf) → r.bc = 0 → Emits s r (be32Bytes c.crc ++ L) := by
    intro r hr hb
    have := emits_field s (be32Bytes c.crc) 3 rfl L (fun r => r.job = job ∧ r.idx = idx ∧ r.ph = .crcf)
        (fun r => { r with ph := .len, bc := 0, idx := r.idx + 1 })
      (fun r h => by obtain ⟨e1, e2⟩ := E _ r h; rw [e1]; unfold emitFrame; rw [e2, h.2.2]) (fun _ => rfl) (fun _ _ _ h => h)
      (fun r st h => hL _ h.1 rfl rfl (by simp [h.2.1])) r hr (by rw [hb]; exact Nat.zero_lt_succ _)
    rwa [hb] at this
  have hdata : ∀ r : EmitRegs, (r.job = job ∧ r.idx = idx ∧ r.ph = (if c.len = 0 then .crcf else .data)) → r.bc = 0 → Emits s r (c.data ++ (be32Bytes c.crc ++ L)) := by
    intro r hr hb
    by_cases hl : c.len = 0
    · rw [if_pos hl] at hr
      have : c.data = [] := List.eq_nil_of_length_eq_zero (by rw [hc, hl]; rfl)
      rw [this]
      exact hcrc r hr hb
    · rw [if_neg hl] at hr
      have hlen : c.data.length = (c.len - 1).toNat + 1 := by rw [hc]; bv_omega
      have := emits_field s c.data (c.len - 1) hlen (be32Bytes c.crc ++ L)
          (fun r => r.job = job ∧ r.idx = idx ∧ r.ph = .data) (fun r => { r with ph := .crcf, bc := 0 })
        (fun r h => by obtain ⟨e1, e2⟩ := E _ r h; rw [e1]; unfold emitFrame; rw [e2, h.2.2]) (fun _ => rfl) (fun _ _ _ h => h)
        (fun r st h => hcrc _ ⟨h.1, h.2.1, rfl⟩ rfl) r hr (by rw [hb, hlen]; simp)
      rwa [hb] at this
  have htype : ∀ r : EmitRegs, (r.job = job ∧ r.idx = idx ∧ r.ph = .type) → r.bc = 0 → Emits s r (c.type.bytes ++ (c.data ++ (be32Bytes c.crc ++ L))) := by
    intro r hr hb
    have := emits_field s c.type.bytes 3 rfl (c.data ++ (be32Bytes c.crc ++ L))
        (fun r => r.job = job ∧ r.idx = idx ∧ r.ph = .type) (fun r =>
        { r with ph := if c.len = 0 then .crcf else .data, bc := 0 })
      (fun r h => by obtain ⟨e1, e2⟩ := E _ r h; rw [e1]; unfold emitFrame; rw [e2, h.2.2]) (fun _ => rfl) (fun _ _ _ h => h)
      (fun r st h => hdata _ ⟨h.1, h.2.1, rfl⟩ rfl) r hr (by rw [hb]; exact Nat.zero_lt_succ _)
    rwa [hb] at this
  have := emits_field s (be32Bytes c.len) 3 rfl (c.type.bytes ++ (c.data ++ (be32Bytes c.crc ++ L)))
      (fun r => r.job = job ∧ r.idx = idx ∧ r.ph = .len) (fun r => { r with ph := .type, bc := 0 })
      (fun r h => by obtain ⟨e1, e2⟩ := E _ r h; rw [e1]; unfold emitFrame; rw [e2, h.2.2]) (fun _ => rfl) (fun _ _ _ h => h)
      (fun r st h => htype _ ⟨h.1, h.2.1, rfl⟩ rfl) r ⟨h1, h4, h2⟩ (by rw [h3]; exact Nat.zero_lt_succ _)
  rwa [h3] at this

theorem emits_end (s : State) (job : EmitJob) (hj : job = .ctSer ∨ job = .chSer) (r : EmitRegs) (h1 : r.job = job)
    (h2 : r.ph = .len) (h3 : r.bc = 0) (hf : r.frame s = none) : Emits s r [] := by
  show r.next s = .eos
  have : r.next s = emitFrame r s := by unfold EmitRegs.next; rw [h1]; rcases hj with rfl | rfl <;> rfl
  rw [this]; unfold emitFrame; rw [h2, hf]; dsimp only; rw [if_pos h3]

/-- The frames of the store from one index on. -/
theorem emits_store (s : State) (hok : ∀ c ∈ s.cs, c.data.length = c.len.toNat) (hn : s.cs.length < 2 ^ 32)
    (pre post : List Chunk) (h : s.cs = pre ++ post)
    (r : EmitRegs) (h1 : r.job = .ctSer) (h2 : r.ph = .len) (h3 : r.bc = 0) (h4 : r.idx = BitVec.ofNat 32 pre.length) : Emits s r (post.flatMap serChunk) := by
  induction post generalizing pre r with
  | nil =>
    refine emits_end s .ctSer (.inl rfl) r h1 h2 h3 ?_
    simp at h
    unfold EmitRegs.frame; rw [h1, h4]; dsimp only
    have : (BitVec.ofNat 32 pre.length).toNat = pre.length := by rw [BitVec.toNat_ofNat, Nat.mod_eq_of_lt (by rw [← h]; exact hn)]
    rw [this, h]; simp
  | cons c post ih =>
    rw [List.flatMap_cons]
    have hpl : pre.length < 2 ^ 32 := by rw [h] at hn; simp at hn; omega
    refine emits_frame s c (hok c (by rw [h]; simp)) _ .ctSer (.inl rfl) (BitVec.ofNat 32 pre.length) ?_ ?_ r h1 h2 h3 h4
    · intro r e1 e2
      unfold EmitRegs.frame; rw [e1, e2]; dsimp only
      rw [BitVec.toNat_ofNat, Nat.mod_eq_of_lt hpl, h]; simp
    · intro r e1 e2 e3 e4
      refine ih (pre ++ [c]) (by rw [h]; simp) r e1 e2 e3 ?_
      rw [e4, List.length_append, BitVec.ofNat_add]; rfl

/-- The signature. -/
theorem emits_sig (s : State) (L) (hL : ∀ r : EmitRegs, r.job = .ctSer → r.ph = .len → r.bc = 0 → r.idx = 0 → Emits s
    r L) (r : EmitRegs) (h1 : r.job = .ctSer) (h2 : r.ph = .sig) (h3 : r.bc = 0) (h4 : r.idx = 0) : Emits s r
    (signature ++ L) := by
  have := emits_field s signature 7 rfl L (fun r => r.job = .ctSer ∧ r.idx = 0 ∧ r.ph = .sig)
      (fun r => { r with ph := .len, bc := 0 })
      (fun r h => by unfold EmitRegs.next emitFrame; simp only [h.1, h.2.2]) (fun _ => rfl) (fun _ _ _ h => h)
      (fun r st h => hL _ h.1 rfl rfl h.2.1) r ⟨h1, h4, h2⟩ (by rw [h3]; exact Nat.zero_lt_succ _)
  rwa [h3] at this

theorem emit_err (r : EmitRegs) (s : State) (he : s.eng = some (.emit r)) (hr : s.host.head? ≠ some .reset)
    (hp : r.pend.code ≠ .ok) :
   Host.Core.run core 1 s = .next (s.idle.answer r.pend.code r.pend.info 0 []) := by
  refine run_next (k := 0) ?_
  simp only [step, serve, he]
  have : serveOutput r s = r.emitStep s := by
    unfold serveOutput
    cases hh : s.host with
    | nil => rfl
    | cons ev rest => cases ev <;> first | rfl | (rw [hh] at hr; simp at hr)
  rw [this, EmitRegs.emitStep, if_pos hp]; rfl

end Sys2Proof.Machine
end

