-- ==== Sys2Proof/Laws/Inv.lean ====
section
/-! SUPPORT. The state invariant under each kind of answer. -/

namespace Sys2Proof.Machine

theorem inv_answer {s : State} {code : Code} {info res : Word} {out : List Byte} (hi : s.Inv) (he : s.eng = none)
    (h : ResponseOk (s.answer code info res out)) : (s.answer code info res out).Inv :=
  ⟨hi.type, hi.chunk, hi.store, h, by simp [EngineOk, he]⟩

theorem responseOk_ok (s : State) (res : Word) (out : List Byte) : ResponseOk (s.answer .ok 0 res out) := by
  simp [ResponseOk]

theorem responseOk_error (s : State) (code : Code) (info : Word) (h : Pend.IsError ⟨code, info⟩) : ResponseOk
    (s.answer code info 0 []) := by
  obtain ⟨h1, h2⟩ := h
  refine ⟨fun h => absurd h h1, fun _ => ⟨rfl, rfl⟩, h2⟩

/-- The response a failed frame gets is an error response (R290, R292). -/
theorem frameError_isError (e : FrameError) (i : Word) : Pend.IsError ⟨e.code, e.info i⟩ := by
  cases e <;> simp [Pend.IsError, FrameError.code, FrameError.info, SubReason.word]

theorem subReason_isError (w : SubReason) : Pend.IsError ⟨.protocol, w.word⟩ := by
  cases w <;> simp [Pend.IsError, SubReason.word]

theorem inv_setTy {s : State} {t} (hi : s.Inv) (he : s.eng = none) (ht : typeValid t = true) :
   ({ s with ty := some t }.answer .ok 0 0 []).Inv :=
  ⟨by rintro _ ⟨⟩; exact ht, hi.chunk, hi.store, responseOk_ok _ _ _, by simp [EngineOk, he]⟩

theorem inv_setCh {s : State} {c : Chunk} (hi : s.Inv) (he : s.eng = none) (hc : c.Ok s.cfg) :
   ({ s with ch := some c }.answer .ok 0 0 []).Inv :=
  ⟨hi.type, by rintro _ ⟨⟩; exact hc, hi.store, responseOk_ok _ _ _, by simp [EngineOk, he]⟩

theorem inv_setCs {s : State} {cs} (hi : s.Inv) (he : s.eng = none) (hc : StoreOk s.cfg cs) :
   ({ s with cs := cs }.answer .ok 0 0 []).Inv :=
  ⟨hi.type, hi.chunk, hc, responseOk_ok _ _ _, by simp [EngineOk, he]⟩

/-- R173 (e): a chunk built from a valid type and a payload that fits meets I-CH. -/
theorem mkChunk_ok (cfg : Params) {t d} (ht : typeValid t = true) (h : d.length ≤ cfg.maxPayload.toNat) :
    (mkChunk t d).Ok cfg := by
  have : d.length < 2 ^ 32 := lt_of_le_of_lt h cfg.maxPayload.isLt
  refine ⟨ht, ?_, ?_, rfl⟩ <;> simp only [mkChunk, BitVec.toNat_ofNat, Nat.mod_eq_of_lt this]
  exact h

theorem inv_ok {s : State} {res out} (hi : s.Inv) (he : s.eng = none) : (s.answer .ok 0 res out).Inv :=
  inv_answer hi he (responseOk_ok _ _ _)

theorem inv_empty {s : State} (hi : s.Inv) (he : s.eng = none) : (s.answer .protocol 2 0 []).Inv :=
  inv_answer hi he (responseOk_error _ _ _ (subReason_isError .empty))

theorem inv_error {s : State} {code info} (hi : s.Inv) (he : s.eng = none) (h : code ≠ .ok) (h' : code ≠ .protocol) :
    (s.answer code info 0 []).Inv :=
  inv_answer hi he (responseOk_error _ _ _ ⟨h, fun h => absurd h h'⟩)

/-- A load keeps I-TY (R21). -/
theorem inv_load {s t : State} {ct} (hi : s.Inv) (he : s.eng = none) (h : loadType ct s = .next t) : t.Inv := by
  rw [loadType_next] at h
  rcases h with ⟨hv, rfl⟩ | ⟨hv, rfl⟩
  · exact inv_setTy hi he hv
  · exact inv_error hi he (by simp) (by simp)

theorem inv_host {s : State} (rest) (h : s.Inv) : ({ s with host := rest }).Inv := by
  obtain ⟨h1, h2, h3, h4, h5⟩ := h
  refine ⟨h1, h2, h3, h4, ?_⟩
  obtain ⟨ty, ch, cs, ca, code, info, res, out, eng, cfg, host⟩ := s
  cases eng with
  | none => trivial
  | some e => cases e <;> exact h5

theorem inv_idle {s : State} (h : s.Inv) : s.idle.Inv := ⟨h.type, h.chunk, h.store, h.response, trivial⟩

theorem inv_eng {s : State} {e} (h : s.Inv) (he : EngineOk { s with eng := some e }) : ({ s with eng := some e }).Inv
    := ⟨h.type, h.chunk, h.store, h.response, he⟩

theorem inv_reset (s : State) (rest) : ({ s.resetRegs with host := rest } : State).Inv :=
  ⟨by rintro _ ⟨⟩, by rintro _ ⟨⟩, ⟨by rintro _ h; simp at h, Nat.zero_le _⟩, by simp [ResponseOk], by simp [EngineOk]⟩

end Sys2Proof.Machine
end

