-- ==== Sys2Proof/Laws/Engine.lean ====
section
/-! SUPPORT. Each engine keeps what it holds in each phase, item by item (R251 to R259). -/

namespace Sys2Proof.Machine

theorem ParseRegs.fail_ok {cfg} {r : ParseRegs} {code info} (h : StoreOk cfg r.sh) (h2 : r.idx.toNat = r.sh.length)
    (hp : Pend.IsError ⟨code, info⟩) : (r.fail code info).Ok cfg :=
  ⟨h, h2, ⟨_, rfl, .inl hp⟩⟩

theorem isError_of_document {code info} (h : code ≠ .ok) (h' : code ≠ .protocol) : Pend.IsError ⟨code, info⟩ :=
    ⟨h, fun h => absurd h h'⟩

theorem signature_getElem {n : Nat} (h : n < 8) : ∃ b, signature[n]? = some b := by
  exact ⟨_, List.getElem?_eq_getElem (by simpa using h)⟩

/-- R252. -/
theorem takeSig_ok {cfg} {r : ParseRegs} (b : Byte) (hok : r.Ok cfg) (hph : r.ph = .sig) : ∃ r', takeSig r b = some
    r' ∧ r'.Ok cfg := by
  obtain ⟨h1, h2, h3⟩ := hok
  rw [ParseRegs.PhaseOk, hph] at h3
  dsimp only at h3
  obtain ⟨hm, hbc⟩ := h3
  obtain ⟨w, hw⟩ := signature_getElem (n := r.bc.toNat) (by simpa [BitVec.lt_def] using hbc)
  unfold takeSig
  rw [hw]
  dsimp only
  split
  · exact ⟨_, rfl, ParseRegs.fail_ok h1 h2 (isError_of_document (by simp) (by simp))⟩
  · split
    · exact ⟨_, rfl, h1, h2, by simp [ParseRegs.PhaseOk]⟩
    · refine ⟨_, rfl, h1, h2, ?_⟩
      simp only [ParseRegs.PhaseOk, hph]
      exact ⟨hm, by bv_omega⟩

/-- R253. -/
theorem takeLen_ok {cfg} {r : ParseRegs} (b : Byte) (hok : r.Ok cfg) (hph : r.ph = .len) : (takeLen r b).Ok cfg := by
  obtain ⟨h1, h2, h3⟩ := hok
  rw [ParseRegs.PhaseOk, hph] at h3
  dsimp only at h3
  unfold takeLen
  split
  · exact ⟨h1, h2, by simp [ParseRegs.PhaseOk]⟩
  · refine ⟨h1, h2, ?_⟩
    simp only [ParseRegs.PhaseOk, hph]
    bv_omega

/-- R254. -/
theorem takeType_ok {cfg} {r : ParseRegs} (b : Byte) (hok : r.Ok cfg) (hph : r.ph = .type) : (takeType cfg r b).Ok
    cfg := by
  obtain ⟨h1, h2, h3⟩ := hok
  rw [ParseRegs.PhaseOk, hph] at h3
  dsimp only at h3
  unfold takeType
  dsimp only
  split
  · split
    · exact ParseRegs.fail_ok h1 h2 (isError_of_document (by simp) (by simp))
    · rename_i hv
      have hp : ∀ n : Nat, n = 0 → ∀ ph, ParseRegs.PayloadOk cfg { r with tyr := shiftIn r.tyr b, acc := some (crcRun crcInitial (be32Bytes (shiftIn r.tyr b))), sd := [], ovf := decide (cfg.maxPayload < r.lenr), bc := 0, crcr := 0, ph := ph } n := by
        rintro n rfl ph
        refine ⟨by simpa using hv, rfl, _, rfl, fun _ => ⟨rfl, by simp⟩⟩
      refine ⟨h1, h2, ?_⟩
      by_cases hl : r.lenr = 0
      · simp only [ParseRegs.PhaseOk, hl, if_true]
        have := hp 0 rfl .crcf
        exact ⟨by decide, by simpa [ParseRegs.PayloadOk, hl] using this⟩
      · simp only [ParseRegs.PhaseOk, hl, if_false]
        exact ⟨by bv_omega, hp _ (by simp) _⟩
  · refine ⟨h1, h2, ?_⟩
    simp only [ParseRegs.PhaseOk, hph]
    bv_omega

/-- R255. -/
theorem takeData_ok {cfg} {r : ParseRegs} (b : Byte) (hok : r.Ok cfg) (hph : r.ph = .data) : (takeData r b).Ok cfg :=
    by
  obtain ⟨h1, h2, h3⟩ := hok
  rw [ParseRegs.PhaseOk, hph] at h3
  dsimp only at h3
  obtain ⟨hlt, hv, ho, acc, hacc, hd⟩ := h3
  have key : (r.bc + 1).toNat = r.bc.toNat + 1 := by bv_omega
  have hp : ∀ n : Nat, n = r.bc.toNat + 1 → ∀ ph bc crcr, ParseRegs.PayloadOk cfg { r with sd := if r.ovf then r.sd else r.sd ++ [b], acc := r.acc.map fun a => crcUpd a b, ph := ph, bc := bc, crcr := crcr } n := by
    rintro n rfl ph bc crcr
    refine ⟨hv, ho, _, by rw [hacc]; rfl, fun h => ?_⟩
    dsimp only at h
    obtain ⟨e1, e2⟩ := hd h
    simp only [h]
    refine ⟨by simp [e1], ?_⟩
    rw [e2]; simp [← List.append_assoc]
    rw [crcRun_append]; simp [crcRun_append]
  unfold takeData
  dsimp only
  split
  · rename_i h
    refine ⟨h1, h2, ?_⟩
    simp only [ParseRegs.PhaseOk]
    exact ⟨by decide, hp _ (by rw [← h, key]) _ _ _⟩
  · refine ⟨h1, h2, ?_⟩
    simp only [ParseRegs.PhaseOk, hph]
    exact ⟨by bv_omega, hp _ (by rw [key]) _ _ _⟩

/-- R256. -/
theorem takeCrcf_ok {cfg} {r : ParseRegs} (b : Byte) (hok : r.Ok cfg) (hph : r.ph = .crcf) : ∃ r', takeCrcf cfg r b =
    some r' ∧ r'.Ok cfg := by
  obtain ⟨h1, h2, h3⟩ := hok
  rw [ParseRegs.PhaseOk, hph] at h3
  dsimp only at h3
  obtain ⟨hlt, hv, ho, acc, hacc, hd⟩ := h3
  unfold takeCrcf
  dsimp only
  split
  · rw [hacc]
    dsimp only
    split
    · exact ⟨_, rfl, ParseRegs.fail_ok h1 h2 (isError_of_document (by simp) (by simp))⟩
    split
    · exact ⟨_, rfl, ParseRegs.fail_ok h1 h2 (subReason_isError .cap)⟩
    split
    · exact ⟨_, rfl, ParseRegs.fail_ok h1 h2 (subReason_isError .cap)⟩
    rename_i hc hov hcap
    simp only [Bool.not_eq_true] at hov
    obtain ⟨e1, e2⟩ := hd hov
    have hck : Chunk.Ok cfg ⟨.ofWord r.tyr, r.lenr, r.sd, shiftIn r.crcr b⟩ := by
      refine ⟨hv, e1, ?_, ?_⟩
      · rw [hov] at ho; simp [BitVec.lt_def] at ho; simpa using ho
      · simp only [ne_eq, not_not] at hc; rw [hc, e2]; rfl
    refine ⟨_, rfl, ?_⟩
    unfold acceptFrame
    dsimp only
    cases hm : r.mode with
    | cont =>
      simp only [hm, true_and, not_le] at hcap
      have := cfg.maxChunks.isLt
      refine ⟨⟨?_, by simp; omega⟩, ?_, by simp [ParseRegs.PhaseOk]⟩
      · intro x hx; rcases List.mem_append.1 hx with hx | hx
        · exact h1.1 x hx
        · simp at hx; subst hx; exact hck
      · simp; omega
    | chunk => exact ⟨h1, h2, _, rfl, .inr ⟨rfl, rfl, _, rfl, hck⟩⟩
  · refine ⟨_, rfl, h1, h2, ?_⟩
    simp only [ParseRegs.PhaseOk, hph]
    exact ⟨by bv_omega, hv, ho, acc, hacc, hd⟩

/-- A parser takes any byte, in any phase. -/
theorem ParseRegs.takeByte_ok {cfg} {r : ParseRegs} (b : Byte) (hok : r.Ok cfg) : ∃ r', r.takeByte cfg b = some r' ∧
    r'.Ok cfg := by
  unfold ParseRegs.takeByte
  cases hph : r.ph with
  | sig => exact takeSig_ok b hok hph
  | len => exact ⟨_, rfl, takeLen_ok b hok hph⟩
  | type => exact ⟨_, rfl, takeType_ok b hok hph⟩
  | data => exact ⟨_, rfl, takeData_ok b hok hph⟩
  | crcf => exact takeCrcf_ok b hok hph
  | drain => exact ⟨_, rfl, hok⟩

/-- A parser completes at any EOS (R257). -/
theorem ParseRegs.takeEos_ok {s : State} {r : ParseRegs} (hi : s.idle.Inv) (hok : r.Ok s.cfg) : ∃ t p, r.takeEos =
    some p ∧ r.complete p s = .next t ∧ t.Inv ∧ t.eng = none ∧ t.host = s.host := by
  have herr : ∀ p : Pend, p.IsError → ∃ t, r.complete p s = .next t ∧ t.Inv ∧ t.eng = none ∧ t.host = s.host := by
    intro p hp
    refine ⟨_, by unfold ParseRegs.complete; rw [if_pos hp.1]; rfl, inv_answer hi rfl (responseOk_error _ _ _ hp), rfl, rfl⟩
  obtain ⟨h1, h2, h3⟩ := hok
  unfold ParseRegs.takeEos
  rw [ParseRegs.PhaseOk] at h3
  cases hph : r.ph <;> simp only [hph] at h3 <;> dsimp only
  case drain =>
    obtain ⟨p, hp, h | ⟨rfl, hm, c, hc, hck⟩⟩ := h3
    · obtain ⟨t, ht⟩ := herr p h; exact ⟨t, p, hp, ht⟩
    · refine ⟨_, _, hp, by simp [ParseRegs.complete, hm, hc, succeed], inv_setCh hi rfl hck, rfl, rfl⟩
  case len =>
    split
    · rename_i h
      refine ⟨_, _, rfl, by simp [ParseRegs.complete, h.1, succeed], inv_setCs hi rfl h1, rfl, rfl⟩
    · obtain ⟨t, ht⟩ := herr _ (isError_of_document (info := r.frameInfo) (code := .unexpectedEof) (by simp) (by simp)); exact ⟨t, _, rfl, ht⟩
  all_goals
    first
    | (obtain ⟨t, ht⟩ := herr _ (isError_of_document (info := r.frameInfo) (code := .unexpectedEof) (by simp) (by simp)); exact ⟨t, _, rfl, ht⟩)
    | (obtain ⟨t, ht⟩ := herr _ (isError_of_document (info := 0) (code := .badSignature) (by simp) (by simp)); exact ⟨t, _, rfl, ht⟩)

/-- R258. -/
theorem BuildRegs.takeByte_ok {cfg ty} {r : BuildRegs} (b : Byte) (hok : r.Ok cfg ty) : (r.takeByte cfg b).Ok cfg ty
    := by
  rcases hok with ⟨hph, t, ht, hl, hle, ha⟩ | ⟨hph, hp⟩
  · unfold BuildRegs.takeByte
    rw [hph]; dsimp only
    split
    · exact .inl ⟨rfl, t, ht, hl, hle, ha⟩
    · refine .inl ⟨rfl, t, ht, ?_, ?_, ?_⟩
      · simp [hl]; bv_omega
      · bv_omega
      · rw [ha, ← List.append_assoc, crcRun_append _ (t.bytes ++ r.sd) [b]]; rfl
  · unfold BuildRegs.takeByte
    rw [hph]; exact .inr ⟨hph, hp⟩

/-- R258. -/
theorem BuildRegs.complete_ok {s : State} {r : BuildRegs} (hi : s.idle.Inv) (hok : r.Ok s.cfg s.ty) : ∃ t, r.complete
    s = .next t ∧ t.Inv ∧ t.eng = none ∧ t.host = s.host := by
  rcases hok with ⟨hph, t, ht, hl, hle, ha⟩ | ⟨hph, p, hp, he⟩
  · unfold BuildRegs.complete
    rw [hph]; dsimp only
    split
    · exact ⟨_, rfl, inv_answer hi rfl (responseOk_error _ _ _ (subReason_isError .cap)), rfl, rfl⟩
    · rw [ht]; dsimp only
      refine ⟨_, rfl, inv_setCh hi rfl ⟨hi.type _ ht, hl, ?_, ?_⟩, rfl, rfl⟩
      · exact hle
      · rw [ha]; rfl
  · unfold BuildRegs.complete
    rw [hph, hp]; dsimp only
    exact ⟨_, rfl, inv_answer hi rfl (responseOk_error _ _ _ he), rfl, rfl⟩

/-- R261. -/
theorem TextRegs.complete_ok {s : State} {r : TextRegs} (hi : s.idle.Inv) : ∃ t, r.complete s = .next t ∧ t.Inv ∧
    t.eng = none ∧ t.host = s.host := by
  unfold TextRegs.complete
  split
  · obtain ⟨t, ht⟩ : ∃ t, loadType (.ofWord r.tyr) s.idle = .next t := by unfold loadType; split <;> exact ⟨_, rfl⟩
    refine ⟨t, ht, inv_load hi rfl ht, ?_⟩
    rw [loadType_next] at ht
    rcases ht with ⟨_, rfl⟩ | ⟨_, rfl⟩ <;> exact ⟨rfl, rfl⟩
  · exact ⟨_, rfl, inv_error hi rfl (by simp) (by simp), rfl, rfl⟩

theorem emitField_ok {r r2 : EmitRegs} {field : List Byte} {last : Word} (hlen : field.length = last.toNat + 1)
    (hlt : r.bc ≤ last) :
   ∃ b, field[r.bc.toNat]? = some b ∧ emitField r field last r2 = .byte b (if r.bc = last then r2 else { r with bc := r.bc + 1 }) := by
  have : r.bc.toNat < field.length := by rw [hlen]; bv_omega
  refine ⟨field[r.bc.toNat], List.getElem?_eq_getElem this, ?_⟩
  unfold emitField; rw [List.getElem?_eq_getElem this]


/-- The counters after an output item point at a byte that is there. -/
def NextOk (s : State) (r : EmitRegs) : OutItem → Prop
  | .byte _ r' => r'.PhaseOk s ∧ r'.pend = r.pend
  | .eos => True
  | .absent => False

theorem frame_chunk_ok {s : State} (hi : s.Inv) {r : EmitRegs} {c} (h : r.frame s = some c) : c.Ok s.cfg := by
  unfold EmitRegs.frame at h
  cases hj : r.job <;> simp only [hj] at h
  case ctSer => exact hi.store.1 _ (List.mem_of_getElem? h)
  all_goals
    split at h
    · exact hi.chunk _ h
    · cases h

/-- R259, frames. -/
theorem emitFrame_ok {s : State} (hi : s.Inv) {r : EmitRegs} (hj : r.job = .ctSer ∨ r.job = .chSer) (h : r.PhaseOk s)
    : NextOk s r (emitFrame r s) := by
  have hf : ∀ ph bc, ({ r with ph := ph, bc := bc } : EmitRegs).frame s = r.frame s := by intro ph bc; obtain ⟨j, _, _, _, _, _⟩ := r; cases j <;> rfl
  have hf' : ∀ bc, ({ r with bc := bc } : EmitRegs).frame s = r.frame s := by intro bc; obtain ⟨j, _, _, _, _, _⟩ := r; cases j <;> rfl
  have hP : ∀ r' : EmitRegs, r'.job = r.job → (r'.PhaseOk s ↔ (match r'.ph with
    | .sig => r'.bc < 8
    | .len => r'.bc < 4 ∧ (r'.bc = 0 ∨ (r'.frame s).isSome)
    | .type => r'.bc < 4 ∧ (r'.frame s).isSome
    | .data => ∃ c, r'.frame s = some c ∧ r'.bc < c.len
    | .crcf => r'.bc < 4 ∧ (r'.frame s).isSome
    | .drain => False)) := by
    intro r' hr'
    unfold EmitRegs.PhaseOk
    rw [hr']
    rcases hj with hj | hj <;> simp only [hj] <;> exact Iff.rfl
  rw [hP r rfl] at h
  unfold emitFrame
  cases hph : r.ph <;> simp only [hph] at h <;> try dsimp only
  case sig =>
    obtain ⟨b, -, hb⟩ := emitField_ok (r := r) (r2 := { r with ph := .len, bc := 0 }) (field := signature) (last := 7) rfl (by bv_omega)
    rw [hb]
    refine ⟨?_, by split <;> rfl⟩
    split
    · rw [hP _ (by rfl)]; exact ⟨by simp, .inl rfl⟩
    · rw [hP _ (by rfl)]; simp only [hph]; bv_omega
  all_goals cases hfr : r.frame s with
    | none => ?_
    | some c => ?_
  all_goals simp only [hfr] at h
  case len.none =>
    have : r.bc = 0 := by simpa using h.2
    simp [this, NextOk]
  case type.none => simp at h
  case data.none => simp at h
  case crcf.none => simp at h
  case len.some =>
    obtain ⟨b, -, hb⟩ := emitField_ok (r := r) (r2 := { r with ph := .type, bc := 0 }) (field := be32Bytes c.len) (last := 3) rfl (by have := h.1; bv_omega)
    dsimp only; rw [hb]
    refine ⟨?_, by split <;> rfl⟩
    split
    · rw [hP _ (by rfl)]; simp only [hf, hfr]; exact ⟨by decide, rfl⟩
    · rw [hP _ (by rfl)]; simp only [hph, hf, hfr]; have := h.1; exact ⟨by bv_omega, .inr rfl⟩
  case type.some =>
    obtain ⟨b, -, hb⟩ := emitField_ok (r := r) (r2 := { r with ph := if c.len = 0 then .crcf else .data, bc := 0 }) (field := c.type.bytes) (last := 3) rfl (by have := h.1; bv_omega)
    dsimp only; rw [hb]
    refine ⟨?_, by split <;> rfl⟩
    split
    · rw [hP _ (by rfl)]
      by_cases hl : c.len = 0
      · simp only [hl, if_true, hf, hfr]; exact ⟨by decide, rfl⟩
      · simp only [hl, if_false, hf, hfr]; exact ⟨c, rfl, by bv_omega⟩
    · rw [hP _ (by rfl)]; simp only [hph, hf, hfr]; have := h.1; exact ⟨by bv_omega, rfl⟩
  case data.some =>
    obtain ⟨c', hc', hlt⟩ := h
    cases hc'
    have hok := (frame_chunk_ok hi hfr).2.1
    obtain ⟨b, -, hb⟩ := emitField_ok (r := r) (r2 := { r with ph := .crcf, bc := 0 }) (field := c.data) (last := c.len - 1) (by rw [hok]; bv_omega) (by bv_omega)
    dsimp only; rw [hb]
    refine ⟨?_, by split <;> rfl⟩
    split
    · rw [hP _ (by rfl)]; simp only [hf, hfr]; exact ⟨by decide, rfl⟩
    · rw [hP _ (by rfl)]; simp only [hph, hf, hfr]; exact ⟨c, rfl, by bv_omega⟩
  case crcf.some =>
    obtain ⟨b, -, hb⟩ := emitField_ok (r := r) (r2 := { r with ph := .len, bc := 0, idx := r.idx + 1 }) (field := be32Bytes c.crc) (last := 3) rfl (by have := h.1; bv_omega)
    dsimp only; rw [hb]
    refine ⟨?_, by split <;> rfl⟩
    split
    · rw [hP _ (by rfl)]; exact ⟨by simp, .inl rfl⟩
    · rw [hP _ (by rfl)]; simp only [hph, hf, hfr]; have := h.1; exact ⟨by bv_omega, rfl⟩

/-- R259, every emitting operation. -/
theorem emitNext_ok {s : State} (hi : s.Inv) {r : EmitRegs} (h : r.PhaseOk s) : NextOk s r (r.next s) := by
  unfold EmitRegs.next
  have h0 := h
  unfold EmitRegs.PhaseOk at h
  cases hj : r.job <;> simp only [hj] at h <;> dsimp only
  case chSer => exact emitFrame_ok hi (.inr hj) h0
  case ctSer => exact emitFrame_ok hi (.inl hj) h0
  case tyRdt =>
    obtain ⟨h1, h2⟩ := h
    obtain ⟨t, ht⟩ := Option.isSome_iff_exists.1 h1
    rw [ht]; dsimp only
    unfold emitBytes
    split
    · trivial
    · have : r.bc.toNat < t.bytes.length := by simp; bv_omega
      rw [List.getElem?_eq_getElem this]
      refine ⟨?_, rfl⟩
      simp only [EmitRegs.PhaseOk, hj, ht]
      exact ⟨rfl, by bv_omega⟩
  all_goals
    obtain ⟨c, hc, h2⟩ := h
    rw [hc]; dsimp only
    unfold emitBytes
    split
    · trivial
    · have := (hi.chunk _ hc).2.1
      have : r.bc.toNat < c.data.length := by rw [this]; bv_omega
      rw [List.getElem?_eq_getElem this]
      refine ⟨?_, rfl⟩
      simp only [EmitRegs.PhaseOk, hj]
      exact ⟨c, hc, by bv_omega⟩

theorem phaseOk_staged {s : State} {r : EmitRegs} (st) (h : r.PhaseOk s) :
    ({ r with staged := st } : EmitRegs).PhaseOk s := by
  exact h

theorem phaseOk_eng {s : State} {r : EmitRegs} (e) (h : r.PhaseOk s) : r.PhaseOk { s with eng := e } := h

/-- An emit step answers, and keeps the invariant. -/
theorem emitStep_ok {s : State} {r : EmitRegs} (hi : s.Inv) (h : r.Ok s) : ∃ t, r.emitStep s = .next t ∧ t.Inv ∧
    (t.eng = none ∨ ∃ r', t.eng = some (.emit r')) ∧ t.host = s.host := by
  unfold EmitRegs.emitStep
  rcases h with he | ⟨hp, hph⟩
  · rw [if_pos he.1]
    exact ⟨_, rfl, inv_answer (inv_idle hi) rfl (responseOk_error _ _ _ he), .inl rfl, rfl⟩
  · rw [if_neg (by rw [hp]; simp)]
    have := emitNext_ok hi hph
    cases hn : r.next s <;> rw [hn] at this <;> dsimp only
    · refine ⟨_, rfl, inv_eng hi (.inr ⟨this.2.trans hp, this.1⟩), .inr ⟨_, rfl⟩, rfl⟩
    · exact ⟨_, rfl, inv_ok (inv_idle hi) rfl, .inl rfl, rfl⟩
    · exact this.elim

/-- R259, the start step. -/
theorem startEmit_ok {s : State} (_ : s.Inv) (job) : (startEmit job s).Ok s := by
  unfold startEmit
  by_cases h : (job.verdict s) = ⟨.ok, 0⟩
  · refine .inr ⟨h, ?_⟩
    cases job <;> simp only [EmitRegs.PhaseOk, EmitJob.firstPhase]
    case chSer => simp
    case ctSer => simp
    case tyRdt =>
      refine ⟨?_, by simp⟩
      by_contra hh; simp [EmitJob.verdict, hh] at h
    case chData =>
      unfold EmitJob.verdict at h
      cases hc : s.ch with
      | none => simp [hc] at h
      | some c => exact ⟨c, rfl, by bv_omega⟩
    case chText =>
      unfold EmitJob.verdict at h
      cases hc : s.ch with
      | none => simp [hc] at h
      | some c => exact ⟨c, rfl, by bv_omega⟩
  · refine .inl ?_
    unfold EmitJob.verdict at h ⊢
    revert h
    cases job <;> (repeat' (first | split | dsimp only)) <;> intro h <;> first | exact absurd rfl h | exact subReason_isError .empty | exact isError_of_document (by simp) (by simp)

/-- R258, the start step. -/
theorem startBuild_ok (s : State) : (startBuild s).Ok s.cfg s.ty := by
  unfold startBuild
  cases h : s.ty with
  | none => exact .inr ⟨rfl, _, rfl, subReason_isError .empty⟩
  | some t => exact .inl ⟨rfl, t, rfl, rfl, by bv_omega, by simp⟩

/-- R251. -/
theorem startParse_ok (cfg) (m) : (startParse m).Ok cfg := by
  refine ⟨⟨by simp [startParse], by simp [startParse]⟩, by simp [startParse], ?_⟩
  cases m <;> simp [startParse, ParseRegs.PhaseOk]

end Sys2Proof.Machine
end

