-- ==== Sys2Proof/Laws/PerInstr.lean ====
section
/-! SUPPORT. Statements made once for each instruction: the fields of its request (R80, R82, R84, R51). -/

namespace Sys2Proof.Laws

/-- The unit an instruction belongs to: field UNIT of R80's table. -/
def unitOf : Instr → BitVec 4
  | .tyLdb _ | .tyLdt _ | .tyRdb | .tyRdt | .tyCrit | .tyPub | .tyRsv | .tySafe | .tyWrt => 0
  | .crcInit | .crcUpd _ | .crcRd => 1
  | .chNew _ | .chParse _ | .chSer | .chLen | .chType | .chData | .chCrc | .chText => 2
  | .ctParse _ | .ctSer | .ctAppend | .ctRemove | .ctFind | .ctCount | .ctGet _ => 3
  | .sysReset => 7

/-- The instruction's command word has the UNIT of its unit and an assigned FUNC, the argument word is zero where R84
gives it no format, and a stream comes only with an operation that takes one. -/
def CommandFields.Statement (i : Instr) : Prop :=
  unitField (encode i).cmd = unitOf i ∧ (encode i).assigned = true ∧
    (argMask (encode i).cmd = 0 → (encode i).arg = 0) ∧ (inputCodes.contains (encode i).cmd = false → (encode i).input = [])

theorem CommandFields.tyLdb (t : ChunkType) : CommandFields.Statement (.tyLdb t) := by
  refine ⟨?_, ?_, ?_, ?_⟩
  · show unitField 0x00#8 = 0#4; decide
  · show assignedCodes.contains 0x00#8 = true; decide
  · exact fun h => absurd h (show ¬ argMask 0x00#8 = 0 by decide)
  · exact fun _ => rfl

theorem CommandFields.tyLdt (x : List Byte) : CommandFields.Statement (.tyLdt x) := by
  refine ⟨?_, ?_, ?_, ?_⟩
  · show unitField 0x01#8 = 0#4; decide
  · show assignedCodes.contains 0x01#8 = true; decide
  · exact fun _ => rfl
  · exact fun h => absurd h (show ¬ inputCodes.contains 0x01#8 = false by decide)

theorem CommandFields.tyRdb : CommandFields.Statement .tyRdb := ⟨rfl, rfl, fun _ => rfl, fun _ => rfl⟩

theorem CommandFields.tyRdt : CommandFields.Statement .tyRdt := ⟨rfl, rfl, fun _ => rfl, fun _ => rfl⟩

theorem CommandFields.tyCrit : CommandFields.Statement .tyCrit := ⟨rfl, rfl, fun _ => rfl, fun _ => rfl⟩

theorem CommandFields.tyPub : CommandFields.Statement .tyPub := ⟨rfl, rfl, fun _ => rfl, fun _ => rfl⟩

theorem CommandFields.tyRsv : CommandFields.Statement .tyRsv := ⟨rfl, rfl, fun _ => rfl, fun _ => rfl⟩

theorem CommandFields.tySafe : CommandFields.Statement .tySafe := ⟨rfl, rfl, fun _ => rfl, fun _ => rfl⟩

theorem CommandFields.tyWrt : CommandFields.Statement .tyWrt := ⟨rfl, rfl, fun _ => rfl, fun _ => rfl⟩

theorem CommandFields.crcInit : CommandFields.Statement .crcInit := ⟨rfl, rfl, fun _ => rfl, fun _ => rfl⟩

theorem CommandFields.crcUpd (b : Byte) : CommandFields.Statement (.crcUpd b) := by
  refine ⟨?_, ?_, ?_, ?_⟩
  · show unitField 0x11#8 = 1#4; decide
  · show assignedCodes.contains 0x11#8 = true; decide
  · exact fun h => absurd h (show ¬ argMask 0x11#8 = 0 by decide)
  · exact fun _ => rfl

theorem CommandFields.crcRd : CommandFields.Statement .crcRd := ⟨rfl, rfl, fun _ => rfl, fun _ => rfl⟩

theorem CommandFields.chNew (x : List Byte) : CommandFields.Statement (.chNew x) := by
  refine ⟨?_, ?_, ?_, ?_⟩
  · show unitField 0x20#8 = 2#4; decide
  · show assignedCodes.contains 0x20#8 = true; decide
  · exact fun _ => rfl
  · exact fun h => absurd h (show ¬ inputCodes.contains 0x20#8 = false by decide)

theorem CommandFields.chParse (x : List Byte) : CommandFields.Statement (.chParse x) := by
  refine ⟨?_, ?_, ?_, ?_⟩
  · show unitField 0x21#8 = 2#4; decide
  · show assignedCodes.contains 0x21#8 = true; decide
  · exact fun _ => rfl
  · exact fun h => absurd h (show ¬ inputCodes.contains 0x21#8 = false by decide)

theorem CommandFields.chSer : CommandFields.Statement .chSer := ⟨rfl, rfl, fun _ => rfl, fun _ => rfl⟩

theorem CommandFields.chLen : CommandFields.Statement .chLen := ⟨rfl, rfl, fun _ => rfl, fun _ => rfl⟩

theorem CommandFields.chType : CommandFields.Statement .chType := ⟨rfl, rfl, fun _ => rfl, fun _ => rfl⟩

theorem CommandFields.chData : CommandFields.Statement .chData := ⟨rfl, rfl, fun _ => rfl, fun _ => rfl⟩

theorem CommandFields.chCrc : CommandFields.Statement .chCrc := ⟨rfl, rfl, fun _ => rfl, fun _ => rfl⟩

theorem CommandFields.chText : CommandFields.Statement .chText := ⟨rfl, rfl, fun _ => rfl, fun _ => rfl⟩

theorem CommandFields.ctParse (x : List Byte) : CommandFields.Statement (.ctParse x) := by
  refine ⟨?_, ?_, ?_, ?_⟩
  · show unitField 0x30#8 = 3#4; decide
  · show assignedCodes.contains 0x30#8 = true; decide
  · exact fun _ => rfl
  · exact fun h => absurd h (show ¬ inputCodes.contains 0x30#8 = false by decide)

theorem CommandFields.ctSer : CommandFields.Statement .ctSer := ⟨rfl, rfl, fun _ => rfl, fun _ => rfl⟩

theorem CommandFields.ctAppend : CommandFields.Statement .ctAppend := ⟨rfl, rfl, fun _ => rfl, fun _ => rfl⟩

theorem CommandFields.ctRemove : CommandFields.Statement .ctRemove := ⟨rfl, rfl, fun _ => rfl, fun _ => rfl⟩

theorem CommandFields.ctFind : CommandFields.Statement .ctFind := ⟨rfl, rfl, fun _ => rfl, fun _ => rfl⟩

theorem CommandFields.ctCount : CommandFields.Statement .ctCount := ⟨rfl, rfl, fun _ => rfl, fun _ => rfl⟩

theorem CommandFields.ctGet (k : Word) : CommandFields.Statement (.ctGet k) := by
  refine ⟨?_, ?_, ?_, ?_⟩
  · show unitField 0x36#8 = 3#4; decide
  · show assignedCodes.contains 0x36#8 = true; decide
  · exact fun h => absurd h (show ¬ argMask 0x36#8 = 0 by decide)
  · exact fun _ => rfl

theorem CommandFields.sysReset : CommandFields.Statement .sysReset := ⟨rfl, rfl, fun _ => rfl, fun _ => rfl⟩

end Sys2Proof.Laws
end

