-- ==== Sys2Proof/Laws/Serial.lean ====
section
/-! SUPPORT. The input engines over a whole stream: field by field, frame by frame (R252 to R258, R261). -/

namespace Sys2Proof.Machine

/-- A parser fed the bytes of a list one by one. -/
def feed (cfg : Params) : ParseRegs → List Byte → Option ParseRegs
  | r, [] => some r
  | r, b :: B => (r.takeByte cfg b).bind (feed cfg · B)

theorem feed_append (cfg) (r : ParseRegs) (A B) : feed cfg r (A ++ B) = (feed cfg r A).bind (feed cfg · B) := by
  induction A generalizing r with
  | nil => rfl
  | cons b A ih => simp only [List.cons_append, feed]; cases r.takeByte cfg b <;> simp [ih]

theorem feed_drain (cfg) (r : ParseRegs) (h : r.ph = .drain) (B) : feed cfg r B = some r := by
  induction B with
  | nil => rfl
  | cons b B ih => simp [feed, ParseRegs.takeByte, h, ih]

theorem complete_eng (r : ParseRegs) (p) (s : State) (e) : r.complete p { s with eng := e } = r.complete p s := rfl

/-- Feeding, then EOS, as a run of the machine. -/
theorem run_parse (r : ParseRegs) (B : List Byte) (s : State) (rest) (he : s.eng = some (.parse r))
    (hh : s.host = B.map .byte ++ .eos :: rest)
   {r' p t} (hf : feed s.cfg r B = some r') (hp : r'.takeEos = some p)
       (ht : r'.complete p { s with host := rest } = .next t) :
   Host.Core.run core (B.length + 1) s = .next t := by
  induction B generalizing r s with
  | nil =>
    cases hf
    have : step s = .next t := by
      simp only [List.map_nil, List.nil_append] at hh
      simp only [step, serve, he, serveInput, hh, Engine.takeEos, hp]
      exact ht
    exact run_next this
  | cons b B ih =>
    simp only [feed, Option.bind_eq_some_iff] at hf
    obtain ⟨r1, h1, h2⟩ := hf
    have : step s = .next { s with host := B.map .byte ++ .eos :: rest, eng := some (.parse r1) } := by
      simp only [List.map_cons, List.cons_append] at hh
      simp only [step, serve, he, serveInput, hh, Engine.takeByte, h1]
    rw [List.length_cons, run_next this]
    exact ih r1 _ rfl rfl h2 ht

theorem shiftIn_four (b0 b1 b2 b3 : Byte) : shiftIn (shiftIn (shiftIn (shiftIn 0#32 b0) b1) b2) b3 = be32 b0 b1 b2 b3
    := by
  ext i hi; simp [shiftIn, be32]; grind

/-- R253. -/
theorem feed_len (cfg) (r : ParseRegs) (v : Word) (h1 : r.ph = .len) (h2 : r.bc = 0) (h3 : r.lenr = 0) :
   feed cfg r (be32Bytes v) = some { r with lenr := v, ph := .type, bc := 0, tyr := 0 } := by
  obtain ⟨mode, ph, bc, lenr, tyr, crcr, acc, idx, ovf, pend, kept, sd, sh⟩ := r
  dsimp only at h1 h2 h3; subst h1 h2 h3
  have := shiftIn_four (wordByte v 0) (wordByte v 1) (wordByte v 2) (wordByte v 3)
  rw [be32_wordByte] at this
  simp only [be32Bytes, feed, ParseRegs.takeByte, takeLen, Option.bind_some]
  simp [this]

/-- R254. -/
theorem feed_type (cfg) (r : ParseRegs) (v : Word) (h1 : r.ph = .type) (h2 : r.bc = 0) (h3 : r.tyr = 0) :
   feed cfg r (be32Bytes v) = some (if !typeValid (.ofWord v) then { r with tyr := v, bc := 4 }.fail
       .invalidChunkType r.frameInfo
    else { r with tyr := v, acc := some (crcRun crcInitial (be32Bytes v)), sd := [], ovf := decide (cfg.maxPayload < r.lenr), bc := 0, crcr := 0, ph := if r.lenr = 0 then .crcf else .data }) := by
  obtain ⟨mode, ph, bc, lenr, tyr, crcr, acc, idx, ovf, pend, kept, sd, sh⟩ := r
  dsimp only at h1 h2 h3; subst h1 h2 h3
  have := shiftIn_four (wordByte v 0) (wordByte v 1) (wordByte v 2) (wordByte v 3)
  rw [be32_wordByte] at this
  simp only [be32Bytes, feed, ParseRegs.takeByte, takeType, Option.bind_some]
  simp [this, ParseRegs.frameInfo]

theorem feed_data_part (cfg) (D : List Byte) (r : ParseRegs) (h1 : r.ph = .data)
    (h2 : r.bc.toNat + D.length < r.lenr.toNat) :
   feed cfg r D = some { r with sd := if r.ovf then r.sd else r.sd ++ D, acc := r.acc.map fun a => crcRun a D, bc := r.bc + BitVec.ofNat 32 D.length } := by
  induction D generalizing r with
  | nil =>
    obtain ⟨mode, ph, bc, lenr, tyr, crcr, acc, idx, ovf, pend, kept, sd, sh⟩ := r
    simp [feed]
  | cons b D ih =>
    simp only [List.length_cons] at h2
    have hn : ¬ r.bc + 1 = r.lenr := by
      have := r.lenr.isLt
      intro h; rw [← h] at h2; bv_omega
    have hb : (r.bc + 1).toNat = r.bc.toNat + 1 := by have := r.lenr.isLt; bv_omega
    simp only [feed, ParseRegs.takeByte, h1, takeData, Option.bind_some, hn, if_false]
    rw [ih _ rfl (by dsimp only; omega)]
    simp only [Option.map_map]
    have e1 : r.bc + 1 + BitVec.ofNat 32 D.length = r.bc + BitVec.ofNat 32 (b :: D).length := by
      simp only [List.length_cons]
      rw [BitVec.add_assoc]; congr 1; rw [BitVec.ofNat_add, BitVec.add_comm]; rfl
    rw [e1]
    congr 2
    cases r.ovf <;> simp

/-- R255. -/
theorem feed_data (cfg) (D : List Byte) (r : ParseRegs) (h1 : r.ph = .data) (h0 : r.bc = 0)
    (h2 : D.length = r.lenr.toNat) (h3 : r.lenr ≠ 0) :
   feed cfg r D = some { r with sd := if r.ovf then r.sd else r.sd ++ D, acc := r.acc.map fun a => crcRun a D, ph := .crcf, bc := 0, crcr := 0 } := by
  have hne : D ≠ [] := by rintro rfl; simp at h2; exact h3 (by bv_omega)
  obtain ⟨D', b, rfl⟩ : ∃ D' b, D = D' ++ [b] := ⟨D.dropLast, D.getLast hne, (List.dropLast_append_getLast hne).symm⟩
  simp only [List.length_append, List.length_cons, List.length_nil] at h2
  rw [feed_append, feed_data_part cfg D' r h1 (by rw [h0]; simp; omega)]
  have hl : r.bc + BitVec.ofNat 32 D'.length + 1 = r.lenr := by
    rw [h0]; have := r.lenr.isLt; bv_omega
  simp only [Option.bind_some, feed, ParseRegs.takeByte, h1, takeData, hl, if_true]
  simp only [Option.map_map]
  congr 2
  · simp [Function.comp_def, crcRun_append]
  · cases r.ovf <;> simp

/-- R256. -/
theorem feed_crcf (cfg) (r : ParseRegs) (v acc : Word) (h1 : r.ph = .crcf) (h2 : r.bc = 0) (h3 : r.crcr = 0)
    (ha : r.acc = some acc) :
   feed cfg r (be32Bytes v) =
    let r' := { r with crcr := v, bc := 4 }
    some (if v ≠ crcFinish acc then r'.fail .crcMismatch r.frameInfo
      else if r.ovf then r'.fail .protocol SubReason.cap.word
      else if r.mode = .cont ∧ cfg.maxChunks.toNat ≤ r.sh.length then r'.fail .protocol SubReason.cap.word
      else acceptFrame r') := by
  obtain ⟨mode, ph, bc, lenr, tyr, crcr, acc, idx, ovf, pend, kept, sd, sh⟩ := r
  dsimp only at h1 h2 h3 ha; subst h1 h2 h3 ha
  have := shiftIn_four (wordByte v 0) (wordByte v 1) (wordByte v 2) (wordByte v 3)
  rw [be32_wordByte] at this
  simp only [be32Bytes, feed, ParseRegs.takeByte, takeCrcf]
  simp [this, ParseRegs.frameInfo]
  split_ifs <;> rfl

theorem feed_short (cfg) (r : ParseRegs) (B : List Byte) (hp : r.ph = .len ∨ r.ph = .type ∨ r.ph = .crcf)
    (h2 : r.bc = 0) (hB : B.length < 4) :
   ∃ r', feed cfg r B = some r' ∧ r'.ph = r.ph ∧ r'.bc = BitVec.ofNat 32 B.length ∧ r'.mode = r.mode ∧ r'.idx = r.idx ∧ r'.sh = r.sh := by
  obtain ⟨mode, ph, bc, lenr, tyr, crcr, acc, idx, ovf, pend, kept, sd, sh⟩ := r
  dsimp only at hp h2; subst h2
  match B, hB with
  | [], _ => exact ⟨_, rfl, rfl, rfl, rfl, rfl, rfl⟩
  | [a], _ => rcases hp with rfl | rfl | rfl <;> exact ⟨_, rfl, rfl, rfl, rfl, rfl, rfl⟩
  | [a, b], _ => rcases hp with rfl | rfl | rfl <;> exact ⟨_, rfl, rfl, rfl, rfl, rfl, rfl⟩
  | [a, b, c], _ => rcases hp with rfl | rfl | rfl <;> exact ⟨_, rfl, rfl, rfl, rfl, rfl, rfl⟩
  | _ :: _ :: _ :: _ :: _, h => simp only [List.length_cons] at h; omega

/-- Fed `B` and then EOS the parser decides on `p`. -/
structure Ends (cfg : Params) (r : ParseRegs) (B : List Byte) (p : Pend) : Prop where
  ex : ∃ r', feed cfg r B = some r' ∧ r'.takeEos = some p ∧ r'.mode = r.mode

theorem ends_fail (cfg) (r r1 : ParseRegs) (A B : List Byte) (code info)
    (h : feed cfg r A = some (r1.fail code info)) (hm : r1.mode = r.mode) : Ends cfg r (A ++ B) ⟨code, info⟩ :=
  ⟨r1.fail code info, by rw [feed_append, h]; exact feed_drain _ _ rfl _, rfl, hm⟩

theorem ends_step (cfg) (r r1 : ParseRegs) (A B : List Byte) (p) (h : feed cfg r A = some r1) (hm : r1.mode = r.mode)
    (he : Ends cfg r1 B p) : Ends cfg r (A ++ B) p := by
  obtain ⟨r', h1, h2, h3⟩ := he.ex
  exact ⟨r', by rw [feed_append, h]; exact h1, h2, h3.trans hm⟩

theorem ends_short (cfg) (r : ParseRegs) (B : List Byte) (hp : r.ph = .len ∨ r.ph = .type ∨ r.ph = .crcf)
    (h2 : r.bc = 0) (hB : B.length < 4)
   (hc : r.mode = .cont → r.ph = .len → B ≠ []) : Ends cfg r B ⟨.unexpectedEof, r.frameInfo⟩ := by
  obtain ⟨r', h1, h3, h4, h5, h6, -⟩ := feed_short cfg r B hp h2 hB
  refine ⟨r', h1, ?_, h5⟩
  have hi : r'.frameInfo = r.frameInfo := by simp only [ParseRegs.frameInfo, h5, h6]
  unfold ParseRegs.takeEos
  rcases hp with hp | hp | hp <;> rw [h3, hp, hi] <;> dsimp only
  rw [if_neg]
  rintro ⟨hm, hb⟩
  rw [h5] at hm
  have := hc hm hp
  rw [h4] at hb
  have hl : B.length = 0 := by bv_omega
  exact this (List.eq_nil_of_length_eq_zero hl)


/-- The parser after a good header (R254). -/
def afterType (cfg : Params) (r : ParseRegs) (len tyr : Word) : ParseRegs :=
  { r with lenr := len, tyr := tyr, acc := some (crcRun crcInitial (be32Bytes tyr)), sd := [], ovf := decide (cfg.maxPayload < len), bc := 0, crcr := 0, ph := if len = 0 then .crcf else .data }

theorem feed_header (cfg) (r : ParseRegs) (len tyr : Word) (h1 : r.ph = .len) (h2 : r.bc = 0) (h3 : r.lenr = 0) :
   feed cfg r (be32Bytes len ++ be32Bytes tyr) = some (if !typeValid (.ofWord tyr) then { r with lenr := len, ph := .type, tyr := tyr, bc := 4 }.fail .invalidChunkType r.frameInfo else afterType cfg r len tyr) := by
  rw [feed_append, feed_len cfg r len h1 h2 h3, Option.bind_some, feed_type _ _ _ rfl rfl rfl]
  rfl

theorem feed_payload (cfg) (r : ParseRegs) (len tyr : Word) (D : List Byte) (hD : D.length = len.toNat) :
   feed cfg (afterType cfg r len tyr) D = some { afterType cfg r len tyr with sd := if decide (cfg.maxPayload < len) then [] else D, acc := some (crcRun crcInitial (be32Bytes tyr ++ D)), ph := .crcf } := by
  by_cases hl : len = 0
  · subst hl
    have : D = [] := List.eq_nil_of_length_eq_zero (by simpa using hD)
    subst this
    simp [feed, afterType]
  · rw [feed_data cfg D _ (by simp only [afterType, if_neg hl]) rfl hD hl]
    simp [afterType, crcRun_append]

/-- One frame: Level S decides what `parse_chunk` decides (R172). -/
theorem frame_spec (cfg) (r : ParseRegs) (B : List Byte) (h1 : r.ph = .len) (h2 : r.bc = 0) (h3 : r.lenr = 0)
    (hc : r.mode = .cont → B ≠ []) :
   match parseChunk cfg B with
   | .error e => Ends cfg r B ⟨e.code, e.info r.frameInfo⟩
   | .ok (c, k) => ∃ r1 : ParseRegs, r1.mode = r.mode ∧ r1.sh = r.sh ∧ r1.idx = r.idx ∧
       (⟨.ofWord r1.tyr, r1.lenr, r1.sd, r1.crcr⟩ : Chunk) = c ∧
       feed cfg r (B.take k) = some (if r.mode = .cont ∧ cfg.maxChunks.toNat ≤ r.sh.length then r1.fail .protocol SubReason.cap.word else acceptFrame r1) := by
  by_cases hB : B.length < 8
  · rw [parseChunk_short _ hB]
    dsimp only
    show Ends cfg r B ⟨.unexpectedEof, r.frameInfo⟩
    by_cases h4 : B.length < 4
    · exact ends_short cfg r B (.inl h1) h2 h4 (fun h _ => hc h)
    · obtain ⟨len, hl⟩ := word4_eq_some_of_length (B := B) (by omega)
      rw [word4_some hl]
      refine ends_step _ _ _ _ _ _ (feed_len cfg r len h1 h2 h3) rfl ?_
      exact ends_short cfg _ _ (.inr (.inl rfl)) rfl (by rw [List.length_drop]; omega) (by intro _ h; cases h)
  · obtain ⟨len, tyr, hBe⟩ := eq_fields_of_length (B := B) (by omega)
    generalize B.drop 8 = X at hBe
    subst hBe
    rw [parseChunk_fields]
    have hh := feed_header cfg r len tyr h1 h2 h3
    by_cases hv : typeValid (.ofWord tyr)
    case neg =>
      simp only [hv, Bool.not_false, if_true] at hh ⊢
      exact ends_fail _ _ _ _ _ _ _ hh rfl
    simp only [hv, Bool.not_true, Bool.false_eq_true, if_false] at hh ⊢
    by_cases hX : X.length < 4 + len.toNat
    · simp only [hX, if_true]
      refine ends_step _ _ _ _ _ _ hh rfl ?_
      show Ends cfg _ X ⟨.unexpectedEof, (afterType cfg r len tyr).frameInfo⟩
      by_cases hX2 : X.length < len.toNat
      · have hl : len ≠ 0 := by rintro rfl; simp at hX2
        refine ⟨_, feed_data_part cfg X _ (by simp only [afterType, if_neg hl]) (by simpa [afterType] using hX2), ?_, rfl⟩
        simp only [ParseRegs.takeEos, afterType, if_neg hl, ParseRegs.frameInfo]
      · rw [← List.take_append_drop len.toNat X]
        refine ends_step _ _ _ _ _ _ (feed_payload cfg r len tyr _ (by rw [List.length_take]; omega)) rfl ?_
        refine ends_short cfg _ _ (.inr (.inr rfl)) rfl (by rw [List.length_drop]; omega) (by intro _ h; cases h)
    · simp only [hX, if_false]
      obtain ⟨crc, hcrc⟩ := word4_eq_some_of_length (B := X.drop len.toNat) (by rw [List.length_drop]; omega)
      rw [hcrc]
      dsimp only
      have hX' := word4_some hcrc
      have hD : (X.take len.toNat).length = len.toNat := by rw [List.length_take]; omega
      have hp := feed_payload cfg r len tyr _ hD
      obtain ⟨rC, hrC, hC1, hC2, hC3, hC4, hC5, hC6, hC7, hC8, hC9, hC10, hC11⟩ : ∃ rC : ParseRegs, feed cfg
          (afterType cfg r len tyr) (X.take len.toNat) = some rC ∧ rC.ph = .crcf ∧ rC.bc = 0 ∧ rC.crcr = 0 ∧ rC.acc =
          some (crcRun crcInitial (be32Bytes tyr ++ X.take len.toNat)) ∧ rC.ovf = decide (cfg.maxPayload < len) ∧
          rC.mode = r.mode ∧ rC.sh = r.sh ∧ rC.idx = r.idx ∧ rC.tyr = tyr ∧ rC.lenr = len ∧ rC.sd = if decide
          (cfg.maxPayload < len) then [] else X.take len.toNat :=
        ⟨_, hp, rfl, rfl, rfl, rfl, rfl, rfl, rfl, rfl, rfl, rfl, rfl⟩
      have hf := feed_crcf cfg rC crc _ hC1 hC2 hC3 hC4
      have hall := (show feed cfg r (be32Bytes len ++ be32Bytes tyr ++ (X.take len.toNat ++ be32Bytes crc)) = feed cfg rC (be32Bytes crc) by
        rw [feed_append, hh, Option.bind_some, feed_append, hrC, Option.bind_some]).trans hf
      have hfi : rC.frameInfo = r.frameInfo := by simp only [ParseRegs.frameInfo, hC6, hC8]
      rw [hfi, hC5, hC6, hC7] at hall
      dsimp only at hall
      have hsplit : be32Bytes len ++ be32Bytes tyr ++ X = (be32Bytes len ++ be32Bytes tyr ++ (X.take len.toNat ++ be32Bytes crc)) ++ (X.drop len.toNat).drop 4 := by
        conv_lhs => rw [← List.take_append_drop len.toNat X, hX']
        simp
      have htake : (be32Bytes len ++ be32Bytes tyr ++ X).take (12 + len.toNat) = be32Bytes len ++ be32Bytes tyr ++ (X.take len.toNat ++ be32Bytes crc) := by
        rw [hsplit, List.take_left']
        simp only [List.length_append, hD, be32Bytes_length]; omega
      have hck : chunkCrc (.ofWord tyr) (X.take len.toNat) = crcFinish (crcRun crcInitial (be32Bytes tyr ++ X.take len.toNat)) := by
        simp [chunkCrc, crc32]
      by_cases hcc : chunkCrc (.ofWord tyr) (X.take len.toNat) = crc
      case neg =>
        simp only [ne_eq, hcc, not_false_eq_true, if_true]
        rw [hsplit]
        have : crc ≠ crcFinish (crcRun crcInitial (be32Bytes tyr ++ X.take len.toNat)) := by rw [← hck]; exact fun h => hcc h.symm
        rw [if_pos this] at hall
        exact ends_fail _ _ _ _ _ _ _ hall rfl
      simp only [ne_eq, hcc, not_true_eq_false, if_false]
      have : ¬ crc ≠ crcFinish (crcRun crcInitial (be32Bytes tyr ++ X.take len.toNat)) := by rw [← hck, hcc]; simp
      rw [if_neg this] at hall
      by_cases hcap : cfg.maxPayload.toNat < len.toNat
      · simp only [hcap, if_true]
        have hd : decide (cfg.maxPayload < len) = true := by simpa [BitVec.lt_def] using hcap
        rw [if_pos hd] at hall
        rw [hsplit]
        exact ends_fail _ _ _ _ _ _ _ hall rfl
      · simp only [hcap, if_false]
        have hd : ¬ decide (cfg.maxPayload < len) = true := by simpa [BitVec.lt_def] using hcap
        rw [if_neg hd] at hall
        rw [if_neg hd] at hC11
        rw [htake, hall]
        refine ⟨_, ?_, ?_, ?_, ?_, rfl⟩
        · rfl
        · rfl
        · exact hC8
        · rw [hC9, hC10, hC11]

/-- The loop: Level S decides what the loop of `parse_container` decides (R201). -/
theorem frames_spec (cfg) (fuel : Nat) (r : ParseRegs) (B : List Byte) (hm : r.mode = .cont) (h1 : r.ph = .len)
    (h2 : r.bc = 0) (h3 : r.lenr = 0)
   (hi : r.idx = BitVec.ofNat 32 r.sh.length) (hf : B.length ≤ fuel) :
   match parseFrames cfg fuel r.sh B with
   | .ok cs => ∃ r', feed cfg r B = some r' ∧ r'.takeEos = some ⟨.ok, 0⟩ ∧ r'.mode = .cont ∧ r'.sh = cs
   | .error .badSignature => False
   | .error (.frame e i) => Ends cfg r B ⟨e.code, e.info (BitVec.ofNat 32 i)⟩ := by
  induction fuel generalizing r B with
  | zero =>
    cases List.eq_nil_of_length_eq_zero (by omega : B.length = 0)
    exact ⟨r, rfl, by simp [ParseRegs.takeEos, h1, hm, h2], hm, rfl⟩
  | succ fuel ih =>
    cases B with
    | nil => exact ⟨r, rfl, by simp [ParseRegs.takeEos, h1, hm, h2], hm, rfl⟩
    | cons b B =>
      have hs := frame_spec cfg r (b :: B) h1 h2 h3 (by simp)
      have hfi : r.frameInfo = BitVec.ofNat 32 r.sh.length := by simp only [ParseRegs.frameInfo, hm, hi]
      rw [parseFrames]
      cases hp : parseChunk cfg (b :: B) with
      | error e =>
        rw [hp] at hs
        dsimp only at hs ⊢
        rwa [hfi] at hs
      | ok ck =>
        obtain ⟨c, k⟩ := ck
        rw [hp] at hs
        obtain ⟨r1, e1, e2, e3, e4, e5⟩ := hs
        obtain ⟨-, hk, hkl, hB⟩ := parseChunk_ok hp
        dsimp only
        by_cases hcap : cfg.maxChunks.toNat ≤ r.sh.length
        · rw [if_pos ⟨hm, hcap⟩] at e5
          rw [if_pos hcap]
          dsimp only
          have := ends_fail cfg r r1 _ ((b :: B).drop k) _ _ e5 e1
          rwa [List.take_append_drop] at this
        · rw [if_neg (by simp [hcap])] at e5
          rw [if_neg hcap]
          have hacc : acceptFrame r1 = { r1 with sh := r1.sh ++ [c], idx := r1.idx + 1, ph := .len, bc := 0, lenr := 0 } := by
            unfold acceptFrame; rw [e1, hm]; dsimp only; rw [e4]
          have := ih (acceptFrame r1) ((b :: B).drop k) (by rw [hacc]; exact e1.trans hm) (by rw [hacc]) (by rw [hacc]) (by rw [hacc])
             (by rw [hacc]; simp only [e3, hi, e2, List.length_append, List.length_cons, List.length_nil]; rw [BitVec.ofNat_add]; rfl)
             (by rw [List.length_drop]; omega)
          have hsh : (acceptFrame r1).sh = r.sh ++ [c] := by rw [hacc]; dsimp only; rw [e2]
          rw [hsh] at this
          have hmm : (acceptFrame r1).mode = r.mode := by rw [hacc]; exact e1
          split <;> rename_i heq <;> rw [heq] at this <;> dsimp only at this
          · obtain ⟨r', a1, a2, a3, a4⟩ := this
            refine ⟨r', ?_, a2, a3, a4⟩
            rw [← List.take_append_drop k (b :: B), feed_append, e5]
            exact a1
          · have := ends_step cfg r _ _ _ _ e5 hmm this
            rwa [List.take_append_drop] at this

/-- The signature, from byte `n` on (R252). -/
theorem sig_spec (cfg) (B : List Byte) (r : ParseRegs) (n : Nat) (hm : r.mode = .cont) (h1 : r.ph = .sig)
    (h2 : r.bc = BitVec.ofNat 32 n) (hn : n < 8) :
   if B.take (8 - n) = signature.drop n then feed cfg r (B.take (8 - n)) = some
       { r with ph := .len, bc := 0, lenr := 0 }
   else Ends cfg r B ⟨.badSignature, 0⟩ := by
  induction B generalizing r n with
  | nil =>
    rw [if_neg]
    · exact ⟨r, rfl, by simp [ParseRegs.takeEos, h1], rfl⟩
    · intro h
      have := congrArg List.length h
      simp at this; omega
  | cons b B ih =>
    have hl : n < signature.length := by simpa using hn
    have hd : signature.drop n = signature[n] :: signature.drop (n + 1) := by rw [List.getElem_cons_drop]
    have ht : (b :: B).take (8 - n) = b :: B.take (8 - (n + 1)) := by
      rw [show 8 - n = (8 - (n + 1)) + 1 by omega, List.take_succ_cons]
    have hbn : r.bc.toNat = n := by rw [h2]; simp; omega
    have hg : signature[r.bc.toNat]? = some signature[n] := by rw [hbn]; exact List.getElem?_eq_getElem hl
    have hstep : r.takeByte cfg b = takeSig r b := by simp [ParseRegs.takeByte, h1]
    rw [hd, ht]
    unfold takeSig at hstep
    rw [hg] at hstep
    dsimp only at hstep
    by_cases hb : b = signature[n]
    · rw [if_neg (by simpa using hb)] at hstep
      by_cases h7 : n = 7
      · subst h7
        rw [if_pos (by rw [h2]; rfl)] at hstep
        rw [if_pos]
        · simp [feed, hstep]
        · rw [← hb]; rfl
      · rw [if_neg (by rw [h2]; bv_omega)] at hstep
        have := ih { r with bc := r.bc + 1 } (n + 1) hm h1 (by rw [h2, BitVec.ofNat_add]; rfl) (by omega)
        split at this
        · rename_i heq
          rw [if_pos (by rw [hb, heq])]
          simp only [feed, hstep, Option.bind_some]
          exact this
        · rename_i heq
          rw [if_neg (by intro h; exact heq (List.cons.inj h).2)]
          exact ends_step cfg r { r with bc := r.bc + 1 } [b] B _ (by simp only [feed, hstep, Option.bind_some]) rfl this
    · rw [if_pos hb] at hstep
      rw [if_neg (by intro h; exact hb (List.cons.inj h).1)]
      exact ends_fail cfg r r [b] B _ _ (by simp only [feed, hstep, Option.bind_some]) rfl

theorem complete_err (r : ParseRegs) (p : Pend) (s : State) (h : p.code ≠ .ok) : r.complete p s = .next
    (s.idle.answer p.code p.info 0 []) := by
  unfold ParseRegs.complete; rw [if_pos h]; rfl

theorem frameError_code_ne_ok (e : FrameError) : e.code ≠ .ok := by cases e <;> simp [FrameError.code]

theorem start_run {s t : State} {m : Mode} {input : List Byte} {rest} {ev} (he : s.eng = none)
    (hstep : step { s with host := ev :: (input.map .byte ++ .eos :: rest) } = .next
    { s with host := input.map .byte ++ .eos :: rest, eng := some (.parse (startParse m)) })
   {r' p} (hf : feed s.cfg (startParse m) input = some r') (hp : r'.takeEos = some p)
       (ht : r'.complete p { s with host := rest } = .next t) :
   Host.Core.run core (input.length + 2) { s with host := ev :: (input.map .byte ++ .eos :: rest) } = .next t := by
  rw [run_next hstep]
  exact run_parse (startParse m) input _ rest rfl rfl hf hp ht

theorem buildRun (r : BuildRegs) (B : List Byte) (s : State) (rest) (he : s.eng = some (.build r))
    (hh : s.host = B.map .byte ++ .eos :: rest) {t}
   (ht : (B.foldl (BuildRegs.takeByte s.cfg) r).complete { s with host := rest } = .next t) :
   Host.Core.run core (B.length + 1) s = .next t := by
  induction B generalizing r s with
  | nil =>
    have : step s = .next t := by
      simp only [List.map_nil, List.nil_append] at hh
      simp only [step, serve, he, serveInput, hh, Engine.takeEos]
      exact ht
    exact run_next this
  | cons b B ih =>
    have : step s = .next { s with host := B.map .byte ++ .eos :: rest, eng := some (.build (r.takeByte s.cfg b)) } := by
      simp only [List.map_cons, List.cons_append] at hh
      simp only [step, serve, he, serveInput, hh, Engine.takeByte]
    rw [List.length_cons, run_next this]
    exact ih (r.takeByte s.cfg b) _ rfl rfl ht

theorem textRun (r : TextRegs) (B : List Byte) (s : State) (rest) (he : s.eng = some (.text r))
    (hh : s.host = B.map .byte ++ .eos :: rest) {t}
   (ht : (B.foldl TextRegs.takeByte r).complete { s with host := rest } = .next t) :
   Host.Core.run core (B.length + 1) s = .next t := by
  induction B generalizing r s with
  | nil =>
    have : step s = .next t := by
      simp only [List.map_nil, List.nil_append] at hh
      simp only [step, serve, he, serveInput, hh, Engine.takeEos]
      exact ht
    exact run_next this
  | cons b B ih =>
    have : step s = .next { s with host := B.map .byte ++ .eos :: rest, eng := some (.text (r.takeByte b)) } := by
      simp only [List.map_cons, List.cons_append] at hh
      simp only [step, serve, he, serveInput, hh, Engine.takeByte]
    rw [List.length_cons, run_next this]
    exact ih (r.takeByte b) _ rfl rfl ht

theorem text_sat (B : List Byte) (v) : B.foldl TextRegs.takeByte ⟨5, v⟩ = ⟨5, v⟩ := by
  induction B with
  | nil => rfl
  | cons b B ih => exact ih

theorem text_4 (B : List Byte) (hB : B ≠ []) (v) : B.foldl TextRegs.takeByte ⟨4, v⟩ = ⟨5, v⟩ := by
  cases B with
  | nil => exact absurd rfl hB
  | cons b B => exact text_sat B v

theorem build_drain (cfg) (B : List Byte) (r : BuildRegs) (h : r.ph = .drain) : B.foldl (BuildRegs.takeByte cfg) r =
    r := by
  induction B with
  | nil => rfl
  | cons b B ih => rw [List.foldl_cons, show r.takeByte cfg b = r by unfold BuildRegs.takeByte; rw [h]]; exact ih

theorem build_fold (cfg : Params) (B : List Byte) (r : BuildRegs) (h : r.ph = .data)
    (hb : r.bc.toNat + B.length ≤ cfg.maxPayload.toNat) :
   B.foldl (BuildRegs.takeByte cfg) r = { r with sd := r.sd ++ B, acc := crcRun r.acc B, bc := r.bc + BitVec.ofNat 32 B.length } := by
  induction B generalizing r with
  | nil => simp
  | cons b B ih =>
    simp only [List.length_cons] at hb
    have hlt := cfg.maxPayload.isLt
    have e : r.takeByte cfg b = { r with sd := r.sd ++ [b], acc := crcUpd r.acc b, bc := r.bc + 1 } := by
      unfold BuildRegs.takeByte; rw [h]; dsimp only; rw [if_neg (by simp [BitVec.le_def]; omega)]
    rw [List.foldl_cons, e, ih { r with sd := r.sd ++ [b], acc := crcUpd r.acc b, bc := r.bc + 1 } h (by dsimp only; bv_omega)]
    have e1 : r.bc + 1 + BitVec.ofNat 32 B.length = r.bc + BitVec.ofNat 32 (b :: B).length := by
      simp only [List.length_cons]
      rw [BitVec.add_assoc]; congr 1; rw [BitVec.ofNat_add, BitVec.add_comm]; rfl
    simp only [crcRun_cons, List.append_assoc, List.cons_append, List.nil_append, e1]

theorem build_over (cfg : Params) (B : List Byte) (r : BuildRegs) (h : r.ph = .data)
    (hb : r.ovf = true ∨ r.bc.toNat ≤ cfg.maxPayload.toNat ∧ cfg.maxPayload.toNat < r.bc.toNat + B.length) :
   (B.foldl (BuildRegs.takeByte cfg) r).ph = .data ∧ (B.foldl (BuildRegs.takeByte cfg) r).ovf = true := by
  induction B generalizing r with
  | nil => exact ⟨h, by rcases hb with hb | ⟨_, hb⟩; exact hb; simp at hb; omega⟩
  | cons b B ih =>
    rw [List.foldl_cons]
    have hlt := cfg.maxPayload.isLt
    apply ih
    · unfold BuildRegs.takeByte; rw [h]; dsimp only; split <;> simp [h]
    · unfold BuildRegs.takeByte; rw [h]; dsimp only
      split
      · exact .inl rfl
      · rename_i hle
        rcases hb with hb | ⟨hb1, hb⟩
        · exact .inl hb
        · simp [BitVec.le_def] at hle
          simp only [List.length_cons] at hb
          refine .inr ⟨?_, ?_⟩ <;> dsimp only <;> bv_omega

end Sys2Proof.Machine
end

