-- ==== Sys2Proof/Tests/Slice0.lean ====
section
/-! SUPPORT. Tests.  Expected values come from spec/95_test_vectors.md and the spec's encoding tables, named in each
part.  After them, for each statement that has hypotheses, a concrete state and operands that meet them
(`witness_<statement>`). -/

namespace Sys2Proof.Tests

open Sys2Proof.Machine

/-! ### Values of the vectors -/

/-- `"RuSt"`, `"ruSt"`, `"IEND"`, `"IHDR"`, `"teSt"` (95_test_vectors.md, byte values of the types used). -/
def typeRuSt : ChunkType := ⟨0x52, 0x75, 0x53, 0x74⟩
def typeruSt : ChunkType := ⟨0x72, 0x75, 0x53, 0x74⟩
def typeIEND : ChunkType := ⟨0x49, 0x45, 0x4E, 0x44⟩
def typeIHDR : ChunkType := ⟨0x49, 0x48, 0x44, 0x52⟩
def typeteSt : ChunkType := ⟨0x74, 0x65, 0x53, 0x74⟩

/-- `"secret"`. -/
def secret : List Byte := [0x73, 0x65, 0x63, 0x72, 0x65, 0x74]

/-- Rows of the table of frames (95_test_vectors.md 2.3). -/
def chunkIEND : Chunk := ⟨typeIEND, 0, [], 0xAE426082⟩
def chunkA : Chunk := ⟨typeRuSt, 1, [0x41], 0xFC626605⟩
def chunkSecret : Chunk := ⟨typeruSt, 6, secret, 0x85ECF212⟩
def chunkTe : Chunk := ⟨typeteSt, 2, [0x00, 0xFF], 0xD7E19904⟩

def frameIEND : List Byte := [0x00, 0x00, 0x00, 0x00, 0x49, 0x45, 0x4E, 0x44, 0xAE, 0x42, 0x60, 0x82]
def frameA : List Byte := [0x00, 0x00, 0x00, 0x01, 0x52, 0x75, 0x53, 0x74, 0x41, 0xFC, 0x62, 0x66, 0x05]
def frameSecret : List Byte :=
  [0x00, 0x00, 0x00, 0x06, 0x72, 0x75, 0x53, 0x74, 0x73, 0x65, 0x63, 0x72, 0x65, 0x74, 0x85, 0xEC, 0xF2, 0x12]

def sig : List Byte := [0x89, 0x50, 0x4E, 0x47, 0x0D, 0x0A, 0x1A, 0x0A]

/-- IHDR and IDAT of `PNG67` (95_test_vectors.md 2.4). -/
def frameIHDR : List Byte :=
  [0x00, 0x00, 0x00, 0x0D, 0x49, 0x48, 0x44, 0x52, 0x00, 0x00, 0x00, 0x01, 0x00, 0x00, 0x00, 0x01, 0x08, 0x00, 0x00,
   0x00, 0x00, 0x3A, 0x7E, 0x9B, 0x55]
def frameIDAT : List Byte :=
  [0x00, 0x00, 0x00, 0x0A, 0x49, 0x44, 0x41, 0x54, 0x78, 0x9C, 0x63, 0x60, 0x00, 0x00, 0x00, 0x02, 0x00, 0x01, 0x48,
   0xAF, 0xA4, 0x71]
def png67 : List Byte := sig ++ frameIHDR ++ frameIDAT ++ frameIEND

/-! ### Small states -/

/-- Reset with a type loaded. -/
def withTy (t : ChunkType) : State := { State.reset with ty := some t }

/-- Reset with a chunk loaded. -/
def withCh (c : Chunk) : State := { State.reset with ch := some c }

/-- Reset with a container loaded. -/
def withCs (cs : List Chunk) : State := { State.reset with cs := cs }

/-- Reset of a block built with smaller capacities. -/
def built (maxPayload maxChunks : Word) : State := { State.reset with cfg := ⟨maxPayload, maxChunks, .recommended⟩ }

/-- Reset with events lined up. -/
def lined (host : List HostEvent) : State := { State.reset with host := host }

/-- The state answered, if one is. -/
def answered : Result → Option State
  | .next t => some t
  | .fault _ => none
  | .refused _ => none

theorem of_answered {r : Result} {t : State} (h : answered r = some t) : r = .next t := by
  cases r <;> simp_all [answered]

/-- The response answered: code, INFO, RES, out. -/
def response (r : Result) : Option (Code × Word × Word × List Byte) :=
  (answered r).map fun t => (t.code, t.info, t.res, t.out)

/-! ### WellFormed: each check refuses an ill-formed request -/

theorem test_wf_reserved_code_refused : Request.wf ⟨0x09, 0, []⟩ = false := by decide

theorem test_wf_reserved_code_by_assigned : Request.assigned ⟨0x09, 0, []⟩ = false := by decide

theorem test_wf_ignored_argument_refused :
    Request.wf ⟨0x02, 1, []⟩ = false ∧ Request.argPlain ⟨0x02, 1, []⟩ = false := by decide

theorem test_wf_ignored_byte_argument_refused :
    Request.wf ⟨0x11, 0x12345649, []⟩ = false ∧ Request.argPlain ⟨0x11, 0x12345649, []⟩ = false := by decide

theorem test_wf_stray_stream_refused :
    Request.wf ⟨0x22, 0, [0x00]⟩ = false ∧ Request.inputExpected ⟨0x22, 0, [0x00]⟩ = false := by decide

theorem test_wf_accepts :
    Request.wf ⟨0x11, 0x49, []⟩ = true ∧ Request.wf ⟨0x30, 0, [0x89]⟩ = true ∧ Request.wf ⟨0x00, 0xFFFFFFFF, []⟩ = true := by
  decide

/-! ### Decoding: every operation's command word, UNIT in bits 7:4 and FUNC in bits 3:0 (R80, table of R82) -/

theorem test_decode_tyLdb : decode ⟨0b0000_0000#8, 0x72755374#32, []⟩ = .ok (.tyLdb ⟨0x72, 0x75, 0x53, 0x74⟩) := rfl
theorem test_decode_tyLdt : decode ⟨0b0000_0001#8, 0, [0x52, 0x75]⟩ = .ok (.tyLdt [0x52, 0x75]) := rfl
theorem test_decode_tyRdb : decode ⟨0b0000_0010#8, 0, []⟩ = .ok .tyRdb := rfl
theorem test_decode_tyRdt : decode ⟨0b0000_0011#8, 0, []⟩ = .ok .tyRdt := rfl
theorem test_decode_tyCrit : decode ⟨0b0000_0100#8, 0, []⟩ = .ok .tyCrit := rfl
theorem test_decode_tyPub : decode ⟨0b0000_0101#8, 0, []⟩ = .ok .tyPub := rfl
theorem test_decode_tyRsv : decode ⟨0b0000_0110#8, 0, []⟩ = .ok .tyRsv := rfl
theorem test_decode_tySafe : decode ⟨0b0000_0111#8, 0, []⟩ = .ok .tySafe := rfl
theorem test_decode_tyWrt : decode ⟨0b0000_1000#8, 0, []⟩ = .ok .tyWrt := rfl
theorem test_decode_crcInit : decode ⟨0b0001_0000#8, 0, []⟩ = .ok .crcInit := rfl
theorem test_decode_crcUpd : decode ⟨0b0001_0001#8, 0x12345649#32, []⟩ = .ok (.crcUpd 0x49) := rfl
theorem test_decode_crcRd : decode ⟨0b0001_0010#8, 0, []⟩ = .ok .crcRd := rfl
theorem test_decode_chNew : decode ⟨0b0010_0000#8, 0, [0x78]⟩ = .ok (.chNew [0x78]) := rfl
theorem test_decode_chParse : decode ⟨0b0010_0001#8, 0, [0x00]⟩ = .ok (.chParse [0x00]) := rfl
theorem test_decode_chSer : decode ⟨0b0010_0010#8, 0, []⟩ = .ok .chSer := rfl
theorem test_decode_chLen : decode ⟨0b0010_0011#8, 0, []⟩ = .ok .chLen := rfl
theorem test_decode_chType : decode ⟨0b0010_0100#8, 0, []⟩ = .ok .chType := rfl
theorem test_decode_chData : decode ⟨0b0010_0101#8, 0, []⟩ = .ok .chData := rfl
theorem test_decode_chCrc : decode ⟨0b0010_0110#8, 0, []⟩ = .ok .chCrc := rfl
theorem test_decode_chText : decode ⟨0b0010_0111#8, 0, []⟩ = .ok .chText := rfl
theorem test_decode_ctParse : decode ⟨0b0011_0000#8, 0, [0x89]⟩ = .ok (.ctParse [0x89]) := rfl
theorem test_decode_ctSer : decode ⟨0b0011_0001#8, 0, []⟩ = .ok .ctSer := rfl
theorem test_decode_ctAppend : decode ⟨0b0011_0010#8, 0, []⟩ = .ok .ctAppend := rfl
theorem test_decode_ctRemove : decode ⟨0b0011_0011#8, 0, []⟩ = .ok .ctRemove := rfl
theorem test_decode_ctFind : decode ⟨0b0011_0100#8, 0, []⟩ = .ok .ctFind := rfl
theorem test_decode_ctCount : decode ⟨0b0011_0101#8, 0, []⟩ = .ok .ctCount := rfl
theorem test_decode_ctGet : decode ⟨0b0011_0110#8, 2, []⟩ = .ok (.ctGet 2) := rfl
theorem test_decode_sysReset : decode ⟨0b0111_0000#8, 0, []⟩ = .ok .sysReset := rfl

/-- The table's numbering: command word in bits 7:0, argument word from bit 8 (log 16). -/
theorem test_decodeTableWord :
    decodeTableWord 40 0x5275537400 = some (.tyLdb typeRuSt) ∧ decodeTableWord 8 0x70 = some .sysReset ∧
      decodeTableWord 8 0x09 = none := by decide

theorem test_withFetchWord_runs_it : step (State.reset.withFetchWord 40 0x4911) = exec (.crcUpd 0x49) State.reset := rfl

/-! ### U-TYPE (95_test_vectors.md 2.1) -/

theorem test_tyLdb_loads : answered (exec (.tyLdb typeRuSt) State.reset) = some (withTy typeRuSt) := by decide

theorem test_tyLdb_boundary_bytes_refused :
    [0x40#8, 0x5B#8, 0x60#8, 0x7B#8, 0x20#8, 0x00#8, 0xC4#8, 0xFF#8].all (fun b =>
      (answered (exec (.tyLdb ⟨0x41, 0x42, 0x43, b⟩) (withTy typeruSt))).map (fun t => (t.code, t.ty)) ==
        some (.invalidChunkType, some typeruSt)) = true := by decide

theorem test_tyLdt_loads : answered (exec (.tyLdt [0x72, 0x75, 0x53, 0x74]) State.reset) = some (withTy typeruSt) := by
  decide

/-- `"Rus"`, `"Rusty"`, empty, and `"RuSt"` with a trailing NUL. -/
theorem test_tyLdt_wrong_lengths :
    [[0x52#8, 0x75, 0x73], [0x52, 0x75, 0x73, 0x74, 0x79], [], [0x52, 0x75, 0x53, 0x74, 0x00]].all (fun text =>
      response (exec (.tyLdt text) State.reset) == some (.invalidChunkType, 0, 0, [])) = true := by decide

theorem test_tyRdb : response (exec .tyRdb (withTy typeruSt)) = some (.ok, 0, 0x72755374, []) := by decide

theorem test_tyRdt : response (exec .tyRdt (withTy typeruSt)) = some (.ok, 0, 0, [0x72, 0x75, 0x53, 0x74]) := by decide

/-- Rows RuSt, RuST, Rust, ruSt, IHDR, AZaz of the table. -/
theorem test_tyCrit : [typeRuSt, typeruSt, typeIHDR, ⟨0x41, 0x5A, 0x61, 0x7A⟩].map (fun t =>
    (response (exec .tyCrit (withTy t))).map (·.2.2.1)) = [some 1, some 0, some 1, some 1] := by decide

theorem test_tyPub : [typeRuSt, typeruSt, typeIHDR, ⟨0x41, 0x5A, 0x61, 0x7A⟩].map (fun t =>
    (response (exec .tyPub (withTy t))).map (·.2.2.1)) = [some 0, some 0, some 1, some 1] := by decide

theorem test_tyRsv : [typeRuSt, ⟨0x52, 0x75, 0x73, 0x74⟩, typeIHDR, ⟨0x41, 0x5A, 0x61, 0x7A⟩].map (fun t =>
    (response (exec .tyRsv (withTy t))).map (·.2.2.1)) = [some 1, some 0, some 1, some 0] := by decide

theorem test_tySafe : [typeRuSt, ⟨0x52, 0x75, 0x53, 0x54⟩, typeIHDR, ⟨0x41, 0x5A, 0x61, 0x7A⟩].map (fun t =>
    (response (exec .tySafe (withTy t))).map (·.2.2.1)) = [some 1, some 0, some 0, some 1] := by decide

theorem test_tyWrt : [typeRuSt, typeruSt, typeIHDR, ⟨0x74, 0x45, 0x58, 0x74⟩].map (fun t =>
    (response (exec .tyWrt (withTy t))).map (·.2.2.1)) = [some 0, some 1, some 0, some 1] := by decide

theorem test_type_reads_after_reset_are_empty :
    [Instr.tyRdb, .tyRdt, .tyCrit, .tyPub, .tyRsv, .tySafe, .tyWrt].all (fun i =>
      response (exec i State.reset) == some (.protocol, 2, 0, [])) = true := by decide

/-! ### U-CRC (95_test_vectors.md 2.2) -/

theorem test_crcUpd_step : (answered (exec (.crcUpd 0x49) State.reset)).map (·.crcacc) = some 0x22FDE946 := by
  decide +kernel

theorem test_crcUpd_then_rest_of_IEND : crcRun 0x22FDE946 [0x45, 0x4E, 0x44] = 0x51BD9F7D := by decide +kernel

theorem test_crcRd : response (exec .crcRd { State.reset with crcacc := 0x51BD9F7D }) = some (.ok, 0, 0xAE426082, []) := by
  decide

theorem test_crcRd_after_reset : response (exec .crcRd State.reset) = some (.ok, 0, 0, []) := by decide

theorem test_crcInit : answered (exec .crcInit { State.reset with crcacc := 0x51BD9F7D }) = some State.reset := by decide

/-- The check value of R150, and rows of the table. -/
theorem test_crc32_values :
    crc32 [0x31, 0x32, 0x33, 0x34, 0x35, 0x36, 0x37, 0x38, 0x39] = 0xCBF43926 ∧ crc32 [] = 0 ∧
      crc32 [0x00] = 0xD202EF8D ∧ crc32 [0xFF] = 0xFF000000 ∧ crc32 [0x00, 0x00, 0x00, 0x00] = 0x2144DF1C := by
  decide +kernel

/-! ### U-CHUNK (95_test_vectors.md 2.3) -/

theorem test_chNew_hidden_message_crc :
    (answered (exec (.chNew [0x68, 0x69, 0x64, 0x64, 0x65, 0x6E, 0x20, 0x6D, 0x65, 0x73, 0x73, 0x61, 0x67, 0x65])
      (withTy typeruSt))).bind (fun t => t.ch.map fun c => (c.len, c.crc)) = some (14, 0xDA7F3A11) := by decide +kernel

theorem test_chNew_over_capacity :
    response (exec (.chNew secret) { built 3 9 with ty := some typeruSt }) = some (.protocol, 3, 0, []) ∧
      response (exec (.chNew secret) (built 3 9)) = some (.protocol, 2, 0, []) ∧
      (response (exec (.chNew [0x61, 0x62, 0x63]) { built 3 9 with ty := some typeruSt })).map (·.1) = some .ok := by
  decide +kernel

theorem test_chParse_accepts : answered (exec (.chParse (frameA ++ [0xFF, 0xFF])) State.reset) = some (withCh chunkA) := by
  decide +kernel

/-- Rows of the table of outcomes, in its order. -/
theorem test_chParse_outcomes :
    [[], [0x00#8, 0x00, 0x00, 0x00, 0x49, 0x45, 0x4E], [0x00, 0x00, 0x00, 0x00, 0x49, 0x45, 0x4E, 0x44],
      [0x00, 0x00, 0x00, 0x00, 0x49, 0x45, 0x4E, 0x44, 0xAE, 0x42, 0x60],
      [0x00, 0x00, 0x00, 0x00, 0x49, 0x45, 0x4E, 0x44, 0xAE, 0x42, 0x60, 0x83],
      [0x00, 0x00, 0x00, 0x01, 0x72, 0x75, 0x53, 0x74, 0x41, 0xFC, 0x62, 0x66, 0x05],
      [0x00, 0x00, 0x00, 0x01, 0x52, 0x35, 0x53, 0x74, 0x41, 0xFC, 0x62, 0x66, 0x05],
      [0x00, 0x00, 0x00, 0x02, 0x52, 0x75, 0x53, 0x74, 0x41, 0xFC, 0x62, 0x66, 0x05],
      [0x00, 0x00, 0x00, 0x00, 0x52, 0x75, 0x53, 0x74, 0x41, 0xFC, 0x62, 0x66, 0x05],
      [0xFF, 0xFF, 0xFF, 0xF4, 0x72, 0x75, 0x53, 0x74], [0xFF, 0xFF, 0xFF, 0xFF, 0x72, 0x75, 0x31, 0x74],
      [0x00, 0x00, 0x00, 0x05, 0x52, 0x75, 0x31]].map
        (fun B => (response (exec (.chParse B) State.reset)).map (·.1)) =
      [some .unexpectedEof, some .unexpectedEof, some .unexpectedEof, some .unexpectedEof, some .crcMismatch,
        some .crcMismatch, some .invalidChunkType, some .unexpectedEof, some .crcMismatch, some .unexpectedEof,
        some .invalidChunkType, some .unexpectedEof] := by decide +kernel

/-- `MAX_PAYLOAD = 3`: capacity, damage and truncation of the same frame. -/
theorem test_chParse_capacity_after_damage :
    [frameSecret, frameSecret.dropLast ++ [0x00], frameSecret.dropLast].map
        (fun B => (response (exec (.chParse B) (built 3 9))).map fun r => (r.1, r.2.1)) =
      [some (.protocol, 3), some (.crcMismatch, 0), some (.unexpectedEof, 0)] := by decide +kernel

theorem test_chSer : response (exec .chSer (withCh chunkSecret)) = some (.ok, 0, 0, frameSecret) := by decide

theorem test_chLen : response (exec .chLen (withCh chunkSecret)) = some (.ok, 0, 6, []) := by decide

theorem test_chType : (answered (exec .chType (withCh chunkIEND))).map (fun t => (t.ty, t.ch)) =
    some (some typeIEND, some chunkIEND) := by decide

theorem test_chData : response (exec .chData (withCh chunkTe)) = some (.ok, 0, 0, [0x00, 0xFF]) := by decide

theorem test_chCrc : response (exec .chCrc (withCh chunkSecret)) = some (.ok, 0, 0x85ECF212, []) := by decide

theorem test_chText : response (exec .chText (withCh chunkSecret)) = some (.ok, 0, 0, secret) ∧
    response (exec .chText (withCh chunkTe)) = some (.invalidUtf8, 0, 0, []) := by decide +kernel

/-- GK3, row by row at its edges: U+07FF, U+0800, U+D7FF, U+10FFFF; overlong, surrogate, above U+10FFFF, cut short. -/
theorem test_utf8_table :
    ([[0xDF#8, 0xBF], [0xE0, 0xA0, 0x80], [0xED, 0x9F, 0xBF], [0xF4, 0x8F, 0xBF, 0xBF]].all utf8Gk3 = true) ∧
      ([[0xC1#8, 0xBF], [0xE0, 0x9F, 0xBF], [0xED, 0xA0, 0x80], [0xF4, 0x90, 0x80, 0x80], [0xE1, 0x80], [0x80],
        [0xF5, 0x80, 0x80, 0x80]].any utf8Gk3 = false) := by decide +kernel

theorem test_chunk_reads_after_reset_are_empty :
    [Instr.chSer, .chLen, .chType, .chData, .chCrc, .chText, .ctAppend, .chNew [0x78]].all (fun i =>
      response (exec i State.reset) == some (.protocol, 2, 0, [])) = true := by decide

/-! ### U-CONT (95_test_vectors.md 2.4) -/

theorem test_ctParse_png67_round_trip :
    (answered (exec (.ctParse png67) State.reset)).bind (fun t => response (exec .ctSer t)) =
      some (.ok, 0, 0, png67) := by decide +kernel

/-- Rows of the table of outcomes: short, seven bytes, wrong last byte, bare signature, one stray byte, a bad second
frame, a payload bit of IDAT, a digit in IDAT's type, the file cut short at 66, 55 and 54 bytes. -/
theorem test_ctParse_outcomes :
    [[], sig.take 7, sig.take 7 ++ 0x0D :: frameIEND, sig, sig ++ frameIEND ++ [0x00],
      sig ++ frameIEND ++ frameIEND.dropLast ++ [0x83], png67.set 41 0x79, png67.set 37 0x39, png67.take 66,
      png67.take 55, png67.take 54].map
        (fun B => (response (exec (.ctParse B) State.reset)).map fun r => (r.1, r.2.1)) =
      [some (.badSignature, 0), some (.badSignature, 0), some (.badSignature, 0), some (.ok, 0),
        some (.unexpectedEof, 1), some (.crcMismatch, 1), some (.crcMismatch, 1), some (.invalidChunkType, 1),
        some (.unexpectedEof, 2), some (.ok, 0), some (.unexpectedEof, 1)] := by decide +kernel

/-- The capacities: `MAX_CHUNKS = 2`, the same with damage in the third frame, `MAX_CHUNKS = 3`, `MAX_PAYLOAD` 12, 13. -/
theorem test_ctParse_capacity :
    [(png67, built 99 2), (png67.set 66 0x83, built 99 2), (png67, built 99 3), (png67, built 12 9),
      (png67, built 13 9)].map (fun x => (response (exec (.ctParse x.1) x.2)).map fun r => (r.1, r.2.1)) =
      [some (.protocol, 3), some (.crcMismatch, 2), some (.ok, 0), some (.protocol, 3), some (.ok, 0)] := by
  decide +kernel

theorem test_ctSer_empty : response (exec .ctSer State.reset) = some (.ok, 0, 0, sig) := by decide

theorem test_ctAppend : (answered (exec .ctAppend { withCs [chunkIEND] with ch := some chunkA })).map
    (fun t => (t.cs, t.ch)) = some ([chunkIEND, chunkA], some chunkA) := by decide

theorem test_ctAppend_full : response (exec .ctAppend { built 9 1 with ch := some chunkA, cs := [chunkIEND] }) =
    some (.protocol, 3, 0, []) := by decide

/-- First match only, and letter case matters. -/
theorem test_ctRemove : (answered (exec .ctRemove { withCs [chunkSecret, chunkA, chunkIEND, chunkA] with ty := some typeRuSt })).map
    (fun t => (t.cs, t.ch)) = some ([chunkSecret, chunkIEND, chunkA], some chunkA) := by decide

theorem test_ctRemove_absent_and_empty :
    response (exec .ctRemove { withCs [chunkSecret] with ty := some typeRuSt }) = some (.chunkNotFound, 0, 0, []) ∧
      response (exec .ctRemove State.reset) = some (.protocol, 2, 0, []) := by decide

theorem test_ctFind : (answered (exec .ctFind { withCs [chunkSecret, chunkA] with ty := some typeRuSt })).map
    (fun t => (t.cs, t.ch)) = some ([chunkSecret, chunkA], some chunkA) := by decide

theorem test_ctCount : response (exec .ctCount (withCs [chunkSecret, chunkA])) = some (.ok, 0, 2, []) := by decide

theorem test_ctGet : (answered (exec (.ctGet 1) (withCs [chunkSecret, chunkA]))).map (·.ch) = some (some chunkA) := by
  decide

theorem test_ctGet_range : response (exec (.ctGet 2) (withCs [chunkSecret, chunkA])) = some (.protocol, 4, 0, []) := by
  decide

/-! ### System, responses, Level S (95_test_vectors.md 2.5, 2.6; R262) -/

theorem test_sysReset : answered (exec .sysReset
    ({ withCs [chunkA] with ty := some typeruSt, ch := some chunkA, crcacc := 7 }.answer .chunkNotFound 0 0 [])) =
      some State.reset := by decide

theorem test_status_latching :
    (State.reset.answer .invalidChunkType 0 0 []).status = 0x01 ∧ (withTy typeruSt).status = 0x10 ∧
      { withTy typeruSt with ch := some chunkA }.status = 0x30 ∧
      ({ withTy typeruSt with ch := some chunkA }.answer .protocol 4 0 []).status = 0x3F := by decide

/-- The trace of R262 after its type field: ACC, and the phase with an empty payload. -/
theorem test_trace_type_field :
    takeType .default { startParse .chunk with ph := .type, bc := 3, tyr := 0x0049454E } 0x44 =
      { startParse .chunk with ph := .crcf, bc := 0, tyr := 0x49454E44, acc := some 0x51BD9F7D } := by decide +kernel

/-- The last byte of R262's frame is accepted, and EOS then completes. -/
theorem test_trace_crc_field :
    (takeCrcf .default { startParse .chunk with ph := .crcf, bc := 3, tyr := 0x49454E44, acc := some 0x51BD9F7D, crcr := 0x00AE4260 }
      0x82).map (fun r => (r.ph, r.bc, r.crcr, r.pend, r.kept)) =
        some (.drain, 4, 0xAE426082, some ⟨.ok, 0⟩, some chunkIEND) := by decide +kernel

/-- The second trace: the type `52 35 53 74` fails at its last byte. -/
theorem test_trace_bad_type :
    (fun r : ParseRegs => (r.ph, r.pend)) (takeType .default
      { startParse .chunk with ph := .type, bc := 3, lenr := 1, tyr := 0x00523553 } 0x74) =
        (.drain, some ⟨.invalidChunkType, 0⟩) := by decide +kernel

/-- The third: EOS in the length field. -/
theorem test_trace_container_end :
    ({ startParse .cont with ph := .len, bc := 1 } : ParseRegs).takeEos = some ⟨.unexpectedEof, 0⟩ ∧
      ({ startParse .cont with ph := .len, bc := 0 } : ParseRegs).takeEos = some ⟨.ok, 0⟩ := by decide

/-! ### Witnesses: states and operands that meet the hypotheses of each statement that has some -/

/-- A block with everything loaded, that has just answered. -/
def loaded : State := { withCs [chunkIEND, chunkSecret] with ty := some typeRuSt, ch := some chunkA }

theorem chunkA_ok : chunkA.Ok .default := by decide +kernel

theorem store_ok : StoreOk .default [chunkIEND, chunkSecret] := by decide +kernel

theorem loaded_inv : loaded.Inv where
  type := by rintro t h; cases h; decide
  chunk := by rintro c h; cases h; exact chunkA_ok
  store := store_ok
  response := by decide
  engine := trivial

/-- A parser that has taken the length and type of `frameA` and waits for its payload byte. -/
def midFrame : ParseRegs :=
  { startParse .chunk with ph := .data, lenr := 1, tyr := 0x52755374, acc := some (crcRun crcInitial typeRuSt.bytes) }

/-- The block with that parser at work and the rest of the frame lined up. -/
def busy : State :=
  { loaded with eng := some (.parse midFrame), host := [.byte 0x41, .byte 0xFC, .byte 0x62, .byte 0x66, .byte 0x05, .eos] }

theorem busy_inv : busy.Inv where
  type := loaded_inv.type
  chunk := loaded_inv.chunk
  store := loaded_inv.store
  response := by decide
  engine := by
    refine ⟨by decide, rfl, ?_⟩
    refine ⟨by decide, by decide, by decide, _, rfl, fun _ => ⟨rfl, ?_⟩⟩
    decide +kernel

theorem witness_DecodeAndEncodeAreInverse :
    Request.wf ⟨0x00, 0xFFFFFFFF, []⟩ = true ∧ Request.wf ⟨0x11, 0xFF, []⟩ = true ∧
      Request.wf ⟨0x70, 0, []⟩ = true := by decide

/-- The third clause's premises: CRC.UPD with other upper bits, an operation that takes a stream, one that does not. -/
theorem witness_ArgumentWordFormats :
    ((0x11#8 ≠ 0x00 ∧ 0x11#8 ≠ 0x36) ∧ (0x12345649#32).extractLsb' 0 8 = (0x49#32).extractLsb' 0 8) ∧
      (0x30#8 ≠ 0x00 ∧ 0x30#8 ≠ 0x36 ∧ 0x30#8 ≠ 0x11) ∧ (0x40#8 ≠ 0x00 ∧ 0x40#8 ≠ 0x36 ∧ 0x40#8 ≠ 0x11) := by decide

/-- Both ends of each range, the code before and after each range that is assigned, and a state for either event. -/
theorem witness_ReservedCodesAnswerIllegal :
    let reserved (n : Nat) : Bool := decide (0x09 ≤ n ∧ n ≤ 0x0F ∨ 0x13 ≤ n ∧ n ≤ 0x1F ∨ 0x28 ≤ n ∧ n ≤ 0x2F ∨
      0x37 ≤ n ∧ n ≤ 0x6F ∨ 0x71 ≤ n)
    [0x09, 0x0F, 0x13, 0x1F, 0x28, 0x2F, 0x37, 0x6F, 0x71, 0xFF].all reserved = true ∧
      [0x08, 0x10, 0x12, 0x20, 0x27, 0x30, 0x36, 0x70].any reserved = false ∧
      (lined [.op ⟨0xFF, 0, []⟩]).eng = none ∧ (lined [.start 0x09 0]).host = .start 0x09 0 :: [] := by decide

theorem witness_StepRunsTheDecodedInstruction :
    (lined [.op ⟨0x35, 0, []⟩]).eng = none ∧ (lined [.op ⟨0x35, 0, []⟩]).host = .op ⟨0x35, 0, []⟩ :: [] ∧
      decode ⟨0x35, 0, []⟩ = .ok .ctCount := ⟨rfl, rfl, rfl⟩

/-- The boundary letters and their neighbours on either side. -/
theorem witness_LoadTypeFromBytes :
    AllLetters ⟨0x41, 0x5A, 0x61, 0x7A⟩ ∧ ¬ AllLetters ⟨0x40, 0x5A, 0x61, 0x7A⟩ ∧ ¬ AllLetters ⟨0x41, 0x5B, 0x61, 0x7A⟩ ∧
      ¬ AllLetters ⟨0x41, 0x5A, 0x60, 0x7A⟩ ∧ ¬ AllLetters ⟨0x41, 0x5A, 0x61, 0x7B⟩ :=
  ⟨by decide, by decide, by decide, by decide, by decide⟩

/-- Three and five letters, and four bytes one of which is no letter. -/
theorem witness_LoadTypeFromText :
    AllLetters typeRuSt ∧ ∀ text ∈ [[0x52#8, 0x75, 0x53], [0x52, 0x75, 0x53, 0x74, 0x79], [0x52, 0x75, 0x31, 0x74]],
      ¬ ∃ t : ChunkType, text = t.bytes ∧ AllLetters t := by
  refine ⟨by decide, fun text hx => ?_⟩
  simp only [List.mem_cons, List.not_mem_nil, or_false] at hx
  rintro ⟨⟨b0, b1, b2, b3⟩, h, hl⟩
  rcases hx with rfl | rfl | rfl
  · cases h
  · cases h
  · cases h
    revert hl
    decide

theorem witness_ReadTypeBack : (withTy typeRuSt).ty = some typeRuSt ∧ State.reset.ty = none := ⟨rfl, rfl⟩

theorem witness_PropertyReadsAreCaseBits : (withTy typeRuSt).ty = some typeRuSt ∧ State.reset.ty = none := ⟨rfl, rfl⟩

theorem witness_TypeTextRoundTrip :
    TypeRegOk loaded.ty ∧ loaded.ty ≠ none ∧ exec .tyRdt loaded = .next (loaded.answer .ok 0 0 typeRuSt.bytes) :=
  ⟨loaded_inv.type, by decide, rfl⟩

theorem witness_CrcArithmeticLaws :
    ([0x01#8, 0x02].length = [0x03#8, 0x04].length ∧ [0x03#8, 0x04].length = [0x05#8, 0xFF].length) ∧ 0 < 8 ∧ 7 < 8 := by
  decide

theorem witness_CrcOperationsComputeCrc32 :
    let s := lined [.op (encode .crcInit), .op (encode (.crcUpd 0x49)), .op (encode .crcRd)]
    s.eng = none ∧ s.host = .op (encode .crcInit) :: ([0x49#8].map fun b => .op (encode (.crcUpd b))) ++
      .op (encode .crcRd) :: [] := ⟨rfl, rfl⟩

theorem witness_OtherUnitsIgnoreCrcAcc :
    (∀ b, Instr.chSer ≠ .crcUpd b) ∧ Instr.chSer ≠ .crcInit ∧ Instr.chSer ≠ .crcRd ∧ Instr.chSer ≠ .sysReset ∧
      exec .chSer loaded = .next (loaded.answer .ok 0 0 frameA) :=
  ⟨by simp, by simp, by simp, by simp, rfl⟩

/-- At the capacity, and one byte over it. -/
theorem witness_NewChunkDerivesLengthAndCrc :
    State.reset.ty = none ∧ ({ built 3 9 with ty := some typeRuSt } : State).ty = some typeRuSt ∧
      [0x61#8, 0x62, 0x63].length ≤ (built 3 9).cfg.maxPayload.toNat ∧
      (built 3 9).cfg.maxPayload.toNat < [0x61#8, 0x62, 0x63, 0x64].length := by decide

/-- One byte short of a header; a type that is no type; one byte short of the frame; a wrong CRC; a payload one byte
over the capacity and one at it. -/
theorem witness_ParseFrameOutcomes :
    [0x00#8, 0x00, 0x00, 0x00, 0x49, 0x45, 0x4E].length < 8 ∧ ¬ AllLetters ⟨0x52, 0x75, 0x31, 0x74⟩ ∧
      (AllLetters typeRuSt ∧ [0x41#8, 0xFC, 0x62, 0x66].length < (1#32).toNat + 4) ∧
      ([0x41#8].length = (1#32).toNat ∧ 0xFC626604#32 ≠ crc32 (typeRuSt.bytes ++ [0x41])) ∧
      (0xFC626605#32 = crc32 (typeRuSt.bytes ++ [0x41]) ∧ (built 0 9).cfg.maxPayload.toNat < (1#32).toNat) ∧
      (1#32).toNat ≤ (built 1 9).cfg.maxPayload.toNat := by decide +kernel

theorem witness_FrameLengthDoesNotWrap : AllLetters typeruSt ∧ 8 + ([] : List Byte).length < 2 ^ 32 ∧
    8 + [0x00#8, 0x00, 0x00, 0x00].length < 2 ^ 32 := by decide

theorem witness_SerializeChunkFieldOrder :
    loaded.ch = some chunkA ∧ chunkA.Ok loaded.cfg ∧ exec .chSer loaded = .next (loaded.answer .ok 0 0 frameA) ∧
      State.reset.ch = none := ⟨rfl, chunkA_ok, rfl, rfl⟩

theorem witness_ChunkAccessors :
    loaded.ch = some chunkA ∧ chunkA.Ok loaded.cfg ∧ exec .chLen loaded = .next (loaded.answer .ok 0 1 []) ∧
      exec .chType loaded = .next ({ loaded with ty := some typeRuSt }.answer .ok 0 0 []) ∧
      exec .chData loaded = .next (loaded.answer .ok 0 0 [0x41]) ∧
      exec .chCrc loaded = .next (loaded.answer .ok 0 0xFC626605 []) ∧ State.reset.ch = none :=
  ⟨rfl, chunkA_ok, rfl, rfl, rfl, rfl, rfl⟩

theorem witness_TextIsPayloadOrInvalidUtf8 :
    ((withCh chunkA).ch = some chunkA ∧ utf8Valid (withCh chunkA).cfg.utf8 chunkA.data = true ∧
        ∀ b ∈ chunkA.data, b.toNat < 0x80) ∧
      ((withCh chunkTe).ch = some chunkTe ∧ utf8Valid (withCh chunkTe).cfg.utf8 chunkTe.data = false) ∧
      State.reset.ch = none := by decide +kernel

theorem witness_SevenBitPayloadsAreText : (∀ b ∈ [0x00#8, 0x7F], b.toNat < 0x80) ∧ ∀ b ∈ ([] : List Byte), b.toNat < 0x80 := by
  decide

theorem witness_SerializedChunkParsesBack :
    loaded.ch = some chunkA ∧ ChunkRegOk loaded.cfg loaded.ch ∧
      exec .chSer loaded = .next (loaded.answer .ok 0 0 frameA) := ⟨rfl, loaded_inv.chunk, rfl⟩

theorem witness_ParsedFrameSerializesBack :
    exec (.chParse (frameA ++ [0xFF, 0xFF])) State.reset = .next (withCh chunkA) ∧ (withCh chunkA).code = .ok :=
  ⟨of_answered test_chParse_accepts, rfl⟩

/-- The same chunk and the same store in two blocks, and two rests that agree. -/
theorem witness_SerializersAreInjective :
    (loaded.ch = some chunkA ∧ (withCh chunkA).ch = some chunkA ∧ chunkA.data.length = chunkA.len.toNat ∧
      exec .chSer loaded = .next (loaded.answer .ok 0 0 frameA) ∧
      exec .chSer (withCh chunkA) = .next ((withCh chunkA).answer .ok 0 0 frameA) ∧ frameA ++ [0xFF] = frameA ++ [0xFF]) ∧
    (∀ c ∈ loaded.cs, c.data.length = c.len.toNat) ∧
      exec .ctSer loaded = .next (loaded.answer .ok 0 0 (sig ++ frameIEND ++ frameSecret)) ∧
      exec .ctSer (withCs [chunkIEND, chunkSecret]) =
        .next ((withCs [chunkIEND, chunkSecret]).answer .ok 0 0 (sig ++ frameIEND ++ frameSecret)) :=
  ⟨⟨rfl, rfl, rfl, rfl, rfl, rfl⟩, by decide, rfl, rfl⟩

/-- The empty beginning, and one short of the whole. -/
theorem witness_CutFrameIsUnexpectedEof :
    loaded.ch = some chunkA ∧ ChunkRegOk loaded.cfg loaded.ch ∧
      exec .chSer loaded = .next (loaded.answer .ok 0 0 frameA) ∧ 0 < frameA.length ∧ 12 < frameA.length :=
  ⟨rfl, loaded_inv.chunk, rfl, by decide, by decide⟩

/-- The lowest and the highest bit of a payload byte and of the CRC field, and the case bit of the first type byte. -/
theorem witness_SingleBitFlipIsCrcMismatch :
    chunkA.Ok State.reset.cfg ∧ chunkA.data = [] ++ 0x41 :: [] ∧ 0 < 8 ∧ 7 < 8 ∧ 0 < 32 ∧ 31 < 32 ∧
      (chunkA.type.bytes = [] ++ 0x52 :: [0x75, 0x53, 0x74] ∧
        (⟨0x72, 0x75, 0x53, 0x74⟩ : ChunkType).bytes = [] ++ (0x52 ^^^ (1#8 <<< 5)) :: [0x75, 0x53, 0x74] ∧
        AllLetters ⟨0x72, 0x75, 0x53, 0x74⟩) := by decide +kernel

theorem witness_SerializeAndCountContainer :
    StoreOk loaded.cfg loaded.cs ∧ exec .ctSer loaded = .next (loaded.answer .ok 0 0 (sig ++ frameIEND ++ frameSecret)) :=
  ⟨store_ok, rfl⟩

theorem witness_ContainerLayout :
    StoreOk loaded.cfg loaded.cs ∧ exec .ctSer loaded = .next (loaded.answer .ok 0 0 (sig ++ frameIEND ++ frameSecret)) ∧
      loaded.cs = [chunkIEND] ++ chunkSecret :: [] := ⟨store_ok, rfl, rfl⟩

/-- One place left, and none. -/
theorem witness_AppendAddsAtTheEnd :
    State.reset.ch = none ∧ (withCh chunkA).ch = some chunkA ∧
      ({ built 9 2 with cs := [chunkIEND] } : State).cs.length < (built 9 2).cfg.maxChunks.toNat ∧
      (built 9 1).cfg.maxChunks.toNat ≤ ({ built 9 1 with cs := [chunkIEND] } : State).cs.length := by decide

/-- The second of two entries sought and found, a type no entry has, and no type. -/
theorem witness_RemoveAndFindTakeTheFirstMatch :
    (loaded.cs = [chunkIEND] ++ chunkSecret :: [] ∧
        ({ loaded with ty := some typeruSt } : State).ty = some chunkSecret.type ∧
        ∀ x ∈ [chunkIEND], x.type ≠ chunkSecret.type) ∧
      (loaded.ty = some typeRuSt ∧ ∀ x ∈ loaded.cs, x.type ≠ typeRuSt) ∧ State.reset.ty = none := by decide

/-- The last index, the count, and the largest index. -/
theorem witness_GetEntryByIndex :
    (1#32).toNat < loaded.cs.length ∧ loaded.cs.length ≤ (2#32).toNat ∧ loaded.cs.length ≤ (0xFFFFFFFF#32).toNat := by decide

/-- A wrong first byte and seven bytes; good frames with a stray byte after them; a full store. -/
theorem witness_ParseContainerOutcomes :
    ([0x88#8, 0x50, 0x4E, 0x47, 0x0D, 0x0A, 0x1A, 0x0A].take 8 ≠ [0x89, 0x50, 0x4E, 0x47, 0x0D, 0x0A, 0x1A, 0x0A] ∧
        (sig.take 7).take 8 ≠ [0x89, 0x50, 0x4E, 0x47, 0x0D, 0x0A, 0x1A, 0x0A]) ∧
      StoreOk State.reset.cfg [chunkIEND, chunkSecret] ∧
      ([0x00#8] ≠ [] ∧ exec (.chParse [0x00]) State.reset = .next (State.reset.answer .unexpectedEof 0 0 []) ∧
        (State.reset.answer .unexpectedEof 0 0 []).code ≠ .ok) ∧
      (StoreOk (built 9 1).cfg [chunkIEND] ∧ chunkA.Ok (built 9 1).cfg ∧
        [chunkIEND].length = (built 9 1).cfg.maxChunks.toNat) :=
  ⟨by decide, store_ok, ⟨by decide, rfl, by decide⟩, by decide +kernel⟩

theorem witness_SerializedContainerParsesBack :
    StoreOk loaded.cfg loaded.cs ∧ exec .ctSer loaded = .next (loaded.answer .ok 0 0 (sig ++ frameIEND ++ frameSecret)) :=
  ⟨store_ok, rfl⟩

theorem witness_ParsedContainerSerializesBack :
    exec (.ctParse (sig ++ frameIEND)) State.reset = .next (withCs [chunkIEND]) ∧ (withCs [chunkIEND]).code = .ok :=
  ⟨of_answered (by decide +kernel), rfl⟩

theorem witness_AppendThenRemoveRestores :
    let t := { loaded with cs := [chunkIEND, chunkSecret, chunkA] }.answer .ok 0 0 []
    loaded.ch = some chunkA ∧ loaded.ty = some chunkA.type ∧ (∀ x ∈ loaded.cs, x.type ≠ chunkA.type) ∧
      loaded.cs.length < loaded.cfg.maxChunks.toNat ∧ exec .ctAppend loaded = .next t ∧
      exec .ctRemove t = .next (loaded.answer .ok 0 0 []) ∧
      exec .ctSer loaded = .next (loaded.answer .ok 0 0 (sig ++ frameIEND ++ frameSecret)) ∧
      exec .ctSer (loaded.answer .ok 0 0 []) = .next (loaded.answer .ok 0 0 (sig ++ frameIEND ++ frameSecret)) :=
  ⟨rfl, rfl, by decide, by decide, of_answered (by decide), of_answered (by decide), rfl, rfl⟩

theorem witness_ErrorEntryChangesNothingElse :
    exec (.ctGet 2) loaded = .next (loaded.answer .protocol 4 0 []) ∧ (loaded.answer .protocol 4 0 []).code ≠ .ok ∧
      step { loaded with host := [.op ⟨0x09, 0, [0x00]⟩] } = .next (loaded.answer .protocol 1 0 []) :=
  ⟨rfl, by decide, rfl⟩

/-- `OK`, `Protocol`, and a document error outside CT.PARSE. -/
theorem witness_OperationsRaiseOnlyTheirErrors :
    exec .ctCount loaded = .next (loaded.answer .ok 0 2 []) ∧
      exec (.ctGet 2) loaded = .next (loaded.answer .protocol 4 0 []) ∧
      exec .ctFind loaded = .next (loaded.answer .chunkNotFound 0 0 []) ∧ ∀ x, Instr.ctFind ≠ .ctParse x :=
  ⟨rfl, rfl, rfl, by simp⟩

theorem witness_OnlyListedOperationsOverwrite :
    exec .ctCount loaded = .next (loaded.answer .ok 0 2 []) ∧ Instr.ctCount ≠ .sysReset ∧
      (∀ x, Instr.ctCount ≠ .tyLdb x) ∧ (∀ x, Instr.ctCount ≠ .chNew x) ∧ (∀ x, Instr.ctCount ≠ .ctParse x) ∧
      ∀ b, Instr.ctCount ≠ .crcUpd b := ⟨rfl, by simp, by simp, by simp, by simp, by simp⟩

theorem witness_ReadingOperationsAreIdempotent :
    exec .chSer loaded = .next (loaded.answer .ok 0 0 frameA) ∧
      exec .chType loaded = .next ({ loaded with ty := some typeRuSt }.answer .ok 0 0 []) := ⟨rfl, rfl⟩

theorem witness_HardwareResetAbandonsTheOperation :
    ({ busy with host := [.reset, .eos] } : State).host = .reset :: [.eos] := rfl

/-- A step in the middle of an operation. -/
theorem witness_EveryStepKeepsTheInvariant : busy.Inv ∧ ∃ t, step busy = .next t := ⟨busy_inv, _, rfl⟩

/-- A whole operation, one begun and completed item by item, and a hardware reset. -/
theorem witness_ResetStateIsSafe :
    hostKeepsProtocol false [.op ⟨0x35, 0, []⟩, .start 0x21 0, .byte 0x00, .eos, .start 0x30 0, .reset] = true := rfl

theorem witness_SafeStatesNeverStop : busy.Safe ∧ State.Safe { loaded with host := [.op ⟨0x31, 0, []⟩] } :=
  ⟨⟨busy_inv, rfl⟩, ⟨loaded_inv.type, loaded_inv.chunk, loaded_inv.store, loaded_inv.response, trivial⟩, rfl⟩

theorem witness_OverlapAndStallHaveNoMeaning :
    busy.awaiting = true ∧ ({ busy with host := [.op ⟨0x35, 0, []⟩] } : State).host = .op ⟨0x35, 0, []⟩ :: [] ∧
      ({ busy with host := [.start 0x35 0] } : State).host = .start 0x35 0 :: [] ∧
      ({ busy with host := [] } : State).host = [] := ⟨rfl, rfl, rfl, rfl⟩

theorem witness_IdleBlockKeepsItsState :
    loaded.eng = none ∧ loaded.host = [] ∧ (lined [.byte 0x00]).host = .byte 0x00 :: [] ∧ (lined [.eos]).host = .eos :: [] :=
  ⟨rfl, rfl, rfl, rfl⟩

theorem witness_NothingIsSeenBeforeCompletion : ∃ t, step busy = .next t ∧ t.eng ≠ none := ⟨_, rfl, by decide⟩

/-- CH.PARSE and CT.PARSE of the shortest inputs that succeed. -/
theorem witness_SerialParsersAgreeWithLevelT :
    (State.reset.eng = none ∧ step { State.reset with host := .op ⟨0x21, 0, frameIEND⟩ :: [] } = .next (withCh chunkIEND)) ∧
      step { loaded with host := .op ⟨0x30, 0, sig⟩ :: [] } = .next { loaded with cs := [] } :=
  ⟨⟨rfl, of_answered (by decide +kernel)⟩, of_answered (by decide +kernel)⟩

theorem witness_SerialLoadsAgreeWithLevelT :
    step { State.reset with host := .op ⟨0x01, 0, [0x52, 0x75, 0x53, 0x74]⟩ :: [] } = .next (withTy typeRuSt) ∧
      step { withTy typeRuSt with host := .op ⟨0x20, 0, [0x41]⟩ :: [] } =
        .next { withTy typeRuSt with ch := some chunkA } :=
  ⟨of_answered (by decide), of_answered (by decide +kernel)⟩

theorem witness_SerialEmittersAgreeWithLevelT :
    loaded.Inv ∧ loaded.eng = none ∧ ([] : List HostEvent).head? ≠ some .reset ∧
      step { loaded with host := .op ⟨0x22, 0, []⟩ :: [] } = .next (loaded.answer .ok 0 0 frameA) ∧
      step { loaded with host := .op ⟨0x31, 0, []⟩ :: [] } =
        .next (loaded.answer .ok 0 0 (sig ++ frameIEND ++ frameSecret)) ∧
      step { loaded with host := .op ⟨0x03, 0, []⟩ :: [] } = .next (loaded.answer .ok 0 0 typeRuSt.bytes) ∧
      step { loaded with host := .op ⟨0x25, 0, []⟩ :: [] } = .next (loaded.answer .ok 0 0 [0x41]) ∧
      step { loaded with host := .op ⟨0x27, 0, []⟩ :: [] } = .next (loaded.answer .ok 0 0 [0x41]) :=
  ⟨loaded_inv, rfl, by decide, rfl, rfl, rfl, rfl, rfl⟩

/-- An operation without a stream, and a reserved code. -/
theorem witness_OtherOperationsAreSingleSteps :
    (∀ x ∈ [0x01#8, 0x03#8, 0x20#8, 0x21#8, 0x22#8, 0x25#8, 0x27#8, 0x30#8, 0x31#8], 0x35#8 ≠ x) ∧
      (∀ x ∈ [0x01#8, 0x03#8, 0x20#8, 0x21#8, 0x22#8, 0x25#8, 0x27#8, 0x30#8, 0x31#8], 0xFF#8 ≠ x) ∧
      loaded.eng = none := by decide

theorem witness_EncodeAppendsOneFrame :
    StoreOk State.reset.cfg [chunkIEND] ∧ [chunkIEND].length < State.reset.cfg.maxChunks.toNat ∧ AllLetters typeruSt ∧
      typeruSt.b0.getLsbD 5 = true ∧ secret.length ≤ State.reset.cfg.maxPayload.toNat := by decide +kernel

theorem witness_EncodeRefusesCriticalTypes :
    StoreOk State.reset.cfg [chunkIEND] ∧ AllLetters typeIHDR ∧ typeIHDR.b0.getLsbD 5 = false := by decide +kernel

/-- What a host sequence ends with, if it ends. -/
def ended : SequenceResult → Option (State × HostReport)
  | .next r => some r
  | .fault _ => none
  | .refused _ => none

theorem of_ended {r : SequenceResult} {t : State × HostReport} (h : ended r = some t) : r = .next t := by
  cases r <;> simp_all [ended]

/-- Program P2 (95_test_vectors.md) on a file of one frame; and its message is text. -/
theorem witness_DecodeAndRemoveUndoEncode :
    StoreOk State.reset.cfg [chunkIEND] ∧ (∀ x ∈ [chunkIEND], x.type ≠ typeruSt) ∧
      hostEncode (serContainer [chunkIEND]) typeruSt.bytes secret State.reset =
        .next ({ withTy typeruSt with ch := some chunkSecret, cs := [chunkIEND, chunkSecret] }.answer .ok 0 0
          (sig ++ frameIEND ++ frameSecret), .wrote (sig ++ frameIEND ++ frameSecret)) ∧
      utf8Valid State.reset.cfg.utf8 secret = true :=
  ⟨by decide +kernel, by decide, of_ended (by decide +kernel), by decide⟩

theorem witness_PrintListsTypesAfterTheOneIend :
    StoreOk State.reset.cfg ([chunkA] ++ chunkIEND :: [chunkSecret]) ∧ chunkIEND.type = ⟨0x49, 0x45, 0x4E, 0x44⟩ ∧
      ∀ x ∈ [chunkA] ++ [chunkSecret], x.type ≠ chunkIEND.type := by decide +kernel

end Sys2Proof.Tests
end

section
/-! SUPPORT. The statements about the scope of the block (00_scope.md): UTF8_VALID on seven-bit payloads (R8), the step
as `exec` of the decoded instruction (R14, R15), and that every operation answers (R14, R33, R298). -/

namespace Sys2Proof.Machine

/-! ### UTF8_VALID on seven-bit payloads -/

theorem sevenBit_iff (d : List Byte) : sevenBit d = true ↔ ∀ b ∈ d, b.toNat < 0x80 := by
  simp only [sevenBit, List.all_eq_true, decide_eq_true_eq]
  refine forall₂_congr fun b _ => ?_
  rw [BitVec.le_def]
  exact Nat.lt_succ_iff.symm

/-- Between two patterns of GK3, a seven-bit byte is a whole pattern by itself. -/
theorem utf8From_nil_cons_ascii {b : Byte} (hb : b.toNat < 0x80) (rest : List Byte) :
    utf8From [] (b :: rest) = utf8From [] rest := by
  rw [utf8From, utf8Tail_ascii b hb]

theorem utf8Gk3_of_sevenBit {d : List Byte} (hd : ∀ b ∈ d, b.toNat < 0x80) : utf8Gk3 d = true := by
  induction d with
  | nil => rfl
  | cons b rest ih =>
    obtain ⟨hb, hrest⟩ := List.forall_mem_cons.mp hd
    exact (utf8From_nil_cons_ascii hb rest).trans (ih hrest)

/-- Settles O22: GK3 reads a seven-bit payload byte by byte, and every other instantiation accepts it by R8. -/
theorem sevenBitPayloadsAreText : Obligations.SevenBitPayloadsAreText := by
  intro p d hd
  cases p with
  | recommended => exact utf8Gk3_of_sevenBit hd
  | other k => simp [utf8Valid, (sevenBit_iff d).mpr hd]

/-! ### The step runs the decoded instruction -/

/-- Settles O4, by `step_op` at the state's own host list. -/
theorem stepRunsTheDecodedInstruction : Obligations.StepRunsTheDecodedInstruction := by
  intro s r rest i heng hhost hdecode
  calc step s = step { s with host := .op r :: rest } := by rw [← hhost]
    _ = exec i { s with host := rest } := step_op heng hdecode

/-! ### Every operation answers -/

/-- The result is a next state that has the parameters and the lined-up host events of `s`. -/
def Answers (s : State) (result : Result) : Prop :=
  ∃ t, result = .next t ∧ t.cfg = s.cfg ∧ t.host = s.host

/-- A response latched in a state `u` that differs from `s` in registers only (R14). -/
theorem succeed_answers {s u : State} (res : Word) (out : List Byte) (hcfg : u.cfg = s.cfg := by rfl)
    (hhost : u.host = s.host := by rfl) : Answers s (succeed res out u) :=
  ⟨_, rfl, hcfg, hhost⟩

theorem raise_answers (code : Code) (info : Word) (s : State) : Answers s (raise code info s) :=
  ⟨_, rfl, rfl, rfl⟩

theorem withType_answers {s : State} {run : ChunkType → Result} (h : ∀ t, Answers s (run t)) :
    Answers s (withType s run) := by
  cases hty : s.ty with
  | some t => rw [withType_some hty]; exact h t
  | none => rw [withType_none hty]; exact raise_answers ..

theorem withChunk_answers {s : State} {run : Chunk → Result} (h : ∀ c, Answers s (run c)) :
    Answers s (withChunk s run) := by
  cases hch : s.ch with
  | some c => rw [withChunk_some hch]; exact h c
  | none => rw [withChunk_none hch]; exact raise_answers ..

theorem loadType_answers (t : ChunkType) (s : State) : Answers s (loadType t s) := by
  unfold loadType
  split
  · exact succeed_answers ..
  · exact raise_answers ..

theorem readProperty_answers (p : ChunkType → Bool) (s : State) : Answers s (readProperty p s) :=
  withType_answers fun _ => succeed_answers ..

theorem execTyLdt_answers (text : List Byte) (s : State) : Answers s (execTyLdt text s) := by
  unfold execTyLdt
  split
  · exact loadType_answers ..
  · exact raise_answers ..

theorem execChNew_answers (payload : List Byte) (s : State) : Answers s (execChNew payload s) := by
  refine withType_answers fun t => ?_
  split
  · exact raise_answers ..
  · exact succeed_answers ..

theorem execChParse_answers (frame : List Byte) (s : State) : Answers s (execChParse frame s) := by
  unfold execChParse
  split
  · exact raise_answers ..
  · exact succeed_answers ..

theorem execChText_answers (s : State) : Answers s (execChText s) := by
  refine withChunk_answers fun c => ?_
  split
  · exact succeed_answers ..
  · exact raise_answers ..

theorem execCtParse_answers (file : List Byte) (s : State) : Answers s (execCtParse file s) := by
  unfold execCtParse
  split
  · exact raise_answers ..
  · exact raise_answers ..
  · exact succeed_answers ..

theorem execCtAppend_answers (s : State) : Answers s (execCtAppend s) := by
  refine withChunk_answers fun c => ?_
  split
  · exact raise_answers ..
  · exact succeed_answers ..

theorem execCtRemove_answers (s : State) : Answers s (execCtRemove s) := by
  refine withType_answers fun t => ?_
  split
  · exact succeed_answers ..
  · exact raise_answers ..

theorem execCtFind_answers (s : State) : Answers s (execCtFind s) := by
  refine withType_answers fun t => ?_
  split
  · exact succeed_answers ..
  · exact raise_answers ..

theorem execCtGet_answers (index : Word) (s : State) : Answers s (execCtGet index s) := by
  unfold execCtGet
  split
  · exact succeed_answers ..
  · exact raise_answers ..

theorem exec_answers (i : Instr) (s : State) : Answers s (exec i s) := by
  cases i with
  | tyLdb t => exact loadType_answers t s
  | tyLdt text => exact execTyLdt_answers text s
  | tyRdb | tyRdt => exact withType_answers fun _ => succeed_answers ..
  | tyCrit | tyPub | tyRsv | tySafe | tyWrt => exact readProperty_answers ..
  | crcInit | crcUpd | crcRd | ctSer | ctCount | sysReset => exact succeed_answers ..
  | chNew payload => exact execChNew_answers payload s
  | chParse frame => exact execChParse_answers frame s
  | chSer | chLen | chType | chData | chCrc => exact withChunk_answers fun _ => succeed_answers ..
  | chText => exact execChText_answers s
  | ctParse file => exact execCtParse_answers file s
  | ctAppend => exact execCtAppend_answers s
  | ctRemove => exact execCtRemove_answers s
  | ctFind => exact execCtFind_answers s
  | ctGet index => exact execCtGet_answers index s

/-- Settles O37, by the instruction: each ends in `succeed` or `raise` on every path. -/
theorem everyOperationAnswers : Obligations.EveryOperationAnswers := exec_answers

end Sys2Proof.Machine
end

section
/-! SUPPORT. The statements about the state (10_state.md): every step keeps the invariant (R21 to R23, R26, R27), no
other unit touches CRCACC (R24), STATUS (R25) and the reset state (R34). -/

namespace Sys2Proof.Machine

/-! ### An operation at Level T keeps the invariant -/

/-- A next state that the result answers meets the invariant. -/
def AnswersInv (result : Result) : Prop := ∀ t, result = .next t → t.Inv

@[simp] theorem answersInv_next {t : State} : AnswersInv (.next t) ↔ t.Inv := by
  simp [AnswersInv]

@[simp] theorem answersInv_fault (f : Fault) : AnswersInv (.fault f) := by
  simp [AnswersInv]

theorem answersInv_of_eq_next {result : Result} {t : State} (h : result = .next t) (ht : t.Inv) :
    AnswersInv result := by
  rw [h]; exact answersInv_next.2 ht

/-- R36: taking entries out of a store leaves a store. -/
theorem storeOk_of_sublist {cfg : Params} {cs ds : List Chunk} (h : StoreOk cfg cs) (hsub : ds.Sublist cs) :
    StoreOk cfg ds :=
  ⟨fun c hc => h.1 c (hsub.subset hc), hsub.length_le.trans h.2⟩

theorem storeOk_append_singleton {cfg : Params} {cs : List Chunk} {c : Chunk} (h : StoreOk cfg cs) (hc : c.Ok cfg)
    (hroom : cs.length < cfg.maxChunks.toNat) : StoreOk cfg (cs ++ [c]) := by
  refine ⟨List.forall_mem_append.2 ⟨h.1, List.forall_mem_singleton.2 hc⟩, ?_⟩
  rw [List.length_append, List.length_singleton]
  exact hroom

/-- What the search finds is an entry of the store. -/
theorem findChunk_ok {cfg : Params} {cs : List Chunk} {ct : ChunkType} {c : Chunk} (h : StoreOk cfg cs)
    (hfind : findChunk cs ct = some c) : c.Ok cfg :=
  h.1 c (List.mem_of_find?_eq_some hfind)

theorem inv_withStore {s : State} {cs : List Chunk} (hi : s.Inv) (he : s.eng = none) (hcs : StoreOk s.cfg cs) :
    ({ s with cs := cs } : State).Inv :=
  ⟨hi.type, hi.chunk, hcs, hi.response, by simp [EngineOk, he]⟩

section
variable {s : State} (hi : s.Inv) (he : s.eng = none)
include hi he

theorem succeed_answersInv {res : Word} {out : List Byte} : AnswersInv (succeed res out s) :=
  answersInv_next.2 (inv_ok hi he)

theorem raise_answersInv {code : Code} {info : Word} (herr : Pend.IsError ⟨code, info⟩) :
    AnswersInv (raise code info s) :=
  answersInv_next.2 (inv_answer hi he (responseOk_error s code info herr))

/-- An error of the documents the block is given, of which every code but `OK` and `Protocol` is one (R290). -/
theorem raise_document_answersInv {code : Code} (info : Word) (hok : code ≠ .ok := by decide)
    (hprotocol : code ≠ .protocol := by decide) : AnswersInv (raise code info s) :=
  raise_answersInv hi he (isError_of_document hok hprotocol)

theorem raiseProtocol_answersInv (why : SubReason) : AnswersInv (raiseProtocol why s) :=
  raise_answersInv hi he (subReason_isError why)

theorem deliverChunk_answersInv {c : Chunk} (hc : c.Ok s.cfg) : AnswersInv (deliverChunk c s) :=
  answersInv_next.2 (inv_setCh hi he hc)

theorem loadType_answersInv (ct : ChunkType) : AnswersInv (loadType ct s) := fun _ => inv_load hi he

/-- The loaded type is valid by I-TY. -/
theorem withType_answersInv {run : ChunkType → Result} (h : ∀ ct, typeValid ct = true → AnswersInv (run ct)) :
    AnswersInv (withType s run) := by
  cases hty : s.ty with
  | some ct => rw [withType_some hty]; exact h ct (hi.type ct hty)
  | none => rw [withType_none hty]; exact raiseProtocol_answersInv hi he .empty

/-- The loaded chunk is legal by I-CH. -/
theorem withChunk_answersInv {run : Chunk → Result} (h : ∀ c, c.Ok s.cfg → AnswersInv (run c)) :
    AnswersInv (withChunk s run) := by
  cases hch : s.ch with
  | some c => rw [withChunk_some hch]; exact h c (hi.chunk c hch)
  | none => rw [withChunk_none hch]; exact raiseProtocol_answersInv hi he .empty

theorem readProperty_answersInv (p : ChunkType → Bool) : AnswersInv (readProperty p s) :=
  withType_answersInv hi he fun _ _ => succeed_answersInv hi he

theorem execTyLdt_answersInv (text : List Byte) : AnswersInv (execTyLdt text s) := by
  unfold execTyLdt
  split
  · exact loadType_answersInv hi he _
  · exact raise_document_answersInv hi he 0

theorem execChNew_answersInv (payload : List Byte) : AnswersInv (execChNew payload s) := by
  refine withType_answersInv hi he fun ct hct => ?_
  split
  · exact raiseProtocol_answersInv hi he .cap
  · rename_i hfits
    exact deliverChunk_answersInv hi he (mkChunk_ok s.cfg hct (Nat.not_lt.1 hfits))

theorem execChParse_answersInv (frame : List Byte) : AnswersInv (execChParse frame s) := by
  unfold execChParse
  split
  · exact raise_answersInv hi he (frameError_isError ..)
  · rename_i hparse
    exact deliverChunk_answersInv hi he (parseChunk_ok hparse).1

theorem execChType_answersInv : AnswersInv (execChType s) :=
  withChunk_answersInv hi he fun _ hc => answersInv_next.2 (inv_setTy hi he hc.1)

theorem execChText_answersInv : AnswersInv (execChText s) := by
  refine withChunk_answersInv hi he fun c _ => ?_
  split
  · exact succeed_answersInv hi he
  · exact raise_document_answersInv hi he 0

theorem execCtParse_answersInv (file : List Byte) : AnswersInv (execCtParse file s) := by
  unfold execCtParse
  split
  · exact raise_document_answersInv hi he 0
  · exact raise_answersInv hi he (frameError_isError ..)
  · rename_i hparse
    exact answersInv_next.2 (inv_setCs hi he (parseContainer_ok hparse).1)

theorem execCtAppend_answersInv : AnswersInv (execCtAppend s) := by
  refine withChunk_answersInv hi he fun c hc => ?_
  split
  · exact raiseProtocol_answersInv hi he .cap
  · rename_i hroom
    exact answersInv_next.2 (inv_setCs hi he (storeOk_append_singleton hi.store hc (Nat.not_le.1 hroom)))

theorem execCtRemove_answersInv : AnswersInv (execCtRemove s) := by
  refine withType_answersInv hi he fun ct _ => ?_
  split
  · rename_i hfind
    have hstore : StoreOk s.cfg (removeChunk s.cs ct) := storeOk_of_sublist hi.store List.eraseP_sublist
    exact deliverChunk_answersInv (inv_withStore hi he hstore) he (findChunk_ok hi.store hfind)
  · exact raise_document_answersInv hi he 0

theorem execCtFind_answersInv : AnswersInv (execCtFind s) := by
  refine withType_answersInv hi he fun ct _ => ?_
  split
  · rename_i hfind
    exact deliverChunk_answersInv hi he (findChunk_ok hi.store hfind)
  · exact raise_document_answersInv hi he 0

theorem execCtGet_answersInv (index : Word) : AnswersInv (execCtGet index s) := by
  unfold execCtGet
  split
  · rename_i hget
    exact deliverChunk_answersInv hi he (hi.store.1 _ (List.mem_of_getElem? hget))
  · exact raiseProtocol_answersInv hi he .range

theorem exec_answersInv (i : Instr) : AnswersInv (exec i s) := by
  cases i with
  | tyLdb ct => exact loadType_answersInv hi he ct
  | tyLdt text => exact execTyLdt_answersInv hi he text
  | tyRdb | tyRdt => exact withType_answersInv hi he fun _ _ => succeed_answersInv hi he
  | tyCrit | tyPub | tyRsv | tySafe | tyWrt => exact readProperty_answersInv hi he _
  | crcInit | crcUpd =>
    exact answersInv_next.2 ⟨hi.type, hi.chunk, hi.store, responseOk_ok .., by simp [EngineOk, he]⟩
  | crcRd | ctSer | ctCount => exact succeed_answersInv hi he
  | chNew payload => exact execChNew_answersInv hi he payload
  | chParse frame => exact execChParse_answersInv hi he frame
  | chSer | chLen | chData | chCrc => exact withChunk_answersInv hi he fun _ _ => succeed_answersInv hi he
  | chType => exact execChType_answersInv hi he
  | chText => exact execChText_answersInv hi he
  | ctParse file => exact execCtParse_answersInv hi he file
  | ctAppend => exact execCtAppend_answersInv hi he
  | ctRemove => exact execCtRemove_answersInv hi he
  | ctFind => exact execCtFind_answersInv hi he
  | ctGet index => exact execCtGet_answersInv hi he index
  | sysReset => exact succeed_answersInv (inv_reset s s.host) rfl

theorem runRequest_answersInv (r : Request) : AnswersInv (runRequest r s) := by
  unfold runRequest
  split
  · exact exec_answersInv hi he _
  · exact raiseProtocol_answersInv hi he .illegal

/-! ### The start step of an operation at Level S -/

theorem startOp_answersInv (i : Instr) : AnswersInv (startOp i s) := by
  cases i with
  | tyLdt => exact answersInv_next.2 (inv_eng hi (show 0#32 ≤ 5#32 by decide))
  | chNew => exact answersInv_next.2 (inv_eng hi (startBuild_ok s))
  | chParse | ctParse => exact answersInv_next.2 (inv_eng hi (startParse_ok s.cfg _))
  | tyRdt | chSer | chData | chText | ctSer => exact answersInv_next.2 (inv_eng hi (startEmit_ok hi _))
  | _ => unfold startOp; exact exec_answersInv hi he _

theorem startCommand_answersInv (cmd : Byte) (arg : Word) : AnswersInv (startCommand cmd arg s) := by
  unfold startCommand
  split
  · exact startOp_answersInv hi he _
  · exact raiseProtocol_answersInv hi he .illegal

theorem serveIdle_answersInv : AnswersInv (serveIdle s) := by
  unfold serveIdle
  split
  · exact answersInv_next.2 hi
  · exact answersInv_next.2 (inv_reset ..)
  · rename_i r rest _; exact runRequest_answersInv (inv_host rest hi) he r
  · rename_i cmd arg rest _; exact startCommand_answersInv (inv_host rest hi) he cmd arg
  · exact answersInv_next.2 (inv_host _ hi)
  · exact answersInv_next.2 (inv_host _ hi)

end

/-! ### One item of an operation in progress -/

/-- What the engine `e` holds in the state `s` (R252 to R259): `EngineOk` of a state with `e` in progress. -/
def Engine.Ok (s : State) : Engine → Prop
  | .parse r => r.Ok s.cfg
  | .build r => r.Ok s.cfg s.ty
  | .text r => r.bc ≤ 5
  | .emit r => r.Ok s

theorem State.Inv.engine_ok {s : State} {e : Engine} (hi : s.Inv) (he : s.eng = some e) : e.Ok s := by
  have h := hi.engine
  rw [EngineOk, he] at h
  cases e <;> exact h

/-- What an engine holds does not depend on what the host has lined up. -/
theorem Engine.ok_withHost {s : State} {e : Engine} (rest : List HostEvent) (h : e.Ok s) :
    e.Ok { s with host := rest } := by
  cases e <;> exact h

/-- The count of TY.LDT saturates at 5 (R261). -/
theorem TextRegs.takeByte_bc_le {r : TextRegs} (b : Byte) (h : r.bc ≤ 5) : (r.takeByte b).bc ≤ 5 := by
  unfold TextRegs.takeByte
  split
  · show r.bc + 1 ≤ 5
    bv_omega
  · exact BitVec.le_refl 5

theorem emitStep_answersInv {s : State} {r : EmitRegs} (hi : s.Inv) (hr : r.Ok s) : AnswersInv (r.emitStep s) := by
  obtain ⟨t, hstep, ht, -⟩ := emitStep_ok hi hr
  exact answersInv_of_eq_next hstep ht

theorem Engine.takeByte_answersInv {s : State} {e : Engine} (b : Byte) (hi : s.Inv) (hok : e.Ok s) :
    AnswersInv (e.takeByte b s) := by
  cases e with
  | parse r =>
    obtain ⟨r', htake, hr'⟩ := ParseRegs.takeByte_ok b hok
    exact answersInv_of_eq_next (by rw [Engine.takeByte, htake]) (inv_eng (e := .parse r') hi hr')
  | build r => exact answersInv_next.2 (inv_eng hi (BuildRegs.takeByte_ok b hok))
  | text r => exact answersInv_next.2 (inv_eng hi (TextRegs.takeByte_bc_le b hok))
  | emit r => exact emitStep_answersInv hi hok

theorem Engine.takeEos_answersInv {s : State} {e : Engine} (hi : s.Inv) (hok : e.Ok s) :
    AnswersInv (e.takeEos s) := by
  cases e with
  | parse r =>
    obtain ⟨t, p, heos, hcomplete, ht, -⟩ := ParseRegs.takeEos_ok (inv_idle hi) hok
    exact answersInv_of_eq_next (by rw [Engine.takeEos, heos]; exact hcomplete) ht
  | build r =>
    obtain ⟨t, hcomplete, ht, -⟩ := BuildRegs.complete_ok (inv_idle hi) hok
    exact answersInv_of_eq_next hcomplete ht
  | text r =>
    obtain ⟨t, hcomplete, ht, -⟩ := TextRegs.complete_ok (r := r) (inv_idle hi)
    exact answersInv_of_eq_next hcomplete ht
  | emit r => exact emitStep_answersInv hi hok

theorem serveInput_answersInv {s : State} {e : Engine} (hi : s.Inv) (hok : e.Ok s) :
    AnswersInv (serveInput e s) := by
  unfold serveInput
  split
  · exact answersInv_fault _
  · exact answersInv_next.2 (inv_reset ..)
  · exact answersInv_fault _
  · exact answersInv_fault _
  · exact Engine.takeByte_answersInv _ (inv_host _ hi) (Engine.ok_withHost _ hok)
  · exact Engine.takeEos_answersInv (inv_host _ hi) (Engine.ok_withHost _ hok)

theorem serveOutput_answersInv {s : State} {r : EmitRegs} (hi : s.Inv) (hr : r.Ok s) :
    AnswersInv (serveOutput r s) := by
  unfold serveOutput
  split
  · exact answersInv_next.2 (inv_reset ..)
  all_goals exact emitStep_answersInv hi hr

theorem step_answersInv {s : State} (hi : s.Inv) : AnswersInv (step s) := by
  unfold step serve
  split
  · rename_i he; exact serveIdle_answersInv hi he
  · rename_i he; exact serveOutput_answersInv hi (hi.engine_ok he)
  all_goals rename_i he; exact serveInput_answersInv hi (hi.engine_ok he)

/-- Settles O45, by what is in progress: nothing, an operation that emits, or one that takes its input. -/
theorem everyStepKeepsTheInvariant : Obligations.EveryStepKeepsTheInvariant :=
  fun _ t hi hstep => step_answersInv hi t hstep

/-! ### CRCACC and the other units -/

/-- The state with another value in `CRCACC`. -/
def State.setCrcacc (acc : Word) (s : State) : State := { s with crcacc := acc }

@[simp] theorem State.setCrcacc_ty (acc : Word) (s : State) : (s.setCrcacc acc).ty = s.ty := rfl

@[simp] theorem State.setCrcacc_ch (acc : Word) (s : State) : (s.setCrcacc acc).ch = s.ch := rfl

@[simp] theorem State.setCrcacc_cs (acc : Word) (s : State) : (s.setCrcacc acc).cs = s.cs := rfl

@[simp] theorem State.setCrcacc_cfg (acc : Word) (s : State) : (s.setCrcacc acc).cfg = s.cfg := rfl

/-- `u'` answers what `u` answers, but for the value `acc` in `CRCACC`. -/
def SameButCrcacc (acc : Word) (u u' : Result) : Prop := ∀ t, u = .next t → u' = .next (t.setCrcacc acc)

section
variable {acc : Word} {s : State}

theorem succeed_sameButCrcacc {res : Word} {out : List Byte} :
    SameButCrcacc acc (succeed res out s) (succeed res out (s.setCrcacc acc)) := by
  rintro _ ⟨⟩; rfl

theorem raise_sameButCrcacc {code : Code} {info : Word} :
    SameButCrcacc acc (raise code info s) (raise code info (s.setCrcacc acc)) := by
  rintro _ ⟨⟩; rfl

theorem ite_sameButCrcacc {c : Prop} [Decidable c] {u v u' v' : Result} (hu : SameButCrcacc acc u u')
    (hv : SameButCrcacc acc v v') : SameButCrcacc acc (if c then u else v) (if c then u' else v') := by
  split
  · exact hu
  · exact hv

theorem withType_sameButCrcacc {run run' : ChunkType → Result} (h : ∀ ct, SameButCrcacc acc (run ct) (run' ct)) :
    SameButCrcacc acc (withType s run) (withType (s.setCrcacc acc) run') := by
  unfold withType
  rw [State.setCrcacc_ty]
  split
  · exact h _
  · exact raise_sameButCrcacc

theorem withChunk_sameButCrcacc {run run' : Chunk → Result} (h : ∀ c, SameButCrcacc acc (run c) (run' c)) :
    SameButCrcacc acc (withChunk s run) (withChunk (s.setCrcacc acc) run') := by
  unfold withChunk
  rw [State.setCrcacc_ch]
  split
  · exact h _
  · exact raise_sameButCrcacc

theorem loadType_sameButCrcacc (ct : ChunkType) :
    SameButCrcacc acc (loadType ct s) (loadType ct (s.setCrcacc acc)) :=
  ite_sameButCrcacc (succeed_sameButCrcacc (s := { s with ty := some ct })) raise_sameButCrcacc

theorem deliverChunk_sameButCrcacc (c : Chunk) :
    SameButCrcacc acc (deliverChunk c s) (deliverChunk c (s.setCrcacc acc)) :=
  succeed_sameButCrcacc (s := { s with ch := some c })

theorem execTyLdt_sameButCrcacc (text : List Byte) :
    SameButCrcacc acc (execTyLdt text s) (execTyLdt text (s.setCrcacc acc)) := by
  unfold execTyLdt
  split
  · exact loadType_sameButCrcacc _
  · exact raise_sameButCrcacc

theorem execChParse_sameButCrcacc (frame : List Byte) :
    SameButCrcacc acc (execChParse frame s) (execChParse frame (s.setCrcacc acc)) := by
  unfold execChParse
  rw [State.setCrcacc_cfg]
  split
  · exact raise_sameButCrcacc
  · exact deliverChunk_sameButCrcacc _

theorem execCtParse_sameButCrcacc (file : List Byte) :
    SameButCrcacc acc (execCtParse file s) (execCtParse file (s.setCrcacc acc)) := by
  unfold execCtParse
  rw [State.setCrcacc_cfg]
  split
  · exact raise_sameButCrcacc
  · exact raise_sameButCrcacc
  · exact succeed_sameButCrcacc (s := { s with cs := _ })

theorem execCtRemove_sameButCrcacc :
    SameButCrcacc acc (execCtRemove s) (execCtRemove (s.setCrcacc acc)) := by
  refine withType_sameButCrcacc fun ct => ?_
  rw [State.setCrcacc_cs]
  split
  · exact deliverChunk_sameButCrcacc (s := { s with cs := removeChunk s.cs ct }) _
  · exact raise_sameButCrcacc

theorem execCtFind_sameButCrcacc : SameButCrcacc acc (execCtFind s) (execCtFind (s.setCrcacc acc)) := by
  refine withType_sameButCrcacc fun ct => ?_
  rw [State.setCrcacc_cs]
  split
  · exact deliverChunk_sameButCrcacc _
  · exact raise_sameButCrcacc

theorem execCtGet_sameButCrcacc (index : Word) :
    SameButCrcacc acc (execCtGet index s) (execCtGet index (s.setCrcacc acc)) := by
  unfold execCtGet
  rw [State.setCrcacc_cs]
  split
  · exact deliverChunk_sameButCrcacc _
  · exact raise_sameButCrcacc

/-- An operation outside U-CRC and U-SYS does not read `CRCACC`: from a state with another value there it answers the
same, with that value. -/
theorem exec_sameButCrcacc {i : Instr} (hupd : ∀ b, i ≠ .crcUpd b) (hinit : i ≠ .crcInit) (hrd : i ≠ .crcRd)
    (hreset : i ≠ .sysReset) : SameButCrcacc acc (exec i s) (exec i (s.setCrcacc acc)) := by
  cases i with
  | crcUpd b => exact absurd rfl (hupd b)
  | crcInit => exact absurd rfl hinit
  | crcRd => exact absurd rfl hrd
  | sysReset => exact absurd rfl hreset
  | tyLdb ct => exact loadType_sameButCrcacc ct
  | tyLdt text => exact execTyLdt_sameButCrcacc text
  | tyRdb | tyRdt | tyCrit | tyPub | tyRsv | tySafe | tyWrt =>
    exact withType_sameButCrcacc fun _ => succeed_sameButCrcacc
  | chNew payload =>
    exact withType_sameButCrcacc fun _ => ite_sameButCrcacc raise_sameButCrcacc (deliverChunk_sameButCrcacc _)
  | chParse frame => exact execChParse_sameButCrcacc frame
  | chSer | chLen | chData | chCrc => exact withChunk_sameButCrcacc fun _ => succeed_sameButCrcacc
  | chType => exact withChunk_sameButCrcacc fun c => succeed_sameButCrcacc (s := { s with ty := some c.type })
  | chText => exact withChunk_sameButCrcacc fun _ => ite_sameButCrcacc succeed_sameButCrcacc raise_sameButCrcacc
  | ctParse file => exact execCtParse_sameButCrcacc file
  | ctSer | ctCount => exact succeed_sameButCrcacc
  | ctAppend =>
    exact withChunk_sameButCrcacc fun c =>
      ite_sameButCrcacc raise_sameButCrcacc (succeed_sameButCrcacc (s := { s with cs := s.cs ++ [c] }))
  | ctRemove => exact execCtRemove_sameButCrcacc
  | ctFind => exact execCtFind_sameButCrcacc
  | ctGet index => exact execCtGet_sameButCrcacc index

end

/-- Settles O15.  That the operation leaves `CRCACC` follows from its not reading it: with `s.crcacc` as the other
value, it answers from `s` both `t` and `t` with `s.crcacc` in it. -/
theorem otherUnitsIgnoreCrcAcc : Obligations.OtherUnitsIgnoreCrcAcc := by
  intro i s t acc hupd hinit hrd hreset hexec
  have hsame : ∀ a, exec i (s.setCrcacc a) = .next (t.setCrcacc a) := fun _ =>
    exec_sameButCrcacc hupd hinit hrd hreset t hexec
  have hkeep : exec i s = .next (t.setCrcacc s.crcacc) := hsame s.crcacc
  refine ⟨?_, hsame acc⟩
  rw [hexec] at hkeep
  injection hkeep with ht
  exact congrArg (·.crcacc) ht

/-! ### STATUS -/

@[simp] theorem getLsbD_boolWord (b : Bool) (i : Nat) : (boolWord b).getLsbD i = (decide (i = 0) && b) := by
  cases b <;> simp [boolWord]

/-- STATUS bit by bit (R25). -/
theorem State.getLsbD_status (s : State) (i : Nat) :
    s.status.getLsbD i =
      (s.code.number.getLsbD i || decide (i = 4) && s.ty.isSome || decide (i = 5) && s.ch.isSome) := by
  have hcode : 4 ≤ i → s.code.number.getLsbD i = false := BitVec.getLsbD_of_ge _ i
  simp only [State.status, BitVec.getLsbD_or, BitVec.getLsbD_setWidth, BitVec.getLsbD_shiftLeft, getLsbD_boolWord]
  grind

/-- Settles O40: the code number has four bits, so the live copies stand above it and nothing above them. -/
theorem statusRegisterFields : Obligations.StatusRegisterFields := by
  intro s
  have hcodeBit : ∀ i, 4 ≤ i → s.code.number.getLsbD i = false := fun i => BitVec.getLsbD_of_ge _ i
  refine ⟨?_, ?_, ?_, ?_⟩
  · have hcode : s.status.extractLsb' 0 4 = s.code.number := by
      refine BitVec.eq_of_getLsbD_eq fun i hi => ?_
      rw [BitVec.getLsbD_extractLsb', Nat.zero_add, State.getLsbD_status]
      have h4 : i ≠ 4 := by omega
      have h5 : i ≠ 5 := by omega
      simp [hi, h4, h5]
    rw [hcode]
    cases s.code <;> rfl
  · rw [State.getLsbD_status, hcodeBit 4 (by decide)]; simp
  · rw [State.getLsbD_status, hcodeBit 5 (by decide)]; simp
  · refine BitVec.eq_of_getLsbD_eq fun i _ => ?_
    rw [BitVec.getLsbD_ushiftRight, State.getLsbD_status, hcodeBit (6 + i) (by omega)]
    have h4 : 6 + i ≠ 4 := by omega
    have h5 : 6 + i ≠ 5 := by omega
    simp [h4, h5]

/-! ### The reset state -/

/-- Settles O41: R34's table is the definition of the reset state, and STATUS and COUNT are computed from it. -/
theorem resetStateValues : Obligations.ResetStateValues := by
  unfold Obligations.ResetStateValues
  decide

/-- Settles O44: reset in any build with anything lined up is what a hardware reset leaves there. -/
theorem resetStateIsSafe : Obligations.ResetStateIsSafe := by
  have hinv : ∀ (cfg : Params) (host : List HostEvent), ({ State.reset with cfg := cfg, host := host } : State).Inv :=
    fun cfg host => inv_reset { State.reset with cfg := cfg } host
  exact ⟨hinv .default [], fun cfg host hprotocol => ⟨hinv cfg host, hprotocol⟩⟩

end Sys2Proof.Machine
end

section
/-! SUPPORT. The statements about the memory (20_memory.md): which operations only read, and which deliveries change
nothing when they run again (R59), and the layout of the container byte sequence (R60). -/

namespace Sys2Proof.Machine

/-! ### The layout of the container byte sequence -/

/-- The total size of R60; for the frames before frame `k` it is `off_k`. -/
theorem serContainer_length_of_ok {cfg : Params} {cs : List Chunk} (h : ∀ c ∈ cs, c.Ok cfg) :
    (serContainer cs).length = 8 + (cs.map fun c => 12 + c.len.toNat).sum := by
  have hsize : ∀ c ∈ cs, 12 + c.data.length = 12 + c.len.toNat := fun c hc => by
    obtain ⟨-, hlen, -, -⟩ := h c hc
    rw [hlen]
  rw [serContainer_length, List.map_congr_left hsize]

/-- A frame stands after the container of the frames before it. -/
theorem serContainer_append_cons (pre post : List Chunk) (c : Chunk) :
    serContainer (pre ++ c :: post) = serContainer pre ++ (serChunk c ++ post.flatMap serChunk) := by
  simp [serContainer]

/-- Settles O27: by I-CS the container of the frames before frame `k` is `off_k` bytes long, and frame `k` follows it. -/
theorem containerLayout : Obligations.ContainerLayout := by
  intro s t hstore hexec
  obtain rfl : t = s.answer .ok 0 0 (serContainer s.cs) := succeed_next.1 hexec
  obtain ⟨hchunks, -⟩ := hstore
  refine ⟨serContainer_length_of_ok hchunks, List.take_left' rfl, fun pre post c hcs => ?_⟩
  rw [hcs] at hchunks
  obtain ⟨hpre, hc, -⟩ : (∀ x ∈ pre, x.Ok s.cfg) ∧ c.Ok s.cfg ∧ ∀ x ∈ post, x.Ok s.cfg := by
    rwa [List.forall_mem_append, List.forall_mem_cons] at hchunks
  obtain ⟨-, hlen, -, -⟩ := hc
  rw [State.answer_out, hcs, serContainer_append_cons, List.drop_left' (serContainer_length_of_ok hpre),
    List.take_left' (by rw [serChunk_length, hlen])]
  rfl

/-! ### The reading operations -/

/-- In the registers of `s`, whatever the last response was, `op` latches one and the same response and changes
nothing else. -/
def Reads (s : State) (op : State → Result) : Prop :=
  ∃ code info res out, ∀ c i r o, op (s.answer c i r o) = .next (s.answer code info res out)

/-- An operation that only reads changes nothing but the response, and answers the same state when run again (R59). -/
theorem Reads.idempotent {s t : State} {op : State → Result} (h : Reads s op) (hop : op s = .next t) :
    t = s.answer t.code t.info t.res t.out ∧ op t = .next t := by
  obtain ⟨code, info, res, out, hanswer⟩ := h
  have hfirst : op s = .next (s.answer code info res out) := hanswer s.code s.info s.res s.out
  obtain rfl : s.answer code info res out = t := by rwa [hfirst, Host.Outcome.next.injEq] at hop
  exact ⟨rfl, hanswer ..⟩

section
variable {s : State}

theorem Reads.congr {op op' : State → Result} (h : Reads s op')
    (heq : ∀ c i r o, op (s.answer c i r o) = op' (s.answer c i r o)) : Reads s op := by
  obtain ⟨code, info, res, out, hanswer⟩ := h
  exact ⟨code, info, res, out, fun c i r o => (heq c i r o).trans (hanswer c i r o)⟩

theorem succeed_reads (res : Word) (out : List Byte) : Reads s (succeed res out) :=
  ⟨.ok, 0, res, out, fun _ _ _ _ => rfl⟩

theorem raise_reads (code : Code) (info : Word) : Reads s (raise code info) :=
  ⟨code, info, 0, [], fun _ _ _ _ => rfl⟩

theorem withType_reads {run : ChunkType → State → Result} (h : ∀ ct, Reads s (run ct)) :
    Reads s fun u => withType u fun ct => run ct u := by
  cases hty : s.ty with
  | some ct => exact (h ct).congr fun _ _ _ _ => withType_some hty _
  | none => exact (raise_reads ..).congr fun _ _ _ _ => withType_none hty _

theorem withChunk_reads {run : Chunk → State → Result} (h : ∀ c, Reads s (run c)) :
    Reads s fun u => withChunk u fun c => run c u := by
  cases hch : s.ch with
  | some c => exact (h c).congr fun _ _ _ _ => withChunk_some hch _
  | none => exact (raise_reads ..).congr fun _ _ _ _ => withChunk_none hch _

theorem readProperty_reads (p : ChunkType → Bool) : Reads s (readProperty p) :=
  withType_reads fun _ => succeed_reads ..

theorem execChText_reads : Reads s execChText := by
  refine withChunk_reads fun c => ?_
  by_cases hutf8 : utf8Valid s.cfg.utf8 c.data = true
  · exact (succeed_reads 0 c.data).congr fun _ _ _ _ => if_pos hutf8
  · exact (raise_reads .invalidUtf8 0).congr fun _ _ _ _ => if_neg hutf8

/-- The fifteen reading operations of R59. -/
theorem exec_reads {i : Instr}
    (hi : i = .tyRdb ∨ i = .tyRdt ∨ i = .tyCrit ∨ i = .tyPub ∨ i = .tyRsv ∨ i = .tySafe ∨ i = .tyWrt ∨ i = .crcRd ∨
      i = .chSer ∨ i = .chLen ∨ i = .chData ∨ i = .chCrc ∨ i = .chText ∨ i = .ctSer ∨ i = .ctCount) :
    Reads s (exec i) := by
  cases i with
  | tyRdb | tyRdt => exact withType_reads fun _ => succeed_reads ..
  | tyCrit | tyPub | tyRsv | tySafe | tyWrt => exact readProperty_reads _
  | crcRd => exact (succeed_reads (crcFinish s.crcacc) []).congr fun _ _ _ _ => rfl
  | chSer | chLen | chData | chCrc => exact withChunk_reads fun _ => succeed_reads ..
  | chText => exact execChText_reads
  | ctSer => exact (succeed_reads 0 (serContainer s.cs)).congr fun _ _ _ _ => rfl
  | ctCount => exact (succeed_reads s.count []).congr fun _ _ _ _ => rfl
  | _ => simp at hi

end

/-! ### The deliveries -/

theorem execCtGet_some {s : State} {index : Word} {c : Chunk} (h : s.cs[index.toNat]? = some c) :
    execCtGet index s = deliverChunk c s := by
  simp [execCtGet, h]

theorem execCtGet_none {s : State} {index : Word} (h : s.cs[index.toNat]? = none) :
    execCtGet index s = raiseProtocol .range s := by
  simp [execCtGet, h]

theorem execCtFind_found {s : State} {ct : ChunkType} {c : Chunk} (hty : s.ty = some ct)
    (hfind : findChunk s.cs ct = some c) : execCtFind s = deliverChunk c s := by
  simp [execCtFind, hty, hfind]

theorem execCtFind_absent {s : State} {ct : ChunkType} (hty : s.ty = some ct) (hfind : findChunk s.cs ct = none) :
    execCtFind s = raise .chunkNotFound 0 s := by
  simp [execCtFind, hty, hfind]

theorem execChType_loaded {s : State} {c : Chunk} (h : s.ch = some c) :
    execChType s = succeed 0 [] { s with ty := some c.type } := by
  simp [execChType, h]

/-- CT.GET leaves the store, so that run again it delivers the same entry. -/
theorem execCtGet_idempotent {s t : State} {index : Word} (h : execCtGet index s = .next t) :
    execCtGet index t = .next t := by
  cases hget : s.cs[index.toNat]? with
  | some c =>
    obtain rfl := deliverChunk_next.1 ((execCtGet_some hget).symm.trans h)
    exact execCtGet_some hget
  | none =>
    obtain rfl := raiseProtocol_next.1 ((execCtGet_none hget).symm.trans h)
    exact execCtGet_none hget

/-- CT.FIND leaves `TY` and the store, so that run again it finds the same entry. -/
theorem execCtFind_idempotent {s t : State} (h : execCtFind s = .next t) : execCtFind t = .next t := by
  obtain ⟨ct, hty, -⟩ | ⟨hty, rfl⟩ := withType_next.1 h
  · cases hfind : findChunk s.cs ct with
    | some c =>
      obtain rfl := deliverChunk_next.1 ((execCtFind_found hty hfind).symm.trans h)
      exact execCtFind_found hty hfind
    | none =>
      obtain rfl := raise_next.1 ((execCtFind_absent hty hfind).symm.trans h)
      exact execCtFind_absent hty hfind
  · exact withType_none hty _

/-- CH.TYPE leaves `CH`, so that run again it loads the same type. -/
theorem execChType_idempotent {s t : State} (h : execChType s = .next t) : execChType t = .next t := by
  obtain ⟨c, hch, -⟩ | ⟨hch, rfl⟩ := withChunk_next.1 h
  · obtain rfl := succeed_next.1 ((execChType_loaded hch).symm.trans h)
    exact execChType_loaded hch
  · exact withChunk_none hch _

/-- Settles O39: a reading operation answers from the registers alone, and a delivery leaves the registers it answers
from. -/
theorem readingOperationsAreIdempotent : Obligations.ReadingOperationsAreIdempotent := by
  refine fun i s t hexec => ⟨fun hi => (exec_reads hi).idempotent hexec, ?_⟩
  rintro (rfl | ⟨index, rfl⟩ | rfl)
  · exact execCtFind_idempotent hexec
  · exact execCtGet_idempotent hexec
  · exact execChType_idempotent hexec

end Sys2Proof.Machine
end

section
/-! SUPPORT. The statements about the encoding (30_encoding.md): the decoder and the encoder (R80, R82), the reserved
codes (R83), the argument formats (R84) and the length of a frame (R94). -/

namespace Sys2Proof

/-! ### The normal form of a request -/

/-- The request with its ignored argument bits and its stray stream cleared (R84, R51; log 22). -/
def Request.normal (r : Request) : Request :=
  ⟨r.cmd, r.arg &&& argMask r.cmd, if inputCodes.contains r.cmd then r.input else []⟩

/-- The last two checks of well-formedness say that the request is its own normal form. -/
theorem Request.normal_eq_self_iff (r : Request) :
    r.normal = r ↔ r.argPlain = true ∧ r.inputExpected = true := by
  obtain ⟨cmd, arg, input⟩ := r
  by_cases h : cmd ∈ inputCodes <;>
    simp [Request.normal, Request.argPlain, Request.inputExpected, h, @eq_comm _ [] input]

theorem Request.wf_iff (r : Request) : r.wf = true ↔ r.assigned = true ∧ r.normal = r := by
  rw [r.normal_eq_self_iff, Request.wf, Bool.and_eq_true, Bool.and_eq_true, and_assoc]

/-! ### The decoder and the encoder -/

/-- Format A-TYPE (R84): the argument word is the type, whatever stream comes with it (R51). -/
theorem decode_typeWord (t : ChunkType) (input : List Byte) : decode ⟨0x00, t.toWord, input⟩ = .ok (.tyLdb t) :=
  congrArg (fun u => Except.ok (Instr.tyLdb u)) (ChunkType.ofWord_toWord t)

theorem decode_encode (i : Instr) : decode (encode i) = .ok i := by
  cases i with
  | tyLdb t => exact decode_typeWord t []
  | crcUpd b => exact congrArg (fun c => Except.ok (Instr.crcUpd c)) (wordByte_three_setWidth b)
  | _ => rfl

/-- Format A-BYTE keeps the low byte of the word (R84). -/
theorem setWidth_wordByte_three (v : Word) : (wordByte v 3).setWidth 32 = v &&& 0xFF#32 := by
  have hmask : v.toNat &&& 255 = v.toNat % 2 ^ 8 := Nat.and_two_pow_sub_one_eq_mod v.toNat 8
  apply BitVec.eq_of_toNat_eq
  simp [wordByte, hmask]
  omega

/-- The operand carries the argument bits that the operation's format looks at (R84). -/
theorem arg_of_decode {r : Request} {i : Instr} (h : decode r = .ok i) : i.arg = r.arg &&& argMask r.cmd := by
  obtain ⟨cmd, arg, input⟩ := r
  obtain rfl : i.cmd = cmd := Machine.decode_cmd h
  cases i with
  | tyLdb t =>
    obtain rfl : ChunkType.ofWord arg = t := by injection h with h; injection h
    exact (ChunkType.toWord_ofWord arg).trans BitVec.and_allOnes.symm
  | crcUpd b =>
    obtain rfl : wordByte arg 3 = b := by injection h with h; injection h
    exact setWidth_wordByte_three arg
  | ctGet index =>
    obtain rfl : arg = index := by injection h with h; injection h
    exact BitVec.and_allOnes.symm
  | _ => exact BitVec.and_zero.symm

/-- The operand carries the stream if the operation takes one (R51). -/
theorem input_of_decode {r : Request} {i : Instr} (h : decode r = .ok i) :
    i.input = if inputCodes.contains r.cmd then r.input else [] := by
  obtain ⟨cmd, arg, input⟩ := r
  obtain rfl : i.cmd = cmd := Machine.decode_cmd h
  cases i with
  | tyLdt x | chNew x | chParse x | ctParse x =>
    obtain rfl : input = x := by injection h with h; injection h
    rfl
  | _ => rfl

/-- The encoder after the decoder clears what the decoder does not read. -/
theorem encode_of_decode {r : Request} {i : Instr} (h : decode r = .ok i) : encode i = r.normal := by
  rw [encode, Machine.decode_cmd h, arg_of_decode h, input_of_decode h, Request.normal]

theorem Instr.cmd_assigned (i : Instr) : assignedCodes.contains i.cmd = true := by
  cases i <;> rfl

theorem assigned_of_decode {r : Request} {i : Instr} (h : decode r = .ok i) : r.assigned = true := by
  rw [Request.assigned, ← Machine.decode_cmd h]
  exact i.cmd_assigned

/-- The decoder rejects a request by its command code alone (R83). -/
theorem decode_error {r : Request} {e : DecodeError} (h : decode r = .error e) :
    e = .reservedCode r.cmd ∧ r.assigned = false := by
  revert h; unfold decode
  split <;> rintro ⟨⟩
  exact ⟨rfl, by simp_all [Request.assigned, assignedCodes]⟩

theorem exists_decode_of_assigned {r : Request} (h : r.assigned = true) : ∃ i, decode r = .ok i := by
  cases hd : decode r with
  | ok i => exact ⟨i, rfl⟩
  | error e => simp [(decode_error hd).2] at h

theorem decode_of_not_assigned {r : Request} (h : r.assigned = false) : decode r = .error (.reservedCode r.cmd) := by
  cases hd : decode r with
  | ok i => simp [assigned_of_decode hd] at h
  | error e => rw [(decode_error hd).1]

/-- The decoder sees a request's normal form only (R84, R51). -/
theorem decode_normal (r : Request) : decode r.normal = decode r := by
  cases hd : decode r with
  | ok i => rw [← encode_of_decode hd, decode_encode]
  | error e =>
    obtain ⟨rfl, hreserved⟩ := decode_error hd
    exact decode_of_not_assigned hreserved

theorem encode_wf (i : Instr) : (encode i).wf = true :=
  (encode i).wf_iff.2 ⟨assigned_of_decode (decode_encode i), (encode_of_decode (decode_encode i)).symm⟩

/-- Settles O1: the encoder after the decoder gives a request's normal form, and a well-formed request is its own. -/
theorem decodeAndEncodeAreInverse : Obligations.DecodeAndEncodeAreInverse := by
  refine ⟨fun i => ⟨decode_encode i, encode_wf i⟩, fun r hwf => ?_⟩
  obtain ⟨hassigned, hnormal⟩ := r.wf_iff.1 hwf
  obtain ⟨i, hdecode⟩ := exists_decode_of_assigned hassigned
  exact ⟨i, hdecode, (encode_of_decode hdecode).trans hnormal⟩

/-! ### The argument formats -/

theorem argMask_eq_zero {cmd : Byte} (hldb : cmd ≠ 0x00) (hget : cmd ≠ 0x36) (hupd : cmd ≠ 0x11) : argMask cmd = 0 := by
  rw [argMask, if_neg (not_or.2 ⟨hldb, hget⟩), if_neg hupd]

/-- Away from A-TYPE and A-INDEX, the argument bits looked at are at most those of A-BYTE. -/
theorem and_argMask_congr {cmd : Byte} {arg arg' : Word} (hldb : cmd ≠ 0x00) (hget : cmd ≠ 0x36)
    (hupd : cmd = 0x11 → wordByte arg 3 = wordByte arg' 3) : arg &&& argMask cmd = arg' &&& argMask cmd := by
  by_cases h : cmd = 0x11
  · subst h
    calc arg &&& 0xFF#32 = (wordByte arg 3).setWidth 32 := (setWidth_wordByte_three arg).symm
      _ = (wordByte arg' 3).setWidth 32 := by rw [hupd rfl]
      _ = arg' &&& 0xFF#32 := setWidth_wordByte_three arg'
  · simp [argMask_eq_zero hldb hget h]

theorem inputCodes_contains_iff {cmd : Byte} :
    inputCodes.contains cmd = true ↔ cmd = 0x01 ∨ cmd = 0x20 ∨ cmd = 0x21 ∨ cmd = 0x30 := by
  simp [inputCodes]

/-- Settles O2: two requests that agree in what R84 and R51 let an operation look at have one normal form. -/
theorem argumentWordFormats : Obligations.ArgumentWordFormats := by
  refine ⟨fun b0 b1 b2 b3 => decode_typeWord ⟨b0, b1, b2, b3⟩, fun _ _ => rfl, fun _ _ => rfl, ?_⟩
  intro cmd arg arg' input input' hldb hget hupd hinput
  have hnormal : Request.normal ⟨cmd, arg, input⟩ = Request.normal ⟨cmd, arg', input'⟩ := by
    have harg : arg &&& argMask cmd = arg' &&& argMask cmd := and_argMask_congr hldb hget hupd
    by_cases h : inputCodes.contains cmd = true
    · rw [hinput (inputCodes_contains_iff.1 h), Request.normal, Request.normal, harg]
    · simp only [Request.normal, harg, if_neg h]
  rw [← decode_normal, hnormal, decode_normal]

/-- Settles O5: each word is one of the decoder's own rows (R82), the last one none (R83). -/
theorem commandWordsDecode : Obligations.CommandWordsDecode := ⟨rfl, rfl, rfl, rfl, rfl, rfl⟩

/-! ### The reserved codes -/

/-- The five ranges of R83. -/
abbrev ReservedCode (cmd : Byte) : Prop :=
  0x09 ≤ cmd.toNat ∧ cmd.toNat ≤ 0x0F ∨ 0x13 ≤ cmd.toNat ∧ cmd.toNat ≤ 0x1F ∨ 0x28 ≤ cmd.toNat ∧ cmd.toNat ≤ 0x2F ∨
    0x37 ≤ cmd.toNat ∧ cmd.toNat ≤ 0x6F ∨ 0x71 ≤ cmd.toNat

theorem assignedCodes_not_reserved : ∀ cmd ∈ assignedCodes, ¬ ReservedCode cmd := by decide

theorem decode_of_reserved {r : Request} (h : ReservedCode r.cmd) : decode r = .error (.reservedCode r.cmd) := by
  refine decode_of_not_assigned (Bool.eq_false_iff.2 fun hassigned => ?_)
  exact assignedCodes_not_reserved r.cmd (List.contains_iff_mem.1 hassigned) h

namespace Machine

/-- A reserved command, whole (R83). -/
theorem runRequest_of_reserved {r : Request} (h : ReservedCode r.cmd) (s : State) :
    runRequest r s = raiseProtocol .illegal s := by
  rw [runRequest, decode_of_reserved h]

/-- A reserved command is a single step at Level S too (R261). -/
theorem startCommand_of_reserved {cmd : Byte} (h : ReservedCode cmd) (arg : Word) (s : State) :
    startCommand cmd arg s = raiseProtocol .illegal s := by
  rw [startCommand, decode_of_reserved h]

theorem step_of_idle {s : State} (h : s.eng = none) : step s = serveIdle s := by
  rw [step, serve, h]

/-- Settles O3: no assigned code lies in the ranges of R83, so the decoder rejects the command, whole or begun. -/
theorem reservedCodesAnswerIllegal : Obligations.ReservedCodesAnswerIllegal := by
  intro cmd arg input rest s hreserved hidle hhost
  rw [step_of_idle hidle, serveIdle]
  obtain hop | hstart := hhost
  · rw [hop]; exact runRequest_of_reserved hreserved _
  · rw [hstart]; exact startCommand_of_reserved hreserved arg _

/-! ### The length of a frame -/

/-- R94: the sum `12 + L` is a natural number, so any buffer below it is cut short. -/
theorem parseChunk_cut (cfg : Params) {len : Word} {t : ChunkType} {rest : List Byte} (ht : typeValid t = true)
    (hcut : rest.length < 4 + len.toNat) :
    parseChunk cfg (be32Bytes len ++ t.bytes ++ rest) = .error .unexpectedEof := by
  rw [parseChunk_typed, ht, if_pos hcut]
  rfl

theorem execChParse_error {frame : List Byte} {e : FrameError} {s : State} (h : parseChunk s.cfg frame = .error e) :
    execChParse frame s = raiseFrame e 0 s := by
  rw [execChParse, h]

/-- Settles O18: `4 + 0xFFFFFFF4` is eight less than `2 ^ 32`, which is more bytes than follow the header. -/
theorem frameLengthDoesNotWrap : Obligations.FrameLengthDoesNotWrap := by
  intro s t rest ht hlen
  have hcut : rest.length < 4 + (0xFFFFFFF4#32).toNat := by
    show rest.length < 4 + 0xFFFFFFF4
    omega
  exact execChParse_error (parseChunk_cut s.cfg ((typeValid_iff t).2 ht) hcut)

end Machine
end Sys2Proof
end

section
/-! SUPPORT. The statements about U-TYPE (40_chunk_type.md): loading the type register (R127, R128), reading it back
(R129, R130), its five properties (R131 to R135), and that a text read back loads again (R136 c). -/

namespace Sys2Proof.Machine

/-! ### Loading the type register -/

theorem loadType_of_letters {t : ChunkType} (h : AllLetters t) (s : State) :
    loadType t s = succeed 0 [] { s with ty := some t } :=
  if_pos ((typeValid_iff t).2 h)

theorem loadType_of_not_letters {t : ChunkType} (h : ¬ AllLetters t) (s : State) :
    loadType t s = raise .invalidChunkType 0 s :=
  if_neg fun hvalid => h ((typeValid_iff t).1 hvalid)

/-- On four bytes, TY.LDT is TY.LDB (R128). -/
theorem execTyLdt_bytes (t : ChunkType) (s : State) : execTyLdt t.bytes s = loadType t s := by
  rw [execTyLdt, textType_bytes]

/-- A text of another length, or one with a byte that is no letter, loads nothing (R128). -/
theorem execTyLdt_refused {text : List Byte} (h : ¬ ∃ t : ChunkType, text = t.bytes ∧ AllLetters t) (s : State) :
    execTyLdt text s = raise .invalidChunkType 0 s := by
  cases htext : textType text with
  | none => rw [execTyLdt, htext]
  | some t =>
    obtain rfl : text = t.bytes := textType_eq_some.1 htext
    rw [execTyLdt_bytes]
    exact loadType_of_not_letters (fun hletters => h ⟨t, rfl, hletters⟩) s

/-- Settles O6: the argument word is cut into its four bytes, and `typeValid` says whether they are letters. -/
theorem loadTypeFromBytes : Obligations.LoadTypeFromBytes :=
  ⟨fun _ _ => rfl, fun _ s => ⟨fun h => loadType_of_letters h s, fun h => loadType_of_not_letters h s⟩⟩

/-- Settles O7, through `loadType` where the text has four bytes. -/
theorem loadTypeFromText : Obligations.LoadTypeFromText := by
  refine ⟨fun _ _ => rfl, fun s => ⟨fun t h => ?_, fun _ h => execTyLdt_refused h s, fun t => execTyLdt_bytes t s⟩⟩
  exact (execTyLdt_bytes t s).trans (loadType_of_letters h s)

/-! ### Reading the type register -/

/-- Settles O8: both reads are `withType`, which answers `P_EMPTY` without a type. -/
theorem readTypeBack : Obligations.ReadTypeBack :=
  ⟨fun _ _ => ⟨rfl, rfl⟩, fun _ =>
    ⟨fun _ hty => ⟨withType_some hty _, withType_some hty _⟩, fun hty => ⟨withType_none hty _, withType_none hty _⟩⟩⟩

/-- A property that holds where the case bit is 0, as a boolean result (R85). -/
theorem boolWord_not (b : Bool) : boolWord (!b) = if b = false then 1 else 0 := by
  cases b <;> rfl

theorem safeToWrite_eq (t : ChunkType) : safeToWrite t = t.b0.getLsbD 5 := Bool.not_not _

/-- With a type loaded, a property read answers the property's bit (R131 to R135). -/
theorem readProperty_some {s : State} {t : ChunkType} (hty : s.ty = some t) (p : ChunkType → Bool) :
    readProperty p s = .next (s.answer .ok 0 (boolWord (p t)) []) :=
  readProperty_next.2 (.inl ⟨t, hty, rfl⟩)

theorem readProperty_none {s : State} (hty : s.ty = none) (p : ChunkType → Bool) :
    readProperty p s = .next (s.answer .protocol 2 0 []) :=
  readProperty_next.2 (.inr ⟨hty, rfl⟩)

/-- Settles O9: the first three properties negate their case bit, the last two are theirs (R122 to R126). -/
theorem propertyReadsAreCaseBits : Obligations.PropertyReadsAreCaseBits := by
  refine ⟨fun _ _ => ⟨rfl, rfl, rfl, rfl, rfl⟩, fun s => ⟨fun t hty => ?_, fun hty i hi => ?_⟩⟩
  · simp only [← boolWord_not]
    refine ⟨readProperty_some hty critical, readProperty_some hty isPublic, readProperty_some hty reservedBitValid,
      readProperty_some hty safeToCopy, ?_⟩
    rw [← safeToWrite_eq]
    exact readProperty_some hty safeToWrite
  · obtain rfl | rfl | rfl | rfl | rfl := hi <;> exact readProperty_none hty _

/-! ### The text of a loaded type -/

/-- Loading the type that is loaded changes nothing but the response. -/
theorem loadType_of_loaded {s : State} {t : ChunkType} (hty : s.ty = some t) (hvalid : typeValid t = true) :
    loadType t s = succeed 0 [] s := by
  rw [loadType, if_pos hvalid, ← hty]

/-- Settles O10: the text read back is the loaded type's four bytes, which I-TY says load. -/
theorem typeTextRoundTrip : Obligations.TypeTextRoundTrip := by
  intro s t hok hloaded hread
  obtain ⟨ct, hty, hread⟩ | ⟨hnone, -⟩ := withType_next.1 hread
  · obtain rfl : t = s.answer .ok 0 0 ct.bytes := succeed_next.1 hread
    exact (execTyLdt_bytes ct _).trans (loadType_of_loaded hty (hok ct hty))
  · exact absurd hnone hloaded

end Sys2Proof.Machine
end

section
/-! SUPPORT. The statements about U-CRC (41_crc32.md): the table form of the update (R151), the laws of R153, the three
operations (R154 to R156), and that a frame with one flipped bit does not parse (R157). -/

namespace Sys2Proof.Machine

/-! ### The table form of the update -/

/-- `n` iterations only shift the bits above the low `n` (R151). -/
theorem crcShifts_eq_low_xor_shift (n : Nat) (x : Word) :
    crcShifts n x = crcShifts n ((x.setWidth n).setWidth 32) ^^^ x >>> n := by
  have hsplit : x = (x.setWidth n).setWidth 32 ^^^ x >>> n <<< n := by
    ext i hi
    by_cases h : i < n
    · simp [h, hi]
    · have hbit : n + (i - n) = i := Nat.add_sub_of_le (Nat.le_of_not_lt h)
      simp [h, hi, hbit, BitVec.getLsbD_eq_getElem]
  have hlow : ∀ i < n, (x >>> n <<< n).getLsbD i = false := fun i hi => by simp [hi]
  have hhigh : x >>> n <<< n >>> n = x >>> n := by
    ext i hi
    simpa using BitVec.lt_of_getLsbD
  calc crcShifts n x = crcShifts n ((x.setWidth n).setWidth 32 ^^^ x >>> n <<< n) := by rw [← hsplit]
    _ = crcShifts n ((x.setWidth n).setWidth 32) ^^^ x >>> n := by
      rw [crcShifts_xor, crcShifts_low_zero n _ hlow, hhigh]

/-- Settles O12: the index of the table is the low byte of the accumulator with the byte in it. -/
theorem crcUpdateTableForm : Obligations.CrcUpdateTableForm := by
  refine ⟨fun acc b => ?_, by decide, by decide, by decide, by decide, by decide, by decide⟩
  have hbyte : b.setWidth 32 >>> 8 = 0#32 := by
    ext i hi
    simp
  rw [crcUpd, crcUpd, crcShifts_eq_low_xor_shift, BitVec.ushiftRight_xor_distrib, hbyte, BitVec.xor_zero]
  simp

/-! ### The laws of the checksum -/

theorem crcUpd_bijective (b : Byte) : Function.Bijective fun acc => crcUpd acc b :=
  Finite.injective_iff_bijective.1 fun _ _ => crcUpd_inj

/-- R153 (b) along two sequences of equal length. -/
theorem crcRun_zipWith_xor (a a' : Word) {x y : List Byte} (h : x.length = y.length) :
    crcRun (a ^^^ a') (List.zipWith (· ^^^ ·) x y) = crcRun a x ^^^ crcRun a' y := by
  induction x generalizing a a' y with
  | nil =>
    obtain rfl : y = [] := List.length_eq_zero_iff.1 h.symm
    rfl
  | cons b x ih =>
    obtain ⟨b', y, rfl⟩ := List.exists_cons_of_length_eq_add_one h.symm
    rw [List.zipWith_cons_cons, crcRun_cons, crcUpd_xor, ih _ _ (Nat.succ.inj h), crcRun_cons, crcRun_cons]

/-- Of three final values two cancel. -/
theorem crcFinish_xor_xor (u v w : Word) :
    crcFinish u ^^^ crcFinish v ^^^ crcFinish w = crcFinish (u ^^^ v ^^^ w) := by
  simp only [crcFinish]
  grind

/-- R153 (c): of the three initial values two cancel as well. -/
theorem crc32_xor_xor {x y z : List Byte} (hxy : x.length = y.length) (hyz : y.length = z.length) :
    crc32 x ^^^ crc32 y ^^^ crc32 z = crc32 (List.zipWith (· ^^^ ·) (List.zipWith (· ^^^ ·) x y) z) := by
  have hlen : (List.zipWith (· ^^^ ·) x y).length = z.length := by
    rw [List.length_zipWith, hxy, Nat.min_self, hyz]
  have hrun : crcRun crcInitial (List.zipWith (· ^^^ ·) (List.zipWith (· ^^^ ·) x y) z) =
      crcRun crcInitial x ^^^ crcRun crcInitial y ^^^ crcRun crcInitial z := by
    rw [← crcRun_zipWith_xor _ _ hxy, ← crcRun_zipWith_xor _ _ hlen, BitVec.xor_self, BitVec.zero_xor]
  rw [crc32, crc32, crc32, crc32, crcFinish_xor_xor, hrun]

/-- A flipped bit is a change. -/
theorem xor_one_shiftLeft_ne {w : Nat} (v : BitVec w) {j : Nat} (hj : j < w) : v ^^^ (1#w <<< j) ≠ v := by
  intro h
  have hbit := congrArg (·.getLsbD j) h
  simp [hj] at hbit

/-- R153 (d): the byte with the flipped bit is another byte. -/
theorem crc32_ne_of_bit_flipped (p q : List Byte) (b : Byte) {j : Nat} (hj : j < 8) :
    crc32 (p ++ (b ^^^ (1#8 <<< j)) :: q) ≠ crc32 (p ++ b :: q) :=
  crc32_ne_of_byte_ne (xor_one_shiftLeft_ne b hj)

/-- Settles O13: all but the first of the laws follow from the update being linear and injective. -/
theorem crcArithmeticLaws : Obligations.CrcArithmeticLaws :=
  ⟨crcRun_append, crcUpd_bijective, crcUpd_xor, fun _ _ _ => crc32_xor_xor,
    fun p q b _ => crc32_ne_of_bit_flipped p q b⟩

/-! ### The three operations -/

/-- Settles O11: the operand is the low byte of the argument word (R84), and each arm of `exec` ends in `succeed`. -/
theorem crcOperations : Obligations.CrcOperations :=
  ⟨fun _ _ => ⟨rfl, rfl⟩, fun _ _ => rfl, fun _ => ⟨rfl, fun _ => rfl, rfl⟩⟩

/-- A run that begins with an operation the host has lined up. -/
theorem run_op {k : Nat} {s t : State} {i : Instr} {rest : List HostEvent} (hidle : s.eng = none)
    (hhost : s.host = .op (encode i) :: rest) (hexec : exec i { s with host := rest } = .next t) :
    Host.Core.run core (k + 1) s = Host.Core.run core k t :=
  run_next ((stepRunsTheDecodedInstruction s _ rest i hidle hhost (decode_encode i)).trans hexec)

/-- The state that CRC.INIT or CRC.UPD leaves (R154, R155): the accumulator `acc`, the answer `OK`, and `rest` still
lined up. -/
def State.accumulated (s : State) (acc : Word) (rest : List HostEvent) : State :=
  { s with crcacc := acc, host := rest }.answer .ok 0 0 []

/-- The requests for CRC.UPD of each byte. -/
def crcUpdEvents (bytes : List Byte) : List HostEvent := bytes.map fun b => .op (encode (.crcUpd b))

/-- The machine serves the CRC.UPDs for `bytes` and goes on with what is lined up after them. -/
theorem run_crcUpds {s : State} (hidle : s.eng = none) (k : Nat) (acc : Word) (bytes : List Byte)
    (rest : List HostEvent) :
    Host.Core.run core (bytes.length + k) (s.accumulated acc (crcUpdEvents bytes ++ rest)) =
      Host.Core.run core k (s.accumulated (crcRun acc bytes) rest) := by
  induction bytes generalizing acc with
  | nil => rw [List.length_nil, Nat.zero_add]; rfl
  | cons b bytes ih =>
    rw [List.length_cons, Nat.add_right_comm]
    calc Host.Core.run core (bytes.length + k + 1) (s.accumulated acc (crcUpdEvents (b :: bytes) ++ rest))
        = Host.Core.run core (bytes.length + k) (s.accumulated (crcUpd acc b) (crcUpdEvents bytes ++ rest)) :=
          run_op hidle rfl rfl
      _ = Host.Core.run core k (s.accumulated (crcRun acc (b :: bytes)) rest) := ih (crcUpd acc b)

/-- Settles O14: CRC.INIT gives the initial value, the CRC.UPDs run it over the bytes, and CRC.RD finishes it. -/
theorem crcOperationsComputeCrc32 : Obligations.CrcOperationsComputeCrc32 := by
  intro s bytes rest hidle hhost
  have hfed : Host.Core.run core (bytes.length + 2) s =
      Host.Core.run core 1 (s.accumulated (crcRun crcInitial bytes) (.op (encode .crcRd) :: rest)) :=
    calc Host.Core.run core (bytes.length + 2) s
        = Host.Core.run core (bytes.length + 1)
            (s.accumulated crcInitial (crcUpdEvents bytes ++ .op (encode .crcRd) :: rest)) := run_op hidle hhost rfl
      _ = Host.Core.run core 1 (s.accumulated (crcRun crcInitial bytes) (.op (encode .crcRd) :: rest)) :=
            run_crcUpds hidle 1 crcInitial bytes _
  exact hfed.trans (run_op hidle rfl rfl)

/-! ### Damaged frames -/

/-- On a frame of a valid type with as many payload bytes as its length field says, the checksum decides first, then
the capacity (R172, lines 7 to 10). -/
theorem parseChunk_complete (cfg : Params) {len crc : Word} {t : ChunkType} {d : List Byte}
    (ht : typeValid t = true) (hlen : d.length = len.toNat) (rest : List Byte) :
    parseChunk cfg (be32Bytes len ++ t.bytes ++ d ++ be32Bytes crc ++ rest) =
      if chunkCrc t d ≠ crc then .error .crcMismatch
      else if cfg.maxPayload.toNat < len.toNat then .error .cap
      else .ok (⟨t, len, d, crc⟩, 12 + len.toNat) := by
  have hlong : ¬ (d ++ (be32Bytes crc ++ rest)).length < 4 + len.toNat := by
    rw [List.length_append, List.length_append, be32Bytes_length]
    omega
  rw [List.append_assoc, List.append_assoc, parseChunk_typed, ht, if_neg hlong, ← hlen, List.drop_left,
    List.take_left, word4_be32Bytes]
  rfl

/-- R172: a CRC field that is not the checksum of type and payload. -/
theorem exec_chParse_crcMismatch {s : State} {len crc : Word} {t : ChunkType} {d : List Byte}
    (ht : typeValid t = true) (hlen : d.length = len.toNat) (hcrc : crc32 (t.bytes ++ d) ≠ crc) :
    exec (.chParse (be32Bytes len ++ t.bytes ++ d ++ be32Bytes crc)) s = .next (s.answer .crcMismatch 0 0 []) := by
  have hparse := parseChunk_complete s.cfg (crc := crc) ht hlen []
  rw [List.append_nil, chunkCrc, if_pos hcrc] at hparse
  exact execChParse_error hparse

/-- Settles O25: the checksum of the frame as damaged is not its CRC field, since by I-CH the two agreed before. -/
theorem singleBitFlipIsCrcMismatch : Obligations.SingleBitFlipIsCrcMismatch := by
  intro s c hok
  obtain ⟨hvalid, hlen, -, hcrc⟩ := hok
  refine ⟨fun p q b j hdata hj => ?_, fun j hj => ?_, fun t p q b j hbytes hj htype hletters => ?_⟩
  · refine exec_chParse_crcMismatch hvalid (by simpa [hdata] using hlen) ?_
    rw [hcrc, hdata, ← List.append_assoc, ← List.append_assoc]
    exact crc32_ne_of_bit_flipped _ q b hj
  · refine exec_chParse_crcMismatch hvalid hlen ?_
    rw [← hcrc]
    exact (xor_one_shiftLeft_ne c.crc hj).symm
  · refine exec_chParse_crcMismatch ((typeValid_iff t).2 hletters) hlen ?_
    rw [hcrc, hbytes, htype, List.append_assoc, List.append_assoc]
    exact crc32_ne_of_bit_flipped p _ b hj

end Sys2Proof.Machine
end

section
/-! SUPPORT. The statements about U-CHUNK (42_chunk.md): building, reading and emitting the chunk register (R180, R182
to R187), every outcome of CH.PARSE (R172, R181), and that CH.PARSE and CH.SER undo each other (R173). -/

namespace Sys2Proof.Machine

/-! ### Building a chunk -/

theorem execChNew_fits {s : State} {t : ChunkType} {d : List Byte} (hty : s.ty = some t)
    (hfits : d.length ≤ s.cfg.maxPayload.toNat) : execChNew d s = deliverChunk (mkChunk t d) s := by
  rw [execChNew, withType_some hty, if_neg (Nat.not_lt.2 hfits)]

theorem execChNew_over {s : State} {t : ChunkType} {d : List Byte} (hty : s.ty = some t)
    (hover : s.cfg.maxPayload.toNat < d.length) : execChNew d s = raiseProtocol .cap s := by
  rw [execChNew, withType_some hty, if_pos hover]

/-- Settles O16: without a type the payload is not looked at; with one, its length decides. -/
theorem newChunkDerivesLengthAndCrc : Obligations.NewChunkDerivesLengthAndCrc :=
  ⟨fun _ _ => rfl, fun _ _ =>
    ⟨fun hty => withType_none hty _, fun _ hty => ⟨execChNew_fits hty, execChNew_over hty⟩⟩⟩

/-! ### Reading the chunk register -/

/-- With a chunk loaded, an operation on `CH` answers what it does with that chunk. -/
theorem run_of_withChunk {s t : State} {c : Chunk} {run : Chunk → Result} (hch : s.ch = some c)
    (h : withChunk s run = .next t) : run c = .next t :=
  (withChunk_some hch run).symm.trans h

theorem execChSer_loaded {s : State} {c : Chunk} (hch : s.ch = some c) :
    execChSer s = succeed 0 (serChunk c) s :=
  withChunk_some hch _

/-- An answer of CH.SER with a chunk loaded is its frame (R182). -/
theorem eq_of_exec_chSer {s t : State} {c : Chunk} (hch : s.ch = some c) (hexec : exec .chSer s = .next t) :
    t = s.answer .ok 0 0 (serChunk c) :=
  succeed_next.1 (run_of_withChunk hch hexec)

/-- Settles O19: `wordByte` cuts a word from the top, and I-CH says how long the payload is. -/
theorem serializeChunkFieldOrder : Obligations.SerializeChunkFieldOrder := by
  refine ⟨fun _ _ => rfl, fun s => ⟨fun c hch => execChSer_loaded hch, fun c t hch hok hexec => ?_,
    fun hch => withChunk_none hch _⟩⟩
  obtain ⟨-, hlen, -, -⟩ := hok
  rw [eq_of_exec_chSer hch hexec, State.answer_out, serChunk_length, hlen]

/-- Settles O20: each accessor is `withChunk`, and what I-CH says of the chunk holds of the field returned. -/
theorem chunkAccessors : Obligations.ChunkAccessors := by
  refine ⟨fun _ _ => ⟨rfl, rfl, rfl, rfl⟩, fun s => ⟨fun c hch => ?_, ?_, fun hch i hi => ?_⟩⟩
  · exact ⟨withChunk_some hch _, withChunk_some hch _, withChunk_some hch _, withChunk_some hch _⟩
  · rintro c t u v w hch ⟨hvalid, hlen, -, hcrc⟩ hexecLen hexecType hexecData hexecCrc
    obtain rfl := succeed_next.1 (run_of_withChunk hch hexecLen)
    obtain rfl := succeed_next.1 (run_of_withChunk hch hexecType)
    obtain rfl := succeed_next.1 (run_of_withChunk hch hexecData)
    obtain rfl := succeed_next.1 (run_of_withChunk hch hexecCrc)
    refine ⟨hlen.symm, ?_, hlen, hcrc⟩
    rintro _ ⟨⟩
    exact hvalid
  · obtain rfl | rfl | rfl | rfl := hi <;> exact withChunk_none hch _

theorem execChText_accepted {s : State} {c : Chunk} (hch : s.ch = some c)
    (hvalid : utf8Valid s.cfg.utf8 c.data = true) : execChText s = succeed 0 c.data s := by
  rw [execChText, withChunk_some hch, if_pos hvalid]

theorem execChText_rejected {s : State} {c : Chunk} (hch : s.ch = some c)
    (hinvalid : utf8Valid s.cfg.utf8 c.data = false) : execChText s = raise .invalidUtf8 0 s := by
  rw [execChText, withChunk_some hch, if_neg (Bool.eq_false_iff.1 hinvalid)]

/-- Settles O21: the parameter decides, and by R8 it accepts every seven-bit payload. -/
theorem textIsPayloadOrInvalidUtf8 : Obligations.TextIsPayloadOrInvalidUtf8 :=
  ⟨fun _ _ => rfl, fun s =>
    ⟨fun c hch => ⟨execChText_accepted hch, execChText_rejected hch, fun hascii =>
      execChText_accepted hch (sevenBitPayloadsAreText s.cfg.utf8 c.data hascii)⟩, fun hch => withChunk_none hch _⟩⟩

/-! ### The outcomes of CH.PARSE -/

/-- A type that is not four letters is the error, whatever follows (R172, line 4). -/
theorem parseChunk_invalidType (cfg : Params) (len : Word) {t : ChunkType} (ht : ¬ AllLetters t) (rest : List Byte) :
    parseChunk cfg (be32Bytes len ++ t.bytes ++ rest) = .error .invalidChunkType := by
  rw [parseChunk_typed, (typeValid_false_iff t).2 ht]
  rfl

theorem execChParse_ok {frame : List Byte} {c : Chunk} {k : Nat} {s : State}
    (h : parseChunk s.cfg frame = .ok (c, k)) : execChParse frame s = deliverChunk c s := by
  rw [execChParse, h]

/-- CH.PARSE answers the frame's error, or delivers its chunk (R181). -/
theorem execChParse_next {frame : List Byte} {s t : State} (h : execChParse frame s = .next t) :
    (∃ e, parseChunk s.cfg frame = .error e ∧ t = s.answer e.code (e.info 0) 0 []) ∨
      ∃ c k, parseChunk s.cfg frame = .ok (c, k) ∧ t = { s with ch := some c }.answer .ok 0 0 [] := by
  cases hparse : parseChunk s.cfg frame with
  | error e => exact .inl ⟨e, rfl, raiseFrame_next.1 ((execChParse_error hparse).symm.trans h)⟩
  | ok accepted =>
    obtain ⟨c, k⟩ := accepted
    exact .inr ⟨c, k, rfl, deliverChunk_next.1 ((execChParse_ok hparse).symm.trans h)⟩

/-- Settles O17, line by line of R172: the header, the type, the length, then the checksum and the capacity. -/
theorem parseFrameOutcomes : Obligations.ParseFrameOutcomes := by
  refine ⟨fun _ _ => rfl, fun s => ⟨fun B hshort => execChParse_error (parseChunk_short s.cfg hshort), fun len t =>
    ⟨fun rest ht => execChParse_error (parseChunk_invalidType s.cfg len ht rest), fun rest ht hcut => ?_,
      fun d rest crc ht hlen => ?_⟩⟩⟩
  · exact execChParse_error (parseChunk_cut s.cfg ((typeValid_iff t).2 ht) (by omega))
  · have hparse := parseChunk_complete s.cfg (crc := crc) ((typeValid_iff t).2 ht) hlen rest
    rw [chunkCrc] at hparse
    refine ⟨fun hcrc => ?_, fun hcrc hover => ?_, fun hcrc hfits => ?_⟩
    · rw [if_pos hcrc.symm] at hparse
      exact execChParse_error hparse
    · rw [if_neg (not_not.2 hcrc.symm), if_pos hover] at hparse
      exact execChParse_error hparse
    · rw [if_neg (not_not.2 hcrc.symm), if_neg (Nat.not_lt.2 hfits)] at hparse
      exact execChParse_ok hparse

/-! ### CH.PARSE and CH.SER undo each other -/

/-- Delivering the chunk that is loaded changes nothing but the response. -/
theorem deliverChunk_of_loaded {s : State} {c : Chunk} (hch : s.ch = some c) :
    deliverChunk c s = succeed 0 [] s := by
  rw [deliverChunk, ← hch]

/-- Settles O23: the chunk that comes back is the one loaded. -/
theorem serializedChunkParsesBack : Obligations.SerializedChunkParsesBack := by
  intro s t c rest hch hok hexec
  obtain rfl := eq_of_exec_chSer hch hexec
  exact (execChParse_ok (parseChunk_serChunk s.cfg (hok c hch) rest)).trans (deliverChunk_of_loaded hch)

/-- Settles O24: no frame error answers `OK`, so the frame was accepted, and its bytes are the chunk's frame. -/
theorem parsedFrameSerializesBack : Obligations.ParsedFrameSerializesBack := by
  intro s t B hexec hcode
  obtain ⟨e, -, rfl⟩ | ⟨c, k, hparse, rfl⟩ := execChParse_next hexec
  · obtain ⟨herror, -⟩ := frameError_isError e 0
    exact absurd hcode herror
  · obtain ⟨hok, rfl, hlong, hB⟩ := parseChunk_ok hparse
    have ⟨_, hlen, _, _⟩ := hok
    have hframe : B.take (12 + c.len.toNat) = serChunk c := by
      rw [hB, List.take_left' (by rw [serChunk_length, hlen])]
    refine ⟨c, rfl, hok, hlong, ?_⟩
    rw [hframe]
    exact execChSer_loaded rfl

/-- R202 (c), with the signature in front. -/
theorem serContainer_inj {cs ds : List Chunk} (hc : ∀ c ∈ cs, c.data.length = c.len.toNat)
    (hd : ∀ d ∈ ds, d.data.length = d.len.toNat) (h : serContainer cs = serContainer ds) : cs = ds :=
  flatMap_serChunk_inj hc hd (List.append_cancel_left h)

/-- Settles O58: the outputs are `serChunk` of the chunk and `serContainer` of the store, which are injective. -/
theorem serializersAreInjective : Obligations.SerializersAreInjective := by
  refine ⟨fun s t s' t' c c' rest rest' hch hch' hlen hlen' hexec hexec' hout => ?_,
    fun s t s' t' hlens hlens' hexec hexec' hout => ?_⟩
  · obtain rfl := eq_of_exec_chSer hch hexec
    obtain rfl := eq_of_exec_chSer hch' hexec'
    exact serChunk_append_inj hlen hlen' hout
  · obtain rfl : t = s.answer .ok 0 0 (serContainer s.cs) := succeed_next.1 hexec
    obtain rfl : t' = s'.answer .ok 0 0 (serContainer s'.cs) := succeed_next.1 hexec'
    exact serContainer_inj hlens hlens' hout

/-- Settles O59, by the law of the parser on a frame cut short. -/
theorem cutFrameIsUnexpectedEof : Obligations.CutFrameIsUnexpectedEof := by
  intro s t c k hch hok hexec hk
  obtain rfl := eq_of_exec_chSer hch hexec
  obtain ⟨hvalid, hlen, -, -⟩ := hok c hch
  rw [State.answer_out, serChunk_length, hlen] at hk
  exact execChParse_error (parseChunk_take_serChunk s.cfg hvalid hlen hk)

end Sys2Proof.Machine
end

section
/-! SUPPORT. The statements about U-CONT (43_container.md): emitting and counting the store (R204, R210), the operations
on its entries (R206 to R209, R211), every outcome of CT.PARSE (R201, R203, R205), and that CT.PARSE and CT.SER undo
each other (R202). -/

namespace Sys2Proof.Machine

/-! ### Emitting and counting the store -/

theorem exec_ctSer (s : State) : exec .ctSer s = .next (s.answer .ok 0 0 (serContainer s.cs)) := rfl

/-- An answer of CT.SER is the container of the store (R204). -/
theorem eq_of_exec_ctSer {s t : State} (hexec : exec .ctSer s = .next t) :
    t = s.answer .ok 0 0 (serContainer s.cs) :=
  succeed_next.1 hexec

/-- Settles O26: the frames are emitted as the store holds them, and I-CS says how long each is. -/
theorem serializeAndCountContainer : Obligations.SerializeAndCountContainer := by
  refine ⟨fun _ _ => ⟨rfl, rfl⟩, fun s => ⟨exec_ctSer s, fun t hstore hexec => ?_, rfl⟩⟩
  obtain ⟨hchunks, -⟩ := hstore
  rw [eq_of_exec_ctSer hexec, State.answer_out, serContainer_length_of_ok hchunks]

/-! ### The operations on entries -/

theorem execCtAppend_fits {s : State} {c : Chunk} (hch : s.ch = some c) (hroom : s.cs.length < s.cfg.maxChunks.toNat) :
    execCtAppend s = succeed 0 [] { s with cs := s.cs ++ [c] } := by
  rw [execCtAppend, withChunk_some hch, if_neg (Nat.not_le.2 hroom)]

theorem execCtAppend_full {s : State} {c : Chunk} (hch : s.ch = some c)
    (hfull : s.cfg.maxChunks.toNat ≤ s.cs.length) : execCtAppend s = raiseProtocol .cap s := by
  rw [execCtAppend, withChunk_some hch, if_pos hfull]

/-- Settles O28: without a chunk the store is not looked at; with one, its count decides. -/
theorem appendAddsAtTheEnd : Obligations.AppendAddsAtTheEnd :=
  ⟨fun _ _ => rfl, fun _ =>
    ⟨fun hch => withChunk_none hch _, fun _ hch => ⟨execCtAppend_fits hch, execCtAppend_full hch⟩⟩⟩

theorem execCtRemove_found {s : State} {ct : ChunkType} {c : Chunk} (hty : s.ty = some ct)
    (hfind : findChunk s.cs ct = some c) :
    execCtRemove s = deliverChunk c { s with cs := removeChunk s.cs ct } := by
  rw [execCtRemove, withType_some hty, hfind]

theorem execCtRemove_absent {s : State} {ct : ChunkType} (hty : s.ty = some ct) (hfind : findChunk s.cs ct = none) :
    execCtRemove s = raise .chunkNotFound 0 s := by
  rw [execCtRemove, withType_some hty, hfind]

/-- The entry that the search stops at, where the store splits around it (R206). -/
theorem execCtRemove_split {s : State} {pre post : List Chunk} {c : Chunk} (hcs : s.cs = pre ++ c :: post)
    (hty : s.ty = some c.type) (hpre : ∀ x ∈ pre, x.type ≠ c.type) :
    execCtRemove s = deliverChunk c { s with cs := pre ++ post } := by
  rw [execCtRemove_found hty (findChunk_eq_some.2 ⟨rfl, pre, post, hcs, hpre⟩), hcs, removeChunk_split rfl hpre]

/-- Settles O29, by what `findChunk` answers: the first entry of the type, or none. -/
theorem removeAndFindTakeTheFirstMatch : Obligations.RemoveAndFindTakeTheFirstMatch := by
  refine ⟨fun _ _ => ⟨rfl, rfl⟩, fun s => ⟨fun pre post c hcs hty hpre => ?_, fun ct hty habsent => ?_, fun hty => ?_⟩⟩
  · exact ⟨execCtRemove_split hcs hty hpre, execCtFind_found hty (findChunk_eq_some.2 ⟨rfl, pre, post, hcs, hpre⟩)⟩
  · have hfind : findChunk s.cs ct = none := findChunk_eq_none.2 habsent
    exact ⟨execCtRemove_absent hty hfind, execCtFind_absent hty hfind⟩
  · exact ⟨withType_none hty _, withType_none hty _⟩

/-- Settles O30: an index below the count has an entry, and no other has one. -/
theorem getEntryByIndex : Obligations.GetEntryByIndex :=
  ⟨fun _ _ => rfl, fun _ _ =>
    ⟨fun h => execCtGet_some (List.getElem?_eq_getElem h), fun h => execCtGet_none (List.getElem?_eq_none h)⟩⟩

/-- Where the last entry is the only one of its type, CT.REMOVE leaves the entries before it. -/
theorem execCtRemove_last {s : State} {pre : List Chunk} {c : Chunk} (hcs : s.cs = pre ++ [c])
    (hty : s.ty = some c.type) (hpre : ∀ x ∈ pre, x.type ≠ c.type) :
    execCtRemove s = deliverChunk c { s with cs := pre } := by
  rw [execCtRemove_split hcs hty hpre, List.append_nil]

/-- Settles O34: the appended chunk is the only entry of its type, so CT.REMOVE takes that one out, and delivers into
`CH` what is there already. -/
theorem appendThenRemoveRestores : Obligations.AppendThenRemoveRestores := by
  intro s t u v w c hch hty hnone hroom happend hremove hser hser'
  obtain rfl : t = { s with cs := s.cs ++ [c] }.answer .ok 0 0 [] :=
    succeed_next.1 ((execCtAppend_fits hch hroom).symm.trans happend)
  have hlast : exec .ctRemove ({ s with cs := s.cs ++ [c] }.answer .ok 0 0 []) = deliverChunk c (s.answer .ok 0 0 []) :=
    execCtRemove_last (s := ({ s with cs := s.cs ++ [c] } : State).answer .ok 0 0 []) rfl hty hnone
  rw [hlast, deliverChunk_of_loaded (s := s.answer .ok 0 0 []) hch] at hremove
  obtain rfl : u = s.answer .ok 0 0 [] := succeed_next.1 hremove
  refine ⟨List.length_append, rfl, ?_⟩
  rw [eq_of_exec_ctSer hser, eq_of_exec_ctSer hser']
  rfl

/-! ### The outcomes of CT.PARSE -/

theorem parseContainer_badSignature (cfg : Params) {B : List Byte} (h : B.take 8 ≠ signature) :
    parseContainer cfg B = .error .badSignature :=
  if_pos h

section
variable {cfg : Params} {fuel : Nat} {done : List Chunk} {B : List Byte}

/-- While bytes remain, a frame that does not parse ends the loop with its index (R201, R205). -/
theorem parseFrames_of_error {e : FrameError} (hB : B ≠ []) (hfuel : B.length ≤ fuel)
    (hparse : parseChunk cfg B = .error e) : parseFrames cfg fuel done B = .error (.frame e done.length) := by
  obtain ⟨b, rest, rfl⟩ := List.exists_cons_of_ne_nil hB
  obtain ⟨fuel, rfl⟩ := Nat.exists_eq_add_one_of_ne_zero (Nat.ne_zero_of_lt hfuel)
  rw [parseFrames, hparse]

/-- A frame that parses when the capacity is reached ends the loop (R201, R67). -/
theorem parseFrames_of_full {c : Chunk} {k : Nat} (hB : B ≠ []) (hfuel : B.length ≤ fuel)
    (hparse : parseChunk cfg B = .ok (c, k)) (hfull : cfg.maxChunks.toNat ≤ done.length) :
    parseFrames cfg fuel done B = .error (.frame .cap done.length) := by
  obtain ⟨b, rest, rfl⟩ := List.exists_cons_of_ne_nil hB
  obtain ⟨fuel, rfl⟩ := Nat.exists_eq_add_one_of_ne_zero (Nat.ne_zero_of_lt hfuel)
  rw [parseFrames, hparse]
  exact if_pos hfull

end

/-- After good frames, the first one that does not parse decides (R201, R205). -/
theorem parseContainer_append_bad {cfg : Params} {good : List Chunk} {bad : List Byte} {e : FrameError}
    (hgood : StoreOk cfg good) (hbad : bad ≠ []) (hparse : parseChunk cfg bad = .error e) :
    parseContainer cfg (serContainer good ++ bad) = .error (.frame e good.length) := by
  obtain ⟨fuel, hfuel, hloop⟩ := parseContainer_append cfg good bad hgood
  rw [hloop, parseFrames_of_error hbad hfuel hparse]

theorem serChunk_append_ne_nil (c : Chunk) (rest : List Byte) : serChunk c ++ rest ≠ [] :=
  List.cons_ne_nil _ _

/-- A sound frame past the capacity is refused (R201, R67). -/
theorem parseContainer_append_over {cfg : Params} {good : List Chunk} {c : Chunk} (more : List Byte)
    (hgood : StoreOk cfg good) (hc : c.Ok cfg) (hfull : cfg.maxChunks.toNat ≤ good.length) :
    parseContainer cfg (serContainer good ++ (serChunk c ++ more)) = .error (.frame .cap good.length) := by
  obtain ⟨fuel, hfuel, hloop⟩ := parseContainer_append cfg good (serChunk c ++ more) hgood
  rw [hloop, parseFrames_of_full (serChunk_append_ne_nil c more) hfuel (parseChunk_serChunk cfg hc more) hfull]

section
variable {s : State} {file : List Byte}

theorem execCtParse_badSignature (h : parseContainer s.cfg file = .error .badSignature) :
    execCtParse file s = raise .badSignature 0 s := by
  rw [execCtParse, h]

theorem execCtParse_badFrame {e : FrameError} {index : Nat} (h : parseContainer s.cfg file = .error (.frame e index)) :
    execCtParse file s = raiseFrame e (BitVec.ofNat 32 index) s := by
  rw [execCtParse, h]

theorem execCtParse_ok {cs : List Chunk} (h : parseContainer s.cfg file = .ok cs) :
    execCtParse file s = succeed 0 [] { s with cs := cs } := by
  rw [execCtParse, h]

/-- CT.PARSE answers `OK` only where the file parses, and the store is then what it parses to (R203). -/
theorem execCtParse_next_ok {t : State} (hexec : execCtParse file s = .next t) (hcode : t.code = .ok) :
    ∃ cs, parseContainer s.cfg file = .ok cs ∧ t = { s with cs := cs }.answer .ok 0 0 [] := by
  cases hparse : parseContainer s.cfg file with
  | ok cs => exact ⟨cs, rfl, succeed_next.1 ((execCtParse_ok hparse).symm.trans hexec)⟩
  | error e =>
    cases e with
    | badSignature =>
      obtain rfl := raise_next.1 ((execCtParse_badSignature hparse).symm.trans hexec)
      cases hcode
    | frame e index =>
      obtain rfl := raiseFrame_next.1 ((execCtParse_badFrame hparse).symm.trans hexec)
      obtain ⟨herror, -⟩ := frameError_isError e (BitVec.ofNat 32 index)
      exact absurd hcode herror

end

/-- INFO of a frame error in terms of its code: the index, or `P_CAP` (R205, R292). -/
theorem FrameError.info_eq (e : FrameError) (index : Word) :
    e.info index = if e.code = .protocol then 3 else index := by
  cases e <;> rfl

/-- Settles O31, by where the loop of R201 stops: at the signature, at the end, at a frame that CH.PARSE does not accept
either, or at the capacity. -/
theorem parseContainerOutcomes : Obligations.ParseContainerOutcomes := by
  refine ⟨fun _ _ => rfl, fun s => ⟨fun B hsig => execCtParse_badSignature (parseContainer_badSignature s.cfg hsig),
    fun good hgood => ⟨execCtParse_ok (parseContainer_serContainer s.cfg hgood), fun bad u hbad hexec hcode => ?_,
      fun c more hc hfull => execCtParse_badFrame (parseContainer_append_over more hgood hc hfull.ge)⟩⟩⟩
  obtain ⟨e, hparse, rfl⟩ | ⟨c, k, -, rfl⟩ := execChParse_next hexec
  · rw [State.answer_code, ← FrameError.info_eq]
    exact execCtParse_badFrame (parseContainer_append_bad hgood hbad hparse)
  · exact absurd rfl hcode

/-! ### CT.PARSE and CT.SER undo each other -/

/-- Settles O32: the store that comes back is the one there. -/
theorem serializedContainerParsesBack : Obligations.SerializedContainerParsesBack := by
  intro s t hstore hexec
  obtain rfl := eq_of_exec_ctSer hexec
  exact execCtParse_ok (parseContainer_serContainer s.cfg hstore)

/-- Settles O33: the file parsed, so its bytes are the container of the store it left. -/
theorem parsedContainerSerializesBack : Obligations.ParsedContainerSerializesBack := by
  intro s t B hexec hcode
  obtain ⟨cs, hparse, rfl⟩ := execCtParse_next_ok hexec hcode
  obtain ⟨hstore, hbytes⟩ := parseContainer_ok hparse
  refine ⟨hstore, ?_⟩
  rw [exec_ctSer, State.answer_cs, hbytes]

end Sys2Proof.Machine
end

section
/-! SUPPORT. The statements about the system operation (R230) and the host's sequences ENCODE, DECODE, REMOVE and PRINT
(R234 to R237) of 44_system_and_host.md. -/

namespace Sys2Proof.Machine

/-- Settles O42: `resetRegs` takes every register from the reset state, and CRCACC is its initial remainder there. -/
theorem sysResetPutsEveryRegisterAtItsResetValue : Obligations.SysResetPutsEveryRegisterAtItsResetValue :=
  ⟨fun _ _ => rfl, fun _ => rfl⟩

/-! ### Issuing one operation -/

/-- A sequence goes on after an operation that succeeds. -/
theorem issue_succeed {i : Instr} {s u : State} {res : Word} {out : List Byte} {go : State → SequenceResult}
    (h : exec i s = succeed res out u) : issue i s go = go (u.answer .ok 0 res out) := by
  rw [issue, h]
  exact if_pos rfl

/-- A sequence stops at an operation that takes an error, so that no file is written. -/
theorem issue_raise_ne_wrote {i : Instr} {s v u : State} {code : Code} {info : Word} {go : State → SequenceResult}
    {file : List Byte} (h : exec i s = raise code info v) (hcode : code ≠ .ok) :
    issue i s go ≠ .next (u, .wrote file) := by
  have hstop : issue i s go = .next (v.answer code info 0 [], .failed code info) := by
    rw [issue, h]
    exact if_neg hcode
  rw [hstop]
  simp

/-! For each operation of the sequences, where it succeeds: the state the sequence goes on in. -/

section
variable {s : State} {go : State → SequenceResult}

theorem issue_ctParse {cs : List Chunk} (hstore : StoreOk s.cfg cs) :
    issue (.ctParse (serContainer cs)) s go = go ({ s with cs := cs }.answer .ok 0 0 []) :=
  issue_succeed (execCtParse_ok (parseContainer_serContainer s.cfg hstore))

theorem issue_tyLdt {t : ChunkType} (ht : AllLetters t) :
    issue (.tyLdt t.bytes) s go = go ({ s with ty := some t }.answer .ok 0 0 []) :=
  issue_succeed ((execTyLdt_bytes t s).trans (loadType_of_letters ht s))

theorem issue_tyWrt {t : ChunkType} (hty : s.ty = some t) :
    issue .tyWrt s go = go (s.answer .ok 0 (boolWord (t.b0.getLsbD 5)) []) := by
  rw [← safeToWrite_eq]
  exact issue_succeed (readProperty_some hty safeToWrite)

theorem issue_tyRdb {t : ChunkType} (hty : s.ty = some t) : issue .tyRdb s go = go (s.answer .ok 0 t.toWord []) :=
  issue_succeed (withType_some hty _)

theorem issue_chNew {t : ChunkType} {d : List Byte} (hty : s.ty = some t)
    (hfits : d.length ≤ s.cfg.maxPayload.toNat) :
    issue (.chNew d) s go = go ({ s with ch := some (mkChunk t d) }.answer .ok 0 0 []) :=
  issue_succeed (execChNew_fits hty hfits)

theorem issue_chType {c : Chunk} (hch : s.ch = some c) :
    issue .chType s go = go ({ s with ty := some c.type }.answer .ok 0 0 []) :=
  issue_succeed (execChType_loaded hch)

theorem issue_chText {c : Chunk} (hch : s.ch = some c) (htext : utf8Valid s.cfg.utf8 c.data = true) :
    issue .chText s go = go (s.answer .ok 0 0 c.data) :=
  issue_succeed (execChText_accepted hch htext)

theorem issue_ctAppend {c : Chunk} (hch : s.ch = some c) (hroom : s.cs.length < s.cfg.maxChunks.toNat) :
    issue .ctAppend s go = go ({ s with cs := s.cs ++ [c] }.answer .ok 0 0 []) :=
  issue_succeed (execCtAppend_fits hch hroom)

theorem issue_ctFind {t : ChunkType} {c : Chunk} (hty : s.ty = some t) (hfind : findChunk s.cs t = some c) :
    issue .ctFind s go = go ({ s with ch := some c }.answer .ok 0 0 []) :=
  issue_succeed (execCtFind_found hty hfind)

/-- Where the last entry is the only one of its type. -/
theorem issue_ctRemove_last {cs : List Chunk} {c : Chunk} (hcs : s.cs = cs ++ [c]) (hty : s.ty = some c.type)
    (hnone : ∀ x ∈ cs, x.type ≠ c.type) :
    issue .ctRemove s go = go ({ s with cs := cs, ch := some c }.answer .ok 0 0 []) :=
  issue_succeed (execCtRemove_last hcs hty hnone)

theorem issue_ctGet {index : Word} {c : Chunk} (h : s.cs[index.toNat]? = some c) :
    issue (.ctGet index) s go = go ({ s with ch := some c }.answer .ok 0 0 []) :=
  issue_succeed (execCtGet_some h)

theorem issue_ctCount : issue .ctCount s go = go (s.answer .ok 0 s.count []) :=
  issue_succeed rfl

theorem issue_ctSer : issue .ctSer s go = go (s.answer .ok 0 0 (serContainer s.cs)) :=
  issue_succeed rfl

end

/-! ### The first two lines of ENCODE, DECODE and REMOVE -/

/-- The state after a container is parsed into the store and a type is loaded. -/
def State.opened (s : State) (cs : List Chunk) (t : ChunkType) : State :=
  { s with cs := cs, ty := some t }.answer .ok 0 0 []

@[simp] theorem State.opened_ty (s : State) (cs : List Chunk) (t : ChunkType) : (s.opened cs t).ty = some t := rfl

@[simp] theorem State.opened_ch (s : State) (cs : List Chunk) (t : ChunkType) : (s.opened cs t).ch = s.ch := rfl

@[simp] theorem State.opened_cs (s : State) (cs : List Chunk) (t : ChunkType) : (s.opened cs t).cs = cs := rfl

@[simp] theorem State.opened_cfg (s : State) (cs : List Chunk) (t : ChunkType) : (s.opened cs t).cfg = s.cfg := rfl

/-- CT.PARSE of a container's bytes, then TY.LDT of a type of letters. -/
theorem issue_ctParse_tyLdt {s : State} {cs : List Chunk} {t : ChunkType} (hstore : StoreOk s.cfg cs)
    (ht : AllLetters t) (go : State → SequenceResult) :
    (issue (.ctParse (serContainer cs)) s fun s1 => issue (.tyLdt t.bytes) s1 go) = go (s.opened cs t) := by
  rw [issue_ctParse hstore, issue_tyLdt ht]
  rfl

/-! ### ENCODE -/

/-- The lines of ENCODE after the eligibility check (R234): CH.NEW, CT.APPEND and CT.SER. -/
def hostEmbed (message : List Byte) (s : State) : SequenceResult :=
  issue (.chNew message) s fun s1 => issue .ctAppend s1 fun s2 => issue .ctSer s2 fun s3 =>
    .next (s3, .wrote s3.out)

/-- The eligibility check of ENCODE reads bit 5 of the type's first byte (R126, R234). -/
theorem hostEncode_opened {s : State} {cs : List Chunk} {t : ChunkType} (message : List Byte)
    (hstore : StoreOk s.cfg cs) (ht : AllLetters t) :
    hostEncode (serContainer cs) t.bytes message s =
      if t.b0.getLsbD 5 = true then hostEmbed message ((s.opened cs t).answer .ok 0 1 [])
      else .next ((s.opened cs t).answer .ok 0 0 [], .criticalRefused) := by
  rw [hostEncode, issue_ctParse_tyLdt hstore ht,
    issue_tyWrt (State.opened_ty s cs t), State.answer_res]
  cases t.b0.getLsbD 5
  · exact if_pos rfl
  · exact if_neg (by decide)

section
variable {s : State} {t : ChunkType} {message : List Byte}

/-- With the type loaded, a message that fits and room in the store, the new chunk is written after the store. -/
theorem hostEmbed_fits (hty : s.ty = some t) (hfits : message.length ≤ s.cfg.maxPayload.toNat)
    (hroom : s.cs.length < s.cfg.maxChunks.toNat) :
    ∃ u, hostEmbed message s = .next (u, .wrote (serContainer (s.cs ++ [mkChunk t message]))) := by
  rw [hostEmbed, issue_chNew hty hfits, issue_ctAppend (c := mkChunk t message), issue_ctSer]
  · exact ⟨_, rfl⟩
  · rfl
  · exact hroom

/-- A file is written only for a message that fits, into a store with room. -/
theorem fits_of_hostEmbed_wrote {u : State} {file : List Byte} (hty : s.ty = some t)
    (h : hostEmbed message s = .next (u, .wrote file)) :
    message.length ≤ s.cfg.maxPayload.toNat ∧ s.cs.length < s.cfg.maxChunks.toNat := by
  by_cases hfits : message.length ≤ s.cfg.maxPayload.toNat
  · refine ⟨hfits, not_le.1 fun hfull => ?_⟩
    rw [hostEmbed, issue_chNew hty hfits] at h
    exact absurd h (issue_raise_ne_wrote (execCtAppend_full rfl hfull) (by decide))
  · exact absurd h (issue_raise_ne_wrote (execChNew_over hty (not_le.1 hfits)) (by decide))

end

/-- A container with one chunk more is the container followed by that chunk's frame (R200). -/
theorem serContainer_append_singleton (cs : List Chunk) (c : Chunk) :
    serContainer (cs ++ [c]) = serContainer cs ++ serChunk c := by
  rw [serContainer_append_cons, List.flatMap_nil, List.append_nil]

/-- Settles O54: the check passes, and the container with the new chunk is the file followed by the chunk's frame. -/
theorem encodeAppendsOneFrame : Obligations.EncodeAppendsOneFrame := by
  intro s cs t message hstore hroom ht hancillary hfits
  obtain ⟨u, hwrote⟩ := hostEmbed_fits (s := (s.opened cs t).answer .ok 0 1 []) rfl hfits hroom
  refine ⟨u, ?_⟩
  rw [hostEncode_opened message hstore ht, if_pos hancillary, hwrote, State.answer_cs, State.opened_cs,
    serContainer_append_singleton]
  rfl

/-- Settles O55: the sequence ends at the eligibility check, which writes neither the store nor `CH`. -/
theorem encodeRefusesCriticalTypes : Obligations.EncodeRefusesCriticalTypes := by
  intro s cs t message hstore ht hcritical
  refine ⟨(s.opened cs t).answer .ok 0 0 [], ?_, rfl, rfl⟩
  rw [hostEncode_opened message hstore ht, if_neg (Bool.eq_false_iff.1 hcritical)]

/-- What a file written by ENCODE tells of its arguments (R234). -/
theorem hostEncode_wrote {s u : State} {cs : List Chunk} {t : ChunkType} {message file : List Byte}
    (hstore : StoreOk s.cfg cs) (h : hostEncode (serContainer cs) t.bytes message s = .next (u, .wrote file)) :
    AllLetters t ∧ StoreOk s.cfg (cs ++ [mkChunk t message]) ∧ file = serContainer (cs ++ [mkChunk t message]) := by
  by_cases ht : AllLetters t
  · rw [hostEncode_opened message hstore ht] at h
    split at h
    · obtain ⟨hfits, hroom⟩ := fits_of_hostEmbed_wrote (t := t) rfl h
      obtain ⟨v, hwrote⟩ := hostEmbed_fits (t := t) rfl hfits hroom
      have hchunk : (mkChunk t message).Ok s.cfg := mkChunk_ok s.cfg ((typeValid_iff t).2 ht) hfits
      refine ⟨ht, storeOk_append_singleton hstore hchunk hroom, ?_⟩
      obtain ⟨-, rfl⟩ : v = u ∧ serContainer (cs ++ [mkChunk t message]) = file := by
        simpa using hwrote.symm.trans h
      rfl
    · simp at h
  · rw [hostEncode, issue_ctParse hstore] at h
    exact absurd h
      (issue_raise_ne_wrote ((execTyLdt_bytes t _).trans (loadType_of_not_letters ht _)) (by decide))

/-! ### DECODE and REMOVE -/

section
variable {s : State} {cs : List Chunk} {c : Chunk} (hstore : StoreOk s.cfg (cs ++ [c])) (hc : AllLetters c.type)
  (hnone : ∀ x ∈ cs, x.type ≠ c.type)
include hstore hc hnone

/-- DECODE emits the payload of the file's last chunk, where no chunk before it has its type (R235). -/
theorem hostDecode_last (htext : utf8Valid s.cfg.utf8 c.data = true) :
    ∃ v, hostDecode (serContainer (cs ++ [c])) c.type.bytes s = .next (v, .text c.data) := by
  have hfind : findChunk (cs ++ [c]) c.type = some c := findChunk_eq_some.2 ⟨rfl, cs, [], rfl, hnone⟩
  rw [hostDecode, issue_ctParse_tyLdt hstore hc, issue_ctFind (State.opened_ty ..) hfind, issue_chText (c := c)]
  · exact ⟨_, rfl⟩
  · rfl
  · exact htext

/-- REMOVE writes the file without its last chunk, where no chunk before it has its type (R236). -/
theorem hostRemove_last :
    ∃ w, hostRemove (serContainer (cs ++ [c])) c.type.bytes s = .next (w, .wrote (serContainer cs)) := by
  rw [hostRemove, issue_ctParse_tyLdt hstore hc, issue_ctRemove_last (State.opened_cs ..) (State.opened_ty ..) hnone,
    issue_ctSer]
  exact ⟨_, rfl⟩

end

/-- Settles O56: the file written is a container whose last chunk is the new one, the only one of its type. -/
theorem decodeAndRemoveUndoEncode : Obligations.DecodeAndRemoveUndoEncode := by
  intro s s' s'' u cs t message file hstore hnone hcfg' hcfg'' hencode
  obtain ⟨ht, hstoreNew, rfl⟩ := hostEncode_wrote hstore hencode
  refine ⟨fun htext => ?_, ?_⟩
  · rw [← hcfg'] at hstoreNew htext
    exact hostDecode_last hstoreNew ht hnone htext
  · rw [← hcfg''] at hstoreNew
    exact hostRemove_last hstoreNew ht hnone

/-! ### PRINT -/

/-- The state after PRINT has read the type of entry `c` (R237, line 3). -/
def State.typeRead (s : State) (c : Chunk) : State :=
  { s with ch := some c, ty := some c.type }.answer .ok 0 c.type.toWord []

@[simp] theorem State.typeRead_cs (s : State) (c : Chunk) : (s.typeRead c).cs = s.cs := rfl

/-- CT.GET, CH.TYPE and TY.RDB on an index that has an entry. -/
theorem issue_ctGet_chType_tyRdb {s : State} {index : Word} {c : Chunk} (h : s.cs[index.toNat]? = some c)
    (go : State → SequenceResult) :
    (issue (.ctGet index) s fun s1 => issue .chType s1 fun s2 => issue .tyRdb s2 go) = go (s.typeRead c) := by
  rw [issue_ctGet h, issue_chType (c := c) rfl, issue_tyRdb (t := c.type) rfl]
  rfl

/-- Line 3 of PRINT from the entry after `done` on: the packed types of the rest of the store, in order. -/
theorem readTypes_from {s : State} {done rest : List Chunk} (go : State → List Word → SequenceResult)
    (hcs : s.cs = done ++ rest) (hcount : s.cs.length < 2 ^ 32) :
    ∃ t, readTypes rest.length (BitVec.ofNat 32 done.length) s go = go t (rest.map fun c => c.type.toWord) := by
  induction rest generalizing s done go with
  | nil => exact ⟨s, rfl⟩
  | cons c rest ih =>
    have hindex : (BitVec.ofNat 32 done.length).toNat = done.length := by
      rw [hcs, List.length_append, List.length_cons] at hcount
      rw [BitVec.toNat_ofNat, Nat.mod_eq_of_lt (by omega)]
    have hget : s.cs[(BitVec.ofNat 32 done.length).toNat]? = some c := by
      rw [hindex, hcs, List.getElem?_append_right le_rfl, Nat.sub_self, List.getElem?_cons_zero]
    have hnext : BitVec.ofNat 32 done.length + 1 = BitVec.ofNat 32 (done ++ [c]).length := by
      rw [List.length_append, List.length_singleton, BitVec.ofNat_add]
      rfl
    obtain ⟨t, hrest⟩ := ih (s := s.typeRead c) (done := done ++ [c]) (fun t types => go t (c.type.toWord :: types))
      (by rw [State.typeRead_cs, hcs, List.append_assoc, List.singleton_append]) hcount
    refine ⟨t, ?_⟩
    rw [List.length_cons, readTypes, issue_ctGet_chType_tyRdb hget, hnext]
    exact hrest

/-- PRINT of a legal container lists what line 4 makes of its packed types (R237). -/
theorem hostPrint_serContainer {s : State} {cs : List Chunk} (hstore : StoreOk s.cfg cs) :
    ∃ u, hostPrint (serContainer cs) s = .next (u, .listed (printList (cs.map fun c => c.type.toWord))) := by
  have ⟨_, hcapacity⟩ := hstore
  have hcount : cs.length < 2 ^ 32 := hcapacity.trans_lt s.cfg.maxChunks.isLt
  have hres : (BitVec.ofNat 32 cs.length).toNat = cs.length := by
    rw [BitVec.toNat_ofNat, Nat.mod_eq_of_lt hcount]
  obtain ⟨u, hread⟩ := readTypes_from (s := { s with cs := cs }.answer .ok 0 (BitVec.ofNat 32 cs.length) [])
    (done := []) (fun t types => .next (t, .listed (printList types))) rfl hcount
  refine ⟨u, ?_⟩
  rw [hostPrint, issue_ctParse hstore, issue_ctCount]
  exact (congrArg (readTypes · _ _ _) hres).trans hread

/-- With exactly one IEND among them, the types listed are those after it (R237, line 4). -/
theorem printList_one {pre post : List Word} (hpre : iendWord ∉ pre) (hpost : iendWord ∉ post) :
    printList (pre ++ iendWord :: post) = post := by
  have hone : (pre ++ iendWord :: post).count iendWord = 1 := by
    rw [List.count_append, List.count_cons_self, List.count_eq_zero.2 hpre, List.count_eq_zero.2 hpost]
  have hskip : ∀ x ∈ pre, decide (x ≠ iendWord) = true := fun _ hx =>
    decide_eq_true (ne_of_mem_of_not_mem hx hpre)
  rw [printList, if_pos hone, List.dropWhile_append_of_pos hskip, List.dropWhile_cons_of_neg (by simp), List.tail_cons]

theorem ChunkType.toWord_inj {t u : ChunkType} (h : t.toWord = u.toWord) : t = u := by
  rw [← ChunkType.ofWord_toWord t, h, ChunkType.ofWord_toWord]

theorem toWord_iend : (ChunkType.mk 0x49 0x45 0x4E 0x44).toWord = iendWord := by decide

/-- No chunk of another type than IEND has its packed type. -/
theorem iendWord_notMem_map_toWord {cs : List Chunk} (h : ∀ x ∈ cs, x.type ≠ ⟨0x49, 0x45, 0x4E, 0x44⟩) :
    iendWord ∉ cs.map fun c => c.type.toWord := by
  rw [List.mem_map, ← toWord_iend]
  rintro ⟨x, hx, hword⟩
  exact h x hx (ChunkType.toWord_inj hword)

/-- Settles O57: PRINT reads the packed types of the whole file, and the one IEND splits them. -/
theorem printListsTypesAfterTheOneIend : Obligations.PrintListsTypesAfterTheOneIend := by
  intro s pre post e hstore he hothers
  rw [he, List.forall_mem_append] at hothers
  obtain ⟨hpre, hpost⟩ := hothers
  obtain ⟨u, hprint⟩ := hostPrint_serContainer hstore
  refine ⟨u, hprint.trans ?_⟩
  rw [List.map_append, List.map_cons, he, toWord_iend,
    printList_one (iendWord_notMem_map_toWord hpre) (iendWord_notMem_map_toWord hpost)]
  rfl

end Sys2Proof.Machine
end

section
/-! SUPPORT. The statements about the byte-serial engine (45_byte_serial_engine.md): nothing is seen before completion
(R250), the engines end where the whole operations end (R268), and the other operations are single steps (R261). -/

namespace Sys2Proof.Machine

/-! ### Operations that move no stream -/

/-- The nine operations that move a stream, by command code (R261). -/
abbrev streamCodes : List Byte := [0x01#8, 0x03#8, 0x20#8, 0x21#8, 0x22#8, 0x25#8, 0x27#8, 0x30#8, 0x31#8]

/-- Without a stream to move, the start step is the whole operation (R261). -/
theorem startOp_eq_exec {i : Instr} (h : i.cmd ∉ streamCodes) (s : State) : startOp i s = exec i s := by
  cases i with
  | tyLdt | tyRdt | chNew | chParse | chSer | chData | chText | ctParse | ctSer => simp [Instr.cmd] at h
  | _ => rfl

/-- An operation that takes no input is one item at Level S (R250). -/
theorem wireForm_noInput {cmd : Byte} (h : inputCodes.contains cmd = false) (arg : Word) (input : List Byte)
    (rest : List HostEvent) : wireForm ⟨cmd, arg, input⟩ ++ rest = .start cmd arg :: rest := by
  rw [wireForm, h]; rfl

theorem inputCodes_subset_streamCodes : inputCodes ⊆ streamCodes := by decide

/-- Settles O53: both steps decode the same request, a reserved one too, and the start step is then `exec`. -/
theorem otherOperationsAreSingleSteps : Obligations.OtherOperationsAreSingleSteps := by
  intro s cmd arg rest hcmd hidle
  have hstream : cmd ∉ streamCodes := fun h => hcmd cmd h rfl
  have hinput : inputCodes.contains cmd = false :=
    Bool.eq_false_iff.2 fun h => hstream (inputCodes_subset_streamCodes (List.contains_iff_mem.1 h))
  have hstart : step { s with host := .start cmd arg :: rest } = startCommand cmd arg { s with host := rest } :=
    step_of_idle hidle
  have hwhole : step { s with host := .op ⟨cmd, arg, []⟩ :: rest } =
      runRequest ⟨cmd, arg, []⟩ { s with host := rest } := step_of_idle hidle
  rw [wireForm_noInput hinput, hstart, hwhole, startCommand, runRequest]
  cases hdecode : decode ⟨cmd, arg, []⟩ with
  | error e => rfl
  | ok i => exact startOp_eq_exec (by rwa [decode_cmd hdecode]) _

/-! ### What is seen before completion -/

/-- A next state that the result answers has no operation in progress (R257). -/
def Completes (result : Result) : Prop := ∀ t, result = .next t → t.eng = none

/-- A next state that the result answers with an operation still in progress differs from `s` only in the engine and in
what is lined up (R250). -/
def Unseen (s : State) (result : Result) : Prop :=
  ∀ t, result = .next t → t.eng ≠ none → t = { s with eng := t.eng, host := t.host }

theorem Completes.unseen {result : Result} (h : Completes result) (s : State) : Unseen s result :=
  fun t hnext hbusy => absurd (h t hnext) hbusy

theorem unseen_next {s : State} (eng : Option Engine) (host : List HostEvent) :
    Unseen s (.next { s with eng := eng, host := host }) := by
  rintro _ ⟨⟩ -; rfl

theorem completes_next {t : State} (h : t.eng = none) : Completes (.next t) := by
  rintro _ ⟨⟩; exact h

theorem completes_fault (f : Fault) : Completes (.fault f) := by
  rintro _ ⟨⟩

theorem unseen_fault (s : State) (f : Fault) : Unseen s (.fault f) := (completes_fault f).unseen s

theorem ite_completes {c : Prop} [Decidable c] {u v : Result} (hu : Completes u) (hv : Completes v) :
    Completes (if c then u else v) := by
  split
  · exact hu
  · exact hv

section
variable {s : State} (hidle : s.eng = none)
include hidle

theorem succeed_completes {res : Word} {out : List Byte} : Completes (succeed res out s) := completes_next hidle

theorem raise_completes {code : Code} {info : Word} : Completes (raise code info s) := completes_next hidle

theorem deliverChunk_completes {c : Chunk} : Completes (deliverChunk c s) := completes_next hidle

theorem withType_completes {run : ChunkType → Result} (h : ∀ ct, Completes (run ct)) :
    Completes (withType s run) := by
  unfold withType
  split
  · exact h _
  · exact raise_completes hidle

theorem withChunk_completes {run : Chunk → Result} (h : ∀ c, Completes (run c)) : Completes (withChunk s run) := by
  unfold withChunk
  split
  · exact h _
  · exact raise_completes hidle

theorem loadType_completes (ct : ChunkType) : Completes (loadType ct s) :=
  ite_completes (completes_next hidle) (raise_completes hidle)

theorem execTyLdt_completes (text : List Byte) : Completes (execTyLdt text s) := by
  unfold execTyLdt
  split
  · exact loadType_completes hidle _
  · exact raise_completes hidle

theorem execChParse_completes (frame : List Byte) : Completes (execChParse frame s) := by
  unfold execChParse
  split
  · exact raise_completes hidle
  · exact deliverChunk_completes hidle

theorem execCtParse_completes (file : List Byte) : Completes (execCtParse file s) := by
  unfold execCtParse
  split
  · exact raise_completes hidle
  · exact raise_completes hidle
  · exact completes_next hidle

theorem execCtRemove_completes : Completes (execCtRemove s) := by
  refine withType_completes hidle fun _ => ?_
  split
  · exact completes_next hidle
  · exact raise_completes hidle

theorem execCtFind_completes : Completes (execCtFind s) := by
  refine withType_completes hidle fun _ => ?_
  split
  · exact deliverChunk_completes hidle
  · exact raise_completes hidle

theorem execCtGet_completes (index : Word) : Completes (execCtGet index s) := by
  unfold execCtGet
  split
  · exact deliverChunk_completes hidle
  · exact raise_completes hidle

/-- At Level T an operation is complete when it answers (R14). -/
theorem exec_completes (i : Instr) : Completes (exec i s) := by
  cases i with
  | tyLdb ct => exact loadType_completes hidle ct
  | tyLdt text => exact execTyLdt_completes hidle text
  | tyRdb | tyRdt | tyCrit | tyPub | tyRsv | tySafe | tyWrt =>
    exact withType_completes hidle fun _ => succeed_completes hidle
  | crcInit | crcUpd => exact completes_next hidle
  | sysReset => exact completes_next rfl
  | crcRd | ctSer | ctCount => exact succeed_completes hidle
  | chNew =>
    exact withType_completes hidle fun _ => ite_completes (raise_completes hidle) (deliverChunk_completes hidle)
  | chParse frame => exact execChParse_completes hidle frame
  | chSer | chLen | chData | chCrc => exact withChunk_completes hidle fun _ => succeed_completes hidle
  | chType => exact withChunk_completes hidle fun _ => completes_next hidle
  | chText =>
    exact withChunk_completes hidle fun _ => ite_completes (succeed_completes hidle) (raise_completes hidle)
  | ctParse file => exact execCtParse_completes hidle file
  | ctAppend =>
    exact withChunk_completes hidle fun _ => ite_completes (raise_completes hidle) (completes_next hidle)
  | ctRemove => exact execCtRemove_completes hidle
  | ctFind => exact execCtFind_completes hidle
  | ctGet index => exact execCtGet_completes hidle index

theorem runRequest_completes (r : Request) : Completes (runRequest r s) := by
  unfold runRequest
  split
  · exact exec_completes hidle _
  · exact raise_completes hidle

/-- A start step sets the engine up, or is the whole operation (R251, R258, R259, R261). -/
theorem startOp_unseen (i : Instr) : Unseen s (startOp i s) := by
  cases i with
  | tyLdt | chNew | chParse | ctParse | tyRdt | chSer | chData | chText | ctSer => exact unseen_next _ _
  | _ => unfold startOp; exact (exec_completes hidle _).unseen s

theorem startCommand_unseen (cmd : Byte) (arg : Word) : Unseen s (startCommand cmd arg s) := by
  unfold startCommand
  split
  · exact startOp_unseen hidle _
  · exact (raise_completes hidle).unseen s

end

/-- What is unseen does not depend on what the host had lined up. -/
theorem Unseen.of_withHost {s : State} {host : List HostEvent} {result : Result}
    (h : Unseen { s with host := host } result) : Unseen s result := h

theorem serveIdle_unseen {s : State} (hidle : s.eng = none) : Unseen s (serveIdle s) := by
  unfold serveIdle
  split
  · exact unseen_next s.eng s.host
  · exact (completes_next rfl).unseen s
  · rename_i r rest _
    exact (runRequest_completes (s := { s with host := rest }) hidle r).unseen s
  · rename_i cmd arg rest _
    exact (startCommand_unseen (s := { s with host := rest }) hidle cmd arg).of_withHost
  · exact unseen_next s.eng _
  · exact unseen_next s.eng _

theorem emitStep_unseen (r : EmitRegs) (s : State) : Unseen s (r.emitStep s) := by
  unfold EmitRegs.emitStep
  split
  · exact (raise_completes rfl).unseen s
  split
  · exact unseen_next _ _
  · exact (succeed_completes rfl).unseen s
  · exact unseen_fault s _

theorem ParseRegs.complete_completes (r : ParseRegs) (p : Pend) (s : State) : Completes (r.complete p s) := by
  unfold ParseRegs.complete
  split
  · exact raise_completes rfl
  split
  · exact completes_next rfl
  · exact completes_next rfl
  · exact completes_fault _

theorem BuildRegs.complete_completes (r : BuildRegs) (s : State) : Completes (r.complete s) := by
  unfold BuildRegs.complete
  split
  · split
    · exact raise_completes rfl
    split
    · exact completes_fault _
    · exact completes_next rfl
  all_goals
    split
    · exact completes_fault _
    · exact raise_completes rfl

theorem TextRegs.complete_completes (r : TextRegs) (s : State) : Completes (r.complete s) :=
  ite_completes (loadType_completes rfl _) (raise_completes rfl)

theorem Engine.takeByte_unseen (e : Engine) (b : Byte) (s : State) : Unseen s (e.takeByte b s) := by
  cases e with
  | parse r =>
    unfold Engine.takeByte
    dsimp only
    split
    · exact unseen_next _ _
    · exact unseen_fault s _
  | build r => exact unseen_next _ _
  | text r => exact unseen_next _ _
  | emit r => exact emitStep_unseen r s

theorem Engine.takeEos_unseen (e : Engine) (s : State) : Unseen s (e.takeEos s) := by
  cases e with
  | parse r =>
    unfold Engine.takeEos
    dsimp only
    split
    · exact (r.complete_completes _ s).unseen s
    · exact unseen_fault s _
  | build r => exact (r.complete_completes s).unseen s
  | text r => exact (r.complete_completes s).unseen s
  | emit r => exact emitStep_unseen r s

theorem serveInput_unseen (e : Engine) (s : State) : Unseen s (serveInput e s) := by
  unfold serveInput
  split
  · exact unseen_fault s _
  · exact (completes_next rfl).unseen s
  · exact unseen_fault s _
  · exact unseen_fault s _
  · exact (e.takeByte_unseen _ _).of_withHost
  · exact (e.takeEos_unseen _).of_withHost

theorem serveOutput_unseen (r : EmitRegs) (s : State) : Unseen s (serveOutput r s) := by
  unfold serveOutput
  split
  · exact (completes_next rfl).unseen s
  all_goals exact emitStep_unseen r s

theorem step_unseen (s : State) : Unseen s (step s) := by
  unfold step serve
  split
  · rename_i hidle; exact serveIdle_unseen hidle
  · exact serveOutput_unseen _ s
  all_goals exact serveInput_unseen _ s

/-- Settles O49, by what is in progress: a start step or an item that does not complete writes the engine alone. -/
theorem nothingIsSeenBeforeCompletion : Obligations.NothingIsSeenBeforeCompletion := step_unseen

/-! ### The parsers -/

/-- The machine in mode `m` of the parser, fed `input` and EOS, completes with `result` (R252 to R257). -/
def ParsesTo (m : Mode) (input : List Byte) (s : State) (result : Result) : Prop :=
  ∃ r p, feed s.cfg (startParse m) input = some r ∧ r.takeEos = some p ∧ r.complete p s = result

/-- A decided error is what the parser raises at EOS. -/
theorem Ends.parsesTo_raise {s : State} {m : Mode} {input : List Byte} {code : Code} {info : Word}
    (h : Ends s.cfg (startParse m) input ⟨code, info⟩) (hidle : s.eng = none) (hcode : code ≠ .ok) :
    ParsesTo m input s (raise code info s) := by
  obtain ⟨r, hfeed, heos, -⟩ := h.ex
  refine ⟨r, _, hfeed, heos, (complete_err r _ s hcode).trans ?_⟩
  rw [State.idle_of_eng_none hidle]; rfl

/-- CH.PARSE (R256, R257): an accepted frame is kept, and what follows it drains. -/
theorem parsesTo_execChParse {s : State} (hidle : s.eng = none) (frame : List Byte) :
    ParsesTo .chunk frame s (execChParse frame s) := by
  have hspec := frame_spec s.cfg (startParse .chunk) frame rfl rfl rfl nofun
  cases hparse : parseChunk s.cfg frame with
  | error e =>
    rw [hparse] at hspec
    rw [execChParse_error hparse]
    exact hspec.parsesTo_raise hidle (frameError_code_ne_ok e)
  | ok accepted =>
    obtain ⟨c, k⟩ := accepted
    rw [hparse] at hspec
    obtain ⟨r, hmode, -, -, hchunk, hfeed⟩ := hspec
    have hkept : acceptFrame r = { r with pend := some ⟨.ok, 0⟩, kept := some c, ph := .drain } := by
      rw [acceptFrame, hmode, hchunk]; rfl
    rw [if_neg (by rintro ⟨⟨⟩, -⟩), hkept] at hfeed
    refine ⟨{ r with pend := some ⟨.ok, 0⟩, kept := some c, ph := .drain }, ⟨.ok, 0⟩, ?_, rfl, ?_⟩
    · rw [← List.take_append_drop k frame, feed_append, hfeed]
      exact feed_drain _ _ rfl _
    · rw [execChParse_ok hparse, ParseRegs.complete, hmode, State.idle_of_eng_none hidle]
      rfl

/-- The parser in CONT mode when the signature is in (R252). -/
def afterSignature : ParseRegs := { startParse .cont with ph := .len, bc := 0, lenr := 0 }

theorem parseContainer_of_signature (cfg : Params) {file : List Byte} (h : file.take 8 = signature) :
    parseContainer cfg file = parseFrames cfg file.length afterSignature.sh (file.drop 8) :=
  if_neg (not_not.2 h)

/-- CT.PARSE (R252, R256, R257): the signature, then the frames, each staged in the shadow store. -/
theorem parsesTo_execCtParse {s : State} (hidle : s.eng = none) (file : List Byte) :
    ParsesTo .cont file s (execCtParse file s) := by
  have hsig := sig_spec s.cfg file (startParse .cont) 0 rfl rfl rfl (by decide)
  rw [Nat.sub_zero, List.drop_zero] at hsig
  by_cases hsignature : file.take 8 = signature
  case neg =>
    rw [if_neg hsignature] at hsig
    rw [execCtParse_badSignature (parseContainer_badSignature s.cfg hsignature)]
    exact hsig.parsesTo_raise hidle nofun
  rw [if_pos hsignature] at hsig
  have hspec := frames_spec s.cfg file.length afterSignature (file.drop 8) rfl rfl rfl rfl rfl
    (by rw [List.length_drop]; omega)
  rw [← parseContainer_of_signature s.cfg hsignature] at hspec
  cases hparse : parseContainer s.cfg file with
  | ok cs =>
    rw [hparse] at hspec
    obtain ⟨r, hfeed, heos, hmode, hstore⟩ := hspec
    refine ⟨r, ⟨.ok, 0⟩, ?_, heos, ?_⟩
    · rw [← List.take_append_drop 8 file, feed_append, hsig]
      exact hfeed
    · rw [execCtParse_ok hparse, ParseRegs.complete, hmode, hstore, State.idle_of_eng_none hidle]
      rfl
  | error e =>
    rw [hparse] at hspec
    cases e with
    | badSignature => exact hspec.elim
    | frame e index =>
      have hends := ends_step s.cfg (startParse .cont) afterSignature _ _ _ hsig rfl hspec
      rw [List.take_append_drop] at hends
      rw [execCtParse_badFrame hparse]
      exact hends.parsesTo_raise hidle (frameError_code_ne_ok e)

/-- An operation whose engine completes with what `exec` answers runs at Level S as it does at Level T (R268). -/
theorem run_of_parsesTo {s t : State} {m : Mode} {cmd : Byte} {arg : Word} {input : List Byte} {rest : List HostEvent}
    {i begun : Instr} (hparse : ∀ u : State, u.eng = none → ParsesTo m input u (exec i u))
    (hidle : s.eng = none) (hstep : step { s with host := .op ⟨cmd, arg, input⟩ :: rest } = .next t)
    (hinput : inputCodes.contains cmd = true) (hwhole : decode ⟨cmd, arg, input⟩ = .ok i)
    (hbegun : decode ⟨cmd, arg, []⟩ = .ok begun)
    (hstart : ∀ u : State, startOp begun u = .next { u with eng := some (.parse (startParse m)) }) :
    Host.Core.run core (input.length + 2) { s with host := wireForm ⟨cmd, arg, input⟩ ++ rest } = .next t := by
  obtain ⟨r, p, hfeed, heos, hcomplete⟩ := hparse { s with host := rest } hidle
  have hexec := (step_op hidle hwhole).symm.trans hstep
  rw [wireForm_input _ _ _ _ hinput]
  exact start_run hidle ((step_start hidle hbegun).trans (hstart _)) hfeed heos (hcomplete.trans hexec)

/-- Settles O50: each parser, fed the whole input, completes with the answer of the whole operation. -/
theorem serialParsersAgreeWithLevelT : Obligations.SerialParsersAgreeWithLevelT := by
  intro s t cmd arg input rest hcmd hidle hstep
  obtain rfl | rfl := hcmd
  · exact run_of_parsesTo (fun _ h => parsesTo_execChParse h input) hidle hstep rfl rfl rfl fun _ => rfl
  · exact run_of_parsesTo (fun _ h => parsesTo_execCtParse h input) hidle hstep rfl rfl rfl fun _ => rfl

/-! ### CH.NEW and TY.LDT -/

/-- CH.NEW (R258): `BC` and `ACC` at EOS are the length and the checksum of R170. -/
theorem complete_startBuild {s : State} (hidle : s.eng = none) (payload : List Byte) :
    (payload.foldl (BuildRegs.takeByte s.cfg) (startBuild s)).complete s = execChNew payload s := by
  cases hty : s.ty with
  | none =>
    have hstart : startBuild s = ⟨.drain, 0, 0, false, some ⟨.protocol, SubReason.empty.word⟩, []⟩ := by
      rw [startBuild, hty]
    rw [hstart, build_drain _ _ _ rfl, execChNew, withType_none hty]
    show raise _ _ s.idle = _
    rw [State.idle_of_eng_none hidle]
    rfl
  | some ct =>
    have hstart : startBuild s = ⟨.data, 0, crcRun crcInitial ct.bytes, false, none, []⟩ := by
      rw [startBuild, hty]
    by_cases hfits : payload.length ≤ s.cfg.maxPayload.toNat
    · rw [hstart, build_fold _ _ _ rfl (by simpa using hfits), execChNew_fits hty hfits]
      have hlen : 0 + BitVec.ofNat 32 payload.length = BitVec.ofNat 32 payload.length := BitVec.zero_add _
      simp only [BuildRegs.complete, hty, State.idle_of_eng_none hidle, deliverChunk, mkChunk, chunkCrc, crc32,
        crcRun_append, List.nil_append, hlen]
      rfl
    · have hover : s.cfg.maxPayload.toNat < payload.length := Nat.lt_of_not_le hfits
      obtain ⟨hph, hovf⟩ := build_over s.cfg payload (startBuild s) (by rw [hstart])
        (.inr (by rw [hstart]; simpa using hover))
      rw [BuildRegs.complete, hph, hovf, execChNew_over hty hover, State.idle_of_eng_none hidle]
      rfl

/-- The count of TY.LDT (R261; log 19). -/
theorem text_bc (text : List Byte) (r : TextRegs) (h : r.bc ≤ 5) :
    (text.foldl TextRegs.takeByte r).bc.toNat = min 5 (r.bc.toNat + text.length) := by
  induction text generalizing r with
  | nil => simp only [List.foldl_nil, List.length_nil]; bv_omega
  | cons b text ih =>
    have hstep : (r.takeByte b).bc.toNat = min 5 (r.bc.toNat + 1) := by
      unfold TextRegs.takeByte
      split
      · show (r.bc + 1).toNat = _; bv_omega
      · show (5#32).toNat = _; bv_omega
    rw [List.foldl_cons, ih _ (TextRegs.takeByte_bc_le b h), hstep, List.length_cons]
    omega

/-- The first four bytes are kept as a type word (R261). -/
theorem text_be32Bytes (v : Word) : (be32Bytes v).foldl TextRegs.takeByte ⟨0, 0⟩ = ⟨4, v⟩ := by
  have hword := shiftIn_four (wordByte v 0) (wordByte v 1) (wordByte v 2) (wordByte v 3)
  rw [be32_wordByte] at hword
  exact congrArg (TextRegs.mk 4) hword

/-- Four bytes are those of a word (R89). -/
theorem eq_be32Bytes_of_length {text : List Byte} (h : text.length = 4) : ∃ v, text = be32Bytes v := by
  obtain ⟨v, hv⟩ := word4_eq_some_of_length h.ge
  refine ⟨v, (word4_some hv).trans ?_⟩
  rw [List.drop_eq_nil_of_le h.le, List.append_nil]

/-- TY.LDT (R261): the count at EOS is 4 exactly for a text of four bytes. -/
theorem complete_startText {s : State} (hidle : s.eng = none) (text : List Byte) :
    (text.foldl TextRegs.takeByte ⟨0, 0⟩).complete s = execTyLdt text s := by
  by_cases hlen : text.length = 4
  · obtain ⟨v, rfl⟩ := eq_be32Bytes_of_length hlen
    rw [text_be32Bytes, ← ChunkType.bytes_ofWord, execTyLdt_bytes, TextRegs.complete, if_pos rfl,
      State.idle_of_eng_none hidle]
  · have hbc := text_bc text ⟨0, 0⟩ (by decide)
    have hne : (text.foldl TextRegs.takeByte ⟨0, 0⟩).bc ≠ 4 := fun h => by
      have hfour : 4 = min 5 (0 + text.length) := by rwa [h] at hbc
      omega
    rw [TextRegs.complete, if_neg hne, execTyLdt, textType_eq_none hlen, State.idle_of_eng_none hidle]

/-- Settles O51: at EOS each engine holds what the whole operation computes from its input. -/
theorem serialLoadsAgreeWithLevelT : Obligations.SerialLoadsAgreeWithLevelT := by
  intro s t cmd arg input rest hcmd hidle hstep
  obtain rfl | rfl := hcmd
  · have hexec : exec (.tyLdt input) { s with host := rest } = .next t := (step_op hidle rfl).symm.trans hstep
    rw [wireForm_input _ _ _ _ rfl, run_next (step_start (i := .tyLdt []) hidle rfl)]
    exact textRun ⟨0, 0⟩ input _ rest rfl rfl
      ((complete_startText (s := { s with host := rest }) hidle input).trans hexec)
  · have hexec : exec (.chNew input) { s with host := rest } = .next t := (step_op hidle rfl).symm.trans hstep
    rw [wireForm_input _ _ _ _ rfl, run_next (step_start (i := .chNew []) hidle rfl)]
    exact buildRun (startBuild s) input _ rest rfl rfl
      ((complete_startBuild (s := { s with host := rest }) hidle input).trans hexec)

/-! ### The serializers -/

/-- The operation whose output is emitted (R259). -/
def EmitJob.instr : EmitJob → Instr
  | .chSer => .chSer
  | .ctSer => .ctSer
  | .tyRdt => .tyRdt
  | .chData => .chData
  | .chText => .chText

theorem EmitJob.decode_cmd (job : EmitJob) (arg : Word) (input : List Byte) :
    decode ⟨job.instr.cmd, arg, input⟩ = .ok job.instr := by
  cases job <;> rfl

/-- The state after the start step of `job` (R259). -/
def State.emitting (s : State) (job : EmitJob) : State := { s with eng := some (.emit (startEmit job s)) }

theorem State.idle_emitting {s : State} (hidle : s.eng = none) (job : EmitJob) : (s.emitting job).idle = s :=
  State.idle_of_eng_none hidle

theorem EmitJob.startOp_instr (job : EmitJob) (s : State) : startOp job.instr s = .next (s.emitting job) := by
  cases job <;> rfl

theorem EmitJob.inputCodes_cmd (job : EmitJob) : inputCodes.contains job.instr.cmd = false := by
  cases job <;> rfl

/-- The engine of `job`, started in `s`, ends in `t`: it emits the output of `t` and answers `OK`, or it has decided on
an error (R259). -/
def EmitsTo (job : EmitJob) (s t : State) : Prop :=
  (job.verdict s).code = .ok ∧ (∃ out, Emits s (startEmit job s) out ∧ t = s.answer .ok 0 0 out) ∨
    (job.verdict s).code ≠ .ok ∧ t = s.answer (job.verdict s).code (job.verdict s).info 0 []

/-- The run of an emitting operation after its start step. -/
theorem EmitsTo.run {job : EmitJob} {s t : State} (h : EmitsTo job s t) (hidle : s.eng = none)
    (hreset : s.host.head? ≠ some .reset) :
    Host.Core.run core (t.out.length + 1) (s.emitting job) = .next t := by
  obtain ⟨hok, out, hemits, rfl⟩ | ⟨herror, rfl⟩ := h
  · have hemitting : Emits (s.emitting job) (startEmit job s) out :=
      emits_congr s (s.emitting job) rfl rfl rfl _ _ hemits
    have hrun := emit_run out (startEmit job s) (s.emitting job) rfl hreset hok hemitting
    rwa [State.idle_emitting hidle] at hrun
  · have hrun := emit_err (startEmit job s) (s.emitting job) rfl hreset herror
    rwa [State.idle_emitting hidle] at hrun

/-- TY.RDT, CH.DATA, CH.TEXT: a field of `len` bytes from its first byte on. -/
theorem emits_startEmit {s : State} {job : EmitJob} {field : List Byte} {len : Word} (hlen : field.length = len.toNat)
    (hnext : ∀ r : EmitRegs, r.job = job → r.next s = emitBytes r field len) : Emits s (startEmit job s) field :=
  emits_bytes s field len hlen (fun r => r.job = job) hnext (fun _ _ _ h => h) _ rfl (Nat.zero_le _)

theorem emitsTo_ok {s : State} {job : EmitJob} {out : List Byte} (hverdict : job.verdict s = ⟨.ok, 0⟩)
    (hemits : Emits s (startEmit job s) out) : EmitsTo job s (s.answer .ok 0 0 out) :=
  .inl ⟨by rw [hverdict], out, hemits, rfl⟩

theorem emitsTo_error {s : State} {job : EmitJob} {code : Code} {info : Word}
    (hverdict : job.verdict s = ⟨code, info⟩) (hcode : code ≠ .ok) : EmitsTo job s (s.answer code info 0 []) :=
  .inr (by rw [hverdict]; exact ⟨hcode, rfl⟩)

theorem tyRdt_emitsTo {s t : State} (hexec : execTyRdt s = .next t) : EmitsTo .tyRdt s t := by
  obtain ⟨ct, hty, hrun⟩ | ⟨hty, rfl⟩ := withType_next.1 hexec
  · obtain rfl := succeed_next.1 hrun
    refine emitsTo_ok (by rw [EmitJob.verdict, hty]; rfl) (emits_startEmit (len := 4) rfl fun r hr => ?_)
    rw [EmitRegs.next, hr, hty]
  · exact emitsTo_error (by rw [EmitJob.verdict, hty]; rfl) nofun

section
variable {s t : State} (hi : s.Inv)
include hi

/-- The payload of `CH` is as long as its length field says (I-CH, R22). -/
theorem emits_chunkData {c : Chunk} {job : EmitJob} (hch : s.ch = some c) (hjob : job = .chData ∨ job = .chText) :
    Emits s (startEmit job s) c.data := by
  obtain ⟨-, hlen, -, -⟩ := hi.chunk c hch
  refine emits_startEmit hlen fun r hr => ?_
  obtain rfl | rfl := hjob <;> rw [EmitRegs.next, hr, hch]

theorem chData_emitsTo (hexec : execChData s = .next t) : EmitsTo .chData s t := by
  obtain ⟨c, hch, hrun⟩ | ⟨hch, rfl⟩ := withChunk_next.1 hexec
  · obtain rfl := succeed_next.1 hrun
    exact emitsTo_ok (by rw [EmitJob.verdict, hch]; rfl) (emits_chunkData hi hch (.inl rfl))
  · exact emitsTo_error (by rw [EmitJob.verdict, hch]; rfl) nofun

/-- CH.TEXT: UTF8_VALID is evaluated at the start step as at Level T. -/
theorem chText_emitsTo (hexec : execChText s = .next t) : EmitsTo .chText s t := by
  obtain ⟨c, hch, hrun⟩ | ⟨hch, rfl⟩ := withChunk_next.1 hexec
  · split at hrun
    · rename_i hutf8
      obtain rfl := succeed_next.1 hrun
      exact emitsTo_ok (by rw [EmitJob.verdict, hch]; exact if_pos hutf8) (emits_chunkData hi hch (.inr rfl))
    · rename_i hutf8
      obtain rfl := raise_next.1 hrun
      exact emitsTo_error (by rw [EmitJob.verdict, hch]; exact if_neg hutf8) nofun
  · exact emitsTo_error (by rw [EmitJob.verdict, hch]; rfl) nofun

/-- CH.SER: one frame, then EOS. -/
theorem chSer_emitsTo (hexec : execChSer s = .next t) : EmitsTo .chSer s t := by
  obtain ⟨c, hch, hrun⟩ | ⟨hch, rfl⟩ := withChunk_next.1 hexec
  · obtain rfl := succeed_next.1 hrun
    obtain ⟨-, hlen, -, -⟩ := hi.chunk c hch
    have hemits := emits_frame s c hlen [] .chSer (.inr rfl) 0
      (fun r hjob hidx => by rw [EmitRegs.frame, hjob, hidx]; exact hch)
      (fun r hjob hph hbc hidx =>
        emits_end s .chSer (.inr rfl) r hjob hph hbc (by rw [EmitRegs.frame, hjob, hidx]; rfl))
      (startEmit .chSer s) rfl rfl rfl rfl
    rw [List.append_nil] at hemits
    exact emitsTo_ok (by rw [EmitJob.verdict, hch]; rfl) hemits
  · exact emitsTo_error (by rw [EmitJob.verdict, hch]; rfl) nofun

/-- CT.SER: the signature, then the frames of the store. -/
theorem ctSer_emitsTo (hexec : execCtSer s = .next t) : EmitsTo .ctSer s t := by
  obtain rfl := succeed_next.1 hexec
  obtain ⟨hchunks, hcount⟩ := hi.store
  have hlen : ∀ c ∈ s.cs, c.data.length = c.len.toNat := fun c hc => by
    obtain ⟨-, hlen, -, -⟩ := hchunks c hc
    exact hlen
  have hframes := emits_store s hlen (hcount.trans_lt s.cfg.maxChunks.isLt) [] s.cs rfl
  exact emitsTo_ok rfl (emits_sig s _ hframes _ rfl rfl rfl rfl)

theorem emitsTo_of_exec {job : EmitJob} (hexec : exec job.instr s = .next t) : EmitsTo job s t := by
  cases job with
  | tyRdt => exact tyRdt_emitsTo hexec
  | chSer => exact chSer_emitsTo hi hexec
  | chData => exact chData_emitsTo hi hexec
  | chText => exact chText_emitsTo hi hexec
  | ctSer => exact ctSer_emitsTo hi hexec

end

/-- Settles O52: what the engine emits is the output of the whole operation, and its verdict at the start step is that
operation's error. -/
theorem serialEmittersAgreeWithLevelT : Obligations.SerialEmittersAgreeWithLevelT := by
  intro s t cmd arg input rest hcmd hi hidle hreset hstep
  obtain ⟨job, rfl⟩ : ∃ job : EmitJob, cmd = job.instr.cmd := by
    obtain rfl | rfl | rfl | rfl | rfl := hcmd
    exacts [⟨.tyRdt, rfl⟩, ⟨.chSer, rfl⟩, ⟨.chData, rfl⟩, ⟨.chText, rfl⟩, ⟨.ctSer, rfl⟩]
  have hexec := (step_op hidle (job.decode_cmd arg input)).symm.trans hstep
  have hstart := (step_start (rest := rest) hidle (job.decode_cmd arg [])).trans (job.startOp_instr _)
  rw [wireForm_noInput job.inputCodes_cmd, run_next hstart]
  exact (emitsTo_of_exec (inv_host rest hi) hexec).run hidle hreset

end Sys2Proof.Machine
end

section
/-! SUPPORT. The statements about exceptions (60_exceptions.md): which errors each operation ends with and what an error
writes (R290, R292, R296), that no step from a safe state stops (R298, R324), and the idle block (R302). -/

namespace Sys2Proof.Machine

/-! ### How an operation ends -/

/-- The table of R290, row by row: the operations that end with the document error `code`. -/
def Code.DocumentErrorOf (code : Code) (i : Instr) : Prop :=
  match code with
  | .invalidChunkType => (∃ x, i = .tyLdb x) ∨ (∃ x, i = .tyLdt x) ∨ (∃ x, i = .chParse x) ∨ ∃ x, i = .ctParse x
  | .unexpectedEof | .crcMismatch => (∃ x, i = .chParse x) ∨ ∃ x, i = .ctParse x
  | .badSignature => ∃ x, i = .ctParse x
  | .chunkNotFound => i = .ctRemove ∨ i = .ctFind
  | .invalidUtf8 => i = .chText
  | .ok | .protocol => False

/-- The errors that `i` ends with, each with its INFO: a refused request (R292; `P_ILLEGAL` is no operation's), or a
document error of its own, where CT.PARSE alone reports an index (R26, R205). -/
inductive Raises (i : Instr) : Code → Word → Prop
  | protocol (why : SubReason) (hwhy : why ≠ .illegal) : Raises i .protocol why.word
  | document {code : Code} {info : Word} (hcode : code.DocumentErrorOf i)
      (hinfo : (∀ x, i ≠ .ctParse x) → info = 0) : Raises i code info

/-- The operation `i`, served in the state `s`, completes with `OK`, or takes one of its errors in `s` itself. -/
def EndsIn (i : Instr) (s : State) (result : Result) : Prop :=
  (∃ res out u, result = succeed res out u) ∨ ∃ code info, Raises i code info ∧ result = raise code info s

section
variable {i : Instr} {s : State}

theorem succeed_endsIn (res : Word) (out : List Byte) (u : State) : EndsIn i s (succeed res out u) :=
  .inl ⟨res, out, u, rfl⟩

theorem raiseProtocol_endsIn (why : SubReason) (hwhy : why ≠ .illegal := by decide) :
    EndsIn i s (raiseProtocol why s) :=
  .inr ⟨_, _, .protocol why hwhy, rfl⟩

theorem raise_document_endsIn {code : Code} {info : Word} (hcode : code.DocumentErrorOf i)
    (hinfo : (∀ x, i ≠ .ctParse x) → info = 0 := by exact fun _ => rfl) : EndsIn i s (raise code info s) :=
  .inr ⟨code, info, .document hcode hinfo, rfl⟩

/-- A frame error has a row of R290 for both parsers, but for a capacity refusal (R67). -/
theorem raiseFrame_endsIn (e : FrameError) {index : Word} (hparser : (∃ x, i = .chParse x) ∨ ∃ x, i = .ctParse x)
    (hindex : (∀ x, i ≠ .ctParse x) → index = 0) : EndsIn i s (raiseFrame e index s) := by
  cases e with
  | unexpectedEof => exact raise_document_endsIn (code := .unexpectedEof) hparser hindex
  | invalidChunkType => exact raise_document_endsIn (code := .invalidChunkType) (.inr (.inr hparser)) hindex
  | crcMismatch => exact raise_document_endsIn (code := .crcMismatch) hparser hindex
  | cap => exact raiseProtocol_endsIn .cap

theorem ite_endsIn {c : Prop} [Decidable c] {u v : Result} (hu : EndsIn i s u) (hv : EndsIn i s v) :
    EndsIn i s (if c then u else v) := by
  split
  · exact hu
  · exact hv

theorem withType_endsIn {run : ChunkType → Result} (h : ∀ ct, EndsIn i s (run ct)) : EndsIn i s (withType s run) := by
  unfold withType
  split
  · exact h _
  · exact raiseProtocol_endsIn .empty

theorem withChunk_endsIn {run : Chunk → Result} (h : ∀ c, EndsIn i s (run c)) : EndsIn i s (withChunk s run) := by
  unfold withChunk
  split
  · exact h _
  · exact raiseProtocol_endsIn .empty

theorem loadType_endsIn (ct : ChunkType) (h : Code.invalidChunkType.DocumentErrorOf i) :
    EndsIn i s (loadType ct s) :=
  ite_endsIn (succeed_endsIn ..) (raise_document_endsIn h)

theorem execTyLdt_endsIn (text : List Byte) : EndsIn (.tyLdt text) s (execTyLdt text s) := by
  have herror : Code.invalidChunkType.DocumentErrorOf (.tyLdt text) := .inr (.inl ⟨text, rfl⟩)
  unfold execTyLdt
  split
  · exact loadType_endsIn _ herror
  · exact raise_document_endsIn herror

theorem execChParse_endsIn (frame : List Byte) : EndsIn (.chParse frame) s (execChParse frame s) := by
  unfold execChParse
  split
  · exact raiseFrame_endsIn _ (.inl ⟨frame, rfl⟩) fun _ => rfl
  · exact succeed_endsIn ..

theorem execCtParse_endsIn (file : List Byte) : EndsIn (.ctParse file) s (execCtParse file s) := by
  unfold execCtParse
  split
  · exact raise_document_endsIn ⟨file, rfl⟩
  · exact raiseFrame_endsIn _ (.inr ⟨file, rfl⟩) fun h => absurd rfl (h file)
  · exact succeed_endsIn ..

theorem execCtRemove_endsIn : EndsIn .ctRemove s (execCtRemove s) := by
  refine withType_endsIn fun ct => ?_
  split
  · exact succeed_endsIn ..
  · exact raise_document_endsIn (.inl rfl)

theorem execCtFind_endsIn : EndsIn .ctFind s (execCtFind s) := by
  refine withType_endsIn fun ct => ?_
  split
  · exact succeed_endsIn ..
  · exact raise_document_endsIn (.inr rfl)

theorem execCtGet_endsIn (index : Word) : EndsIn (.ctGet index) s (execCtGet index s) := by
  unfold execCtGet
  split
  · exact succeed_endsIn ..
  · exact raiseProtocol_endsIn .range

end

theorem exec_endsIn (i : Instr) (s : State) : EndsIn i s (exec i s) := by
  cases i with
  | tyLdb ct => exact loadType_endsIn _ (.inl ⟨ct, rfl⟩)
  | tyLdt text => exact execTyLdt_endsIn text
  | tyRdb | tyRdt | tyCrit | tyPub | tyRsv | tySafe | tyWrt => exact withType_endsIn fun _ => succeed_endsIn ..
  | crcInit | crcUpd | crcRd | ctSer | ctCount | sysReset => exact succeed_endsIn ..
  | chNew => exact withType_endsIn fun _ => ite_endsIn (raiseProtocol_endsIn .cap) (succeed_endsIn ..)
  | chParse frame => exact execChParse_endsIn frame
  | chSer | chLen | chType | chData | chCrc => exact withChunk_endsIn fun _ => succeed_endsIn ..
  | chText => exact withChunk_endsIn fun _ => ite_endsIn (succeed_endsIn ..) (raise_document_endsIn rfl)
  | ctParse file => exact execCtParse_endsIn file
  | ctAppend => exact withChunk_endsIn fun _ => ite_endsIn (raiseProtocol_endsIn .cap) (succeed_endsIn ..)
  | ctRemove => exact execCtRemove_endsIn
  | ctFind => exact execCtFind_endsIn
  | ctGet index => exact execCtGet_endsIn index

/-- What the state after an operation says of its end. -/
theorem exec_next_cases {i : Instr} {s t : State} (hexec : exec i s = .next t) :
    t.code = .ok ∧ t.info = 0 ∨ Raises i t.code t.info ∧ t = s.answer t.code t.info 0 [] := by
  obtain ⟨res, out, u, hend⟩ | ⟨code, info, hraises, hend⟩ := exec_endsIn i s
  · obtain rfl := succeed_next.1 (hend.symm.trans hexec)
    exact .inl ⟨rfl, rfl⟩
  · obtain rfl := raise_next.1 (hend.symm.trans hexec)
    exact .inr ⟨hraises, rfl⟩

/-! ### What an error writes -/

theorem exec_error {i : Instr} {s t : State} (hexec : exec i s = .next t) (hcode : t.code ≠ .ok) :
    t = s.answer t.code t.info 0 [] := by
  obtain ⟨hok, -⟩ | ⟨-, ht⟩ := exec_next_cases hexec
  · exact absurd hok hcode
  · exact ht

theorem runRequest_error {r : Request} {s t : State} (hrun : runRequest r s = .next t) (hcode : t.code ≠ .ok) :
    t = s.answer t.code t.info 0 [] := by
  unfold runRequest at hrun
  split at hrun
  · exact exec_error hrun hcode
  · obtain rfl := raiseProtocol_next.1 hrun
    rfl

/-- Settles O35: a command served whole ends as its operation does, or as a reserved code. -/
theorem errorEntryChangesNothingElse : Obligations.ErrorEntryChangesNothingElse := by
  refine ⟨fun i s t => exec_error, fun r rest s t hidle hhost hstep => ?_⟩
  have hserve : step s = runRequest r { s with host := rest } := by rw [step_of_idle hidle, serveIdle, hhost]
  exact runRequest_error (hserve.symm.trans hstep)

/-! ### The errors of each operation -/

theorem Raises.code_ne_ok {i : Instr} {code : Code} {info : Word} (h : Raises i code info) : code ≠ .ok := by
  rintro rfl
  cases h with
  | document hcode _ => exact hcode

theorem Raises.info_of_protocol {i : Instr} {info : Word} (h : Raises i .protocol info) :
    info = 2 ∨ info = 3 ∨ info = 4 := by
  cases h with
  | protocol why hwhy =>
    cases why with
    | illegal => exact absurd rfl hwhy
    | empty => exact .inl rfl
    | cap => exact .inr (.inl rfl)
    | range => exact .inr (.inr rfl)
  | document hcode _ => exact hcode.elim

/-- Settles O36: an operation ends with `OK` and INFO 0, or with an error that it raises; each row of R290 is one of
the statement's alternatives. -/
theorem operationsRaiseOnlyTheirErrors : Obligations.OperationsRaiseOnlyTheirErrors := by
  intro i s t hexec
  obtain ⟨hok, hinfo⟩ | ⟨hraises, -⟩ := exec_next_cases hexec
  · simp [hok, hinfo]
  · generalize t.code = code, t.info = info at hraises
    refine ⟨?_, fun hok => absurd hok hraises.code_ne_ok, ?_, ?_⟩
    · cases hraises with
      | protocol => exact .inr (.inl rfl)
      | document hcode _ =>
        cases code with
        | ok | protocol => exact hcode.elim
        | _ => simpa [Code.DocumentErrorOf] using hcode
    · rintro rfl
      exact hraises.info_of_protocol
    · intro _ hne
      cases hraises with
      | protocol => exact absurd rfl hne
      | document _ hinfo => exact hinfo

/-! ### No step from a safe state stops -/

/-- The result is a next state whose host keeps to the protocol. -/
def Proceeds (result : Result) : Prop :=
  ∃ t, result = .next t ∧ hostKeepsProtocol t.awaiting t.host = true

theorem State.awaiting_of_idle {s : State} (h : s.eng = none) : s.awaiting = false := by
  rw [State.awaiting, h]

theorem State.awaiting_of_emit {s : State} {r : EmitRegs} (h : s.eng = some (.emit r)) : s.awaiting = false := by
  rw [State.awaiting, h]

/-- With no operation in progress no input is open (R231). -/
theorem proceeds_of_idle {result : Result} {t : State} (hnext : result = .next t) (hidle : t.eng = none)
    (hhost : hostKeepsProtocol false t.host = true) : Proceeds result :=
  ⟨t, hnext, by rw [State.awaiting_of_idle hidle]; exact hhost⟩

section
variable {s : State} (hidle : s.eng = none)
include hidle

theorem exec_proceeds (i : Instr) (hhost : hostKeepsProtocol false s.host = true) : Proceeds (exec i s) := by
  obtain ⟨t, hexec, -, hkept⟩ := exec_answers i s
  exact proceeds_of_idle hexec (exec_completes hidle i t hexec) (by rw [hkept]; exact hhost)

theorem raiseProtocol_proceeds (why : SubReason) (hhost : hostKeepsProtocol false s.host = true) :
    Proceeds (raiseProtocol why s) :=
  proceeds_of_idle rfl hidle hhost

theorem runRequest_proceeds (r : Request) (hhost : hostKeepsProtocol false s.host = true) :
    Proceeds (runRequest r s) := by
  unfold runRequest
  split
  · exact exec_proceeds hidle _ hhost
  · exact raiseProtocol_proceeds hidle .illegal hhost

/-- The start step opens an input exactly for the operations that take one (R231). -/
theorem startOp_proceeds (i : Instr) (hhost : hostKeepsProtocol (inputCodes.contains i.cmd) s.host = true) :
    Proceeds (startOp i s) := by
  cases i with
  | tyLdt | chNew | chParse | ctParse | tyRdt | chSer | chData | chText | ctSer => exact ⟨_, rfl, hhost⟩
  | _ => unfold startOp; exact exec_proceeds hidle _ hhost

theorem startCommand_proceeds (cmd : Byte) (arg : Word)
    (hhost : hostKeepsProtocol (inputCodes.contains cmd) s.host = true) : Proceeds (startCommand cmd arg s) := by
  unfold startCommand
  split
  · rename_i i hdecode
    exact startOp_proceeds hidle i (by rw [decode_cmd hdecode]; exact hhost)
  · rename_i hdecode
    exact raiseProtocol_proceeds hidle .illegal (by rw [← decode_err hdecode]; exact hhost)

theorem serveIdle_proceeds (hhost : hostKeepsProtocol false s.host = true) : Proceeds (serveIdle s) := by
  unfold serveIdle
  split
  · exact proceeds_of_idle rfl hidle hhost
  all_goals
    rename_i hevents
    rw [hevents] at hhost
  · exact proceeds_of_idle rfl rfl hhost
  · rename_i r rest
    exact runRequest_proceeds (s := { s with host := rest }) hidle r hhost
  · rename_i cmd arg rest
    exact startCommand_proceeds (s := { s with host := rest }) hidle cmd arg hhost
  · exact proceeds_of_idle rfl hidle hhost
  · exact proceeds_of_idle rfl hidle hhost

end

theorem emitStep_proceeds {s : State} {r : EmitRegs} (hi : s.Inv) (hr : r.Ok s)
    (hhost : hostKeepsProtocol false s.host = true) : Proceeds (r.emitStep s) := by
  obtain ⟨t, hstep, -, hafter, hkept⟩ := emitStep_ok hi hr
  have hawaiting : t.awaiting = false := by
    obtain hidle | ⟨r', hemit⟩ := hafter
    · exact State.awaiting_of_idle hidle
    · exact State.awaiting_of_emit hemit
  exact ⟨t, hstep, by rw [hawaiting, hkept]; exact hhost⟩

/-- An operation that takes its input, as opposed to one that emits. -/
def Engine.TakesInput : Engine → Prop
  | .parse _ | .build _ | .text _ => True
  | .emit _ => False

/-- A byte leaves the input open (R250). -/
theorem Engine.takeByte_proceeds {s : State} {e : Engine} (b : Byte) (hinput : e.TakesInput) (hok : e.Ok s)
    (hhost : hostKeepsProtocol true s.host = true) : Proceeds (e.takeByte b s) := by
  cases e with
  | parse r =>
    obtain ⟨r', htake, -⟩ := ParseRegs.takeByte_ok b hok
    exact ⟨{ s with eng := some (.parse r') }, by rw [Engine.takeByte, htake], hhost⟩
  | build | text => exact ⟨_, rfl, hhost⟩
  | emit => exact hinput.elim

/-- EOS completes the operation (R257, R258, R261). -/
theorem Engine.takeEos_proceeds {s : State} {e : Engine} (hinput : e.TakesInput) (hi : s.Inv) (hok : e.Ok s)
    (hhost : hostKeepsProtocol false s.host = true) : Proceeds (e.takeEos s) := by
  cases e with
  | parse r =>
    obtain ⟨t, p, heos, hcomplete, -, hidle, hkept⟩ := ParseRegs.takeEos_ok (inv_idle hi) hok
    exact proceeds_of_idle (by rw [Engine.takeEos, heos]; exact hcomplete) hidle (by rw [hkept]; exact hhost)
  | build r =>
    obtain ⟨t, hcomplete, -, hidle, hkept⟩ := BuildRegs.complete_ok (inv_idle hi) hok
    exact proceeds_of_idle hcomplete hidle (by rw [hkept]; exact hhost)
  | text r =>
    obtain ⟨t, hcomplete, -, hidle, hkept⟩ := TextRegs.complete_ok (r := r) (inv_idle hi)
    exact proceeds_of_idle hcomplete hidle (by rw [hkept]; exact hhost)
  | emit => exact hinput.elim

/-- The host neither stops before EOS nor issues an operation in between (R324), so the two faults of the port do not
occur. -/
theorem serveInput_proceeds {s : State} {e : Engine} (hinput : e.TakesInput) (hi : s.Inv) (hok : e.Ok s)
    (hhost : hostKeepsProtocol true s.host = true) : Proceeds (serveInput e s) := by
  unfold serveInput
  split <;> rename_i hevents <;> rw [hevents] at hhost
  · cases hhost
  · exact proceeds_of_idle rfl rfl hhost
  · cases hhost
  · cases hhost
  · exact Engine.takeByte_proceeds _ hinput (Engine.ok_withHost _ hok) hhost
  · exact Engine.takeEos_proceeds hinput (inv_host _ hi) (Engine.ok_withHost _ hok) hhost

theorem serveOutput_proceeds {s : State} {r : EmitRegs} (hi : s.Inv) (hr : r.Ok s)
    (hhost : hostKeepsProtocol false s.host = true) : Proceeds (serveOutput r s) := by
  unfold serveOutput
  split
  · rename_i hevents
    rw [hevents] at hhost
    exact proceeds_of_idle rfl rfl hhost
  all_goals exact emitStep_proceeds hi hr hhost

theorem step_proceeds {s : State} (hsafe : s.Safe) : Proceeds (step s) := by
  obtain ⟨hi, hhost⟩ := hsafe
  unfold step serve
  split <;> rename_i heng <;> simp only [State.awaiting, heng] at hhost
  · exact serveIdle_proceeds heng hhost
  · exact serveOutput_proceeds hi (hi.engine_ok heng) hhost
  all_goals exact serveInput_proceeds trivial hi (hi.engine_ok heng) hhost

/-- Settles O46: the step proceeds, and every step keeps the invariant (O45). -/
theorem safeStatesNeverStop : Obligations.SafeStatesNeverStop := by
  intro s hsafe
  have ⟨hi, _⟩ := hsafe
  obtain ⟨t, hstep, hhost⟩ := step_proceeds hsafe
  exact ⟨t, hstep, everyStepKeepsTheInvariant s t hi hstep, hhost⟩

/-! ### The idle block -/

/-- Settles O48, by the event that an idle block finds first. -/
theorem idleBlockKeepsItsState : Obligations.IdleBlockKeepsItsState := by
  intro s hidle
  rw [step_of_idle hidle]
  refine ⟨fun hhost => ?_, fun b rest hhost => ?_, fun rest hhost => ?_⟩ <;> rw [serveIdle, hhost]

end Sys2Proof.Machine
end

section
/-! SUPPORT. The statements about reset and hazards (70_reset_and_hazards.md): the hardware reset (R320), which
operations overwrite which register (R323), and a host that overlaps operations or stalls (R324). -/

namespace Sys2Proof.Machine

/-! ### The registers that an operation overwrites -/

/-- The list of R323: the state `u` is `s` but for registers that the operation overwrites; no operation has to. -/
inductive Overwrites (s : State) : Instr → State → Prop
  | nothing {i : Instr} : Overwrites s i s
  | tyLdb {t : ChunkType} (ct : ChunkType) : Overwrites s (.tyLdb t) { s with ty := some ct }
  | tyLdt {text : List Byte} (ct : ChunkType) : Overwrites s (.tyLdt text) { s with ty := some ct }
  | chType (ct : ChunkType) : Overwrites s .chType { s with ty := some ct }
  | chNew {payload : List Byte} (c : Chunk) : Overwrites s (.chNew payload) { s with ch := some c }
  | chParse {frame : List Byte} (c : Chunk) : Overwrites s (.chParse frame) { s with ch := some c }
  | ctFind (c : Chunk) : Overwrites s .ctFind { s with ch := some c }
  | ctGet {index : Word} (c : Chunk) : Overwrites s (.ctGet index) { s with ch := some c }
  | ctRemove (c : Chunk) (cs : List Chunk) : Overwrites s .ctRemove { s with cs := cs, ch := some c }
  | ctParse {file : List Byte} (cs : List Chunk) : Overwrites s (.ctParse file) { s with cs := cs }
  | ctAppend (cs : List Chunk) : Overwrites s .ctAppend { s with cs := cs }
  | crcInit (acc : Word) : Overwrites s .crcInit { s with crcacc := acc }
  | crcUpd {b : Byte} (acc : Word) : Overwrites s (.crcUpd b) { s with crcacc := acc }

/-- The operation `i`, served in the state `s`, latches its response in a state where it has overwritten listed
registers only. -/
def AnswersOverwriting (i : Instr) (s : State) (result : Result) : Prop :=
  ∃ u code info res out, Overwrites s i u ∧ result = .next (u.answer code info res out)

section
variable {i : Instr} {s : State}

theorem succeed_overwriting {res : Word} {out : List Byte} {u : State} (h : Overwrites s i u) :
    AnswersOverwriting i s (succeed res out u) :=
  ⟨u, .ok, 0, res, out, h, rfl⟩

theorem raise_overwriting {code : Code} {info : Word} : AnswersOverwriting i s (raise code info s) :=
  ⟨s, code, info, 0, [], .nothing, rfl⟩

theorem ite_overwriting {c : Prop} [Decidable c] {u v : Result} (hu : AnswersOverwriting i s u)
    (hv : AnswersOverwriting i s v) : AnswersOverwriting i s (if c then u else v) := by
  split
  · exact hu
  · exact hv

theorem withType_overwriting {run : ChunkType → Result} (h : ∀ ct, AnswersOverwriting i s (run ct)) :
    AnswersOverwriting i s (withType s run) := by
  unfold withType
  split
  · exact h _
  · exact raise_overwriting

theorem withChunk_overwriting {run : Chunk → Result} (h : ∀ c, AnswersOverwriting i s (run c)) :
    AnswersOverwriting i s (withChunk s run) := by
  unfold withChunk
  split
  · exact h _
  · exact raise_overwriting

theorem loadType_overwriting {ct : ChunkType} (h : Overwrites s i { s with ty := some ct }) :
    AnswersOverwriting i s (loadType ct s) :=
  ite_overwriting (succeed_overwriting h) raise_overwriting

theorem execTyLdt_overwriting (text : List Byte) : AnswersOverwriting (.tyLdt text) s (execTyLdt text s) := by
  unfold execTyLdt
  split
  · exact loadType_overwriting (.tyLdt _)
  · exact raise_overwriting

theorem execChParse_overwriting (frame : List Byte) :
    AnswersOverwriting (.chParse frame) s (execChParse frame s) := by
  unfold execChParse
  split
  · exact raise_overwriting
  · exact succeed_overwriting (.chParse _)

theorem execCtParse_overwriting (file : List Byte) : AnswersOverwriting (.ctParse file) s (execCtParse file s) := by
  unfold execCtParse
  split
  · exact raise_overwriting
  · exact raise_overwriting
  · exact succeed_overwriting (.ctParse _)

theorem execCtRemove_overwriting : AnswersOverwriting .ctRemove s (execCtRemove s) := by
  refine withType_overwriting fun ct => ?_
  split
  · exact succeed_overwriting (.ctRemove _ _)
  · exact raise_overwriting

theorem execCtFind_overwriting : AnswersOverwriting .ctFind s (execCtFind s) := by
  refine withType_overwriting fun ct => ?_
  split
  · exact succeed_overwriting (.ctFind _)
  · exact raise_overwriting

theorem execCtGet_overwriting (index : Word) : AnswersOverwriting (.ctGet index) s (execCtGet index s) := by
  unfold execCtGet
  split
  · exact succeed_overwriting (.ctGet _)
  · exact raise_overwriting

theorem exec_overwriting (hreset : i ≠ .sysReset) : AnswersOverwriting i s (exec i s) := by
  cases i with
  | sysReset => exact absurd rfl hreset
  | tyLdb ct => exact loadType_overwriting (.tyLdb ct)
  | tyLdt text => exact execTyLdt_overwriting text
  | tyRdb | tyRdt | tyCrit | tyPub | tyRsv | tySafe | tyWrt =>
    exact withType_overwriting fun _ => succeed_overwriting .nothing
  | crcInit => exact succeed_overwriting (.crcInit _)
  | crcUpd => exact succeed_overwriting (.crcUpd _)
  | crcRd | ctSer | ctCount => exact succeed_overwriting .nothing
  | chNew =>
    exact withType_overwriting fun _ => ite_overwriting raise_overwriting (succeed_overwriting (.chNew _))
  | chParse frame => exact execChParse_overwriting frame
  | chSer | chLen | chData | chCrc => exact withChunk_overwriting fun _ => succeed_overwriting .nothing
  | chType => exact withChunk_overwriting fun c => succeed_overwriting (.chType c.type)
  | chText =>
    exact withChunk_overwriting fun _ => ite_overwriting (succeed_overwriting .nothing) raise_overwriting
  | ctParse file => exact execCtParse_overwriting file
  | ctAppend =>
    exact withChunk_overwriting fun _ => ite_overwriting raise_overwriting (succeed_overwriting (.ctAppend _))
  | ctRemove => exact execCtRemove_overwriting
  | ctFind => exact execCtFind_overwriting
  | ctGet index => exact execCtGet_overwriting index

end

/-- Settles O38, row by row of R323's list: what a row does not overwrite stays, and the response is no register of the
statement. -/
theorem onlyListedOperationsOverwrite : Obligations.OnlyListedOperationsOverwrite := by
  intro i s t hexec hreset
  obtain ⟨u, code, info, res, out, hover, hanswer⟩ := exec_overwriting (s := s) hreset
  obtain rfl : t = u.answer code info res out := by rwa [hexec, Host.Outcome.next.injEq] at hanswer
  cases hover <;> simp

/-! ### The hardware reset -/

/-- Whatever is in progress, a hardware reset is served at once (R320). -/
theorem step_of_reset {s : State} {rest : List HostEvent} (h : s.host = .reset :: rest) :
    step s = .next { s.resetRegs with host := rest } := by
  unfold step serve
  split
  · rw [serveIdle, h]
  · rw [serveOutput, h]
  all_goals rw [serveInput, h]

/-- Settles O43: both take every register from the reset state, whose response is already `OK` without output. -/
theorem hardwareResetAbandonsTheOperation : Obligations.HardwareResetAbandonsTheOperation := by
  intro s rest hhost
  rw [step_of_reset hhost]
  exact ⟨rfl, rfl⟩

/-! ### Overlap and stall -/

theorem step_of_awaiting {s : State} (h : s.awaiting = true) : ∃ e, step s = serveInput e s := by
  unfold step serve
  split <;> rename_i heng
  · rw [State.awaiting_of_idle heng] at h; cases h
  · rw [State.awaiting_of_emit heng] at h; cases h
  all_goals exact ⟨_, rfl⟩

/-- Settles O47, by the event that an operation finds where it waits for an item. -/
theorem overlapAndStallHaveNoMeaning : Obligations.OverlapAndStallHaveNoMeaning := by
  intro s hawaiting
  obtain ⟨e, hstep⟩ := step_of_awaiting hawaiting
  rw [hstep]
  refine ⟨fun r rest hhost => ?_, fun cmd arg rest hhost => ?_, fun hhost => ?_⟩ <;> rw [serveInput, hhost]

end Sys2Proof.Machine
end
